-- ==== Sys2Proof/Word.lean ====
section
/-! DEFINITION. The word types of 00_scope.md R8 and R10. -/

namespace Sys2Proof

/-- A word of either port, 32 bits, bit 0 least significant (R8). -/
abbrev Word := BitVec 32

/-- An 8-bit field: `TAG`, `OPC`, a selection code, `FSTAT`. -/
abbrev Byte := BitVec 8

/-- The floating-point type `F` of R10, held as its binary32 bit pattern: sign in bit 31, exponent in bits
30..23, fraction in bits 22..0. `bitsOf` and `ofBits` of R10 are therefore the identity. -/
abbrev F := BitVec 32

end Sys2Proof
end

