-- ==== Sys2Proof/Config.lean ====
section
/-! DEFINITION. The configuration record `Cfg` of 00_scope.md R6, and the one the machine runs with.

A parameter that SUB033 or a decision values has that value here. A parameter that R6 marks OPEN is an opaque
constant with no body: no proof can use its value, so a theorem about the machine holds for every value the
type allows (R7; log entry 5). The bounds R6 puts on a parameter are in its type or in the accessor that reads it.
The semantics takes the whole record as an argument, so that a claim may also quantify over it. -/

namespace Sys2Proof

/-- The filter specification of 40_configuration.md R120. Rates and edges are in Hz. -/
structure FilterSpec where
  rateNum : Nat
  rateDen : Nat
  passCutoff : Rat
  passRipple : Rat
  stopStart : Rat
  stopRipple : Rat
  gridDensity : Nat
  oddLength : Bool
deriving DecidableEq, Repr, Inhabited

/-- The specification handed to the windowed-sinc fallback (R120, R121). -/
structure FallbackSpec where
  rateNum : Nat
  rateDen : Nat
  passCutoff : Rat
  stopStart : Rat
  minAttenDb : Rat
deriving DecidableEq, Repr, Inhabited

/-- A list of taps that is not empty, as R6 requires of `DecimTaps`, `ToneLpfTaps` and `ResampTaps`. -/
structure Taps where
  first : F
  rest : List F
deriving DecidableEq, Repr, Inhabited

/-- The taps as the list that is written into a coefficient memory. -/
def Taps.toList (t : Taps) : List F := t.first :: t.rest

/-- The operations whose result can be a NaN of a bit pattern the spec does not state (R10; log entry 6). -/
inductive FOp where
  | add | sub | mul | div | sqrt | db
deriving DecidableEq, Repr, Inhabited

/-- The parameters of R6 that are not literals of the rules themselves. `Nat` argument of a per-channel
parameter: the channel's number (60_exceptions.md R309). -/
structure Cfg where
  /-- `NCHAN`. -/
  nchan : ℕ+
  /-- `CHANNEL_BW`, Hz, fixed per channel instance. -/
  channelBw : Nat → ℕ+
  /-- `CHANNEL_ID`, fixed per channel instance. -/
  channelId : Nat → Word
  /-- `LANES`; members outside 2..255 are read by no rule (see `isLane`). -/
  lanes : List Nat
  passRipple : Rat
  stopRipple : Rat
  gridDensity : Nat
  oddLength : Bool
  equiripple : FilterSpec → Option (List F)
  fallback : FallbackSpec → Option (List F)
  /-- `DecimTaps fs D bw`. -/
  decimTaps : Nat → Nat → Nat → Taps
  /-- `ToneLpfTaps fs D`. -/
  toneLpfTaps : Nat → Nat → Taps
  /-- `ResampTaps L M`. -/
  resampTaps : Nat → Nat → Taps
  openDebounce : ℕ+
  closeDebounce : ℕ+
  /-- `AUTO_OFFSET`, dB. -/
  autoOffset : F
  /-- `Track`, the noise-floor tracker (42_squelch.md R194). -/
  track : Option F → F → F
  /-- `TONES`, Hz. -/
  tones : List Rat
  /-- `GoertzelCoeff f fs D`. -/
  goertzelCoeff : Rat → Nat → Nat → F
  toneMult : F
  toneFloor : F
  matchCount : ℕ+
  lossCount : ℕ+
  /-- `REBROADCAST_MS`. -/
  rebroadcastMs : Word
  thresholdReset : F
  hystOpenReset : F
  hystCloseReset : F
  gainReset : F
  /-- `db` where its three laws (R10) leave it open. -/
  dbOpen : F → F
  /-- The pattern of a NaN result; a value that is no NaN pattern is replaced by one (log entry 6). -/
  nanBits : FOp → F → F → F
  /-- Which channel the `n`-th scheduling choice names (log entry 4). -/
  pick : Nat → Nat
deriving Inhabited

namespace Config

/-! ### Parameters with a value -/

/-- `AUDIO_RATE`, Hz. -/
def audioRate : Nat := 8000
/-- `PASS_FRAC`. -/
def passFrac : Rat := 4 / 5
/-- `STOP_FRAC`. -/
def stopFrac : Rat := 1
/-- `FALLBACK_ATTEN_DB`. -/
def fallbackAttenDb : Rat := 60
/-- `TONE_WIN_MS`. -/
def toneWinMs : Nat := 500
/-- `MAX_LEN`, the largest value of a 16-bit `LEN` field. -/
def maxLen : Nat := 65535
/-- `TONE_MULT`: 2.0. -/
def toneMult : F := 0x40000000#32
/-- `MATCH_COUNT`. -/
def matchCount : ℕ+ := 2
/-- `LOSS_COUNT`. -/
def lossCount : ℕ+ := 2
/-- `REBROADCAST_MS`: 1000. -/
def rebroadcastMs : Word := 1000#32

/-! ### Defaults of OPEN parameters, for a reader who wants an instance; no rule reads them -/

/-- The default of `LANES` (R6, D12). -/
def defaultLanes : List Nat := [2, 4, 8, 16]

/-- The default of `TONES`, Hz (43_ctcss.md R231; the spec marks the list as general knowledge). -/
def defaultTones : List Rat :=
  [67, 69.3, 71.9, 74.4, 77, 79.7, 82.5, 85.4, 88.5, 91.5,
   94.8, 97.4, 100, 103.5, 107.2, 110.9, 114.8, 118.8, 123, 127.3,
   131.8, 136.5, 141.3, 146.2, 151.4, 156.7, 159.8, 162.2, 165.5, 167.9,
   171.3, 173.8, 177.3, 179.9, 183.5, 186.2, 189.9, 192.8, 196.6, 199.5,
   203.5, 206.5, 210.7, 218.1, 225.7, 229.1, 233.6, 241.8, 250.3, 254.1]

/-! ### OPEN parameters -/

opaque nchan : ℕ+
opaque channelBw : Nat → ℕ+
opaque channelId : Nat → Word
opaque lanes : List Nat
opaque passRipple : Rat
opaque stopRipple : Rat
opaque gridDensity : Nat
opaque oddLength : Bool
opaque equiripple : FilterSpec → Option (List F)
opaque fallback : FallbackSpec → Option (List F)
opaque decimTaps : Nat → Nat → Nat → Taps
opaque toneLpfTaps : Nat → Nat → Taps
opaque resampTaps : Nat → Nat → Taps
opaque openDebounce : ℕ+
opaque closeDebounce : ℕ+
opaque autoOffset : F
opaque track : Option F → F → F
opaque tones : List Rat
opaque goertzelCoeff : Rat → Nat → Nat → F
opaque toneFloor : F
opaque thresholdReset : F
opaque hystOpenReset : F
opaque hystCloseReset : F
opaque gainReset : F
opaque dbOpen : F → F
opaque nanBits : FOp → F → F → F
opaque pick : Nat → Nat

/-- The configuration the machine runs with: `State.reset` and `exec` read this record. -/
def cfg : Cfg where
  nchan := nchan
  channelBw := channelBw
  channelId := channelId
  lanes := lanes
  passRipple := passRipple
  stopRipple := stopRipple
  gridDensity := gridDensity
  oddLength := oddLength
  equiripple := equiripple
  fallback := fallback
  decimTaps := decimTaps
  toneLpfTaps := toneLpfTaps
  resampTaps := resampTaps
  openDebounce := openDebounce
  closeDebounce := closeDebounce
  autoOffset := autoOffset
  track := track
  tones := tones
  goertzelCoeff := goertzelCoeff
  toneMult := toneMult
  toneFloor := toneFloor
  matchCount := matchCount
  lossCount := lossCount
  rebroadcastMs := rebroadcastMs
  thresholdReset := thresholdReset
  hystOpenReset := hystOpenReset
  hystCloseReset := hystCloseReset
  gainReset := gainReset
  dbOpen := dbOpen
  nanBits := nanBits
  pick := pick

end Config

/-- The tone list the decoder runs over: at most 65535 tones, so that an id has 16 bits (R6, R38). -/
def Cfg.toneList (c : Cfg) : List Rat := c.tones.take 65535

/-- `NT`, the number of tones. -/
def Cfg.nt (c : Cfg) : Nat := c.toneList.length

end Sys2Proof
end

