-- ==== Sys2Proof/Machine/Binary32.lean ====
section
/-! DEFINITION. The floating-point operations of 00_scope.md R10 on binary32 patterns.

Every finite binary32 value is a whole number of units of 2^-149, so each operation is computed exactly on natural
numbers of units and rounded once, to nearest, ties to even. What R10 leaves to IEEE 754 (the special cases of each
operation) is marked PRESUMED in log entry 10; the pattern of a NaN result is free (log entry 6). -/

namespace Sys2Proof.Machine

/-! ### The parts of a pattern -/

/-- The sign bit. -/
def fNeg (a : F) : Bool := a.getLsbD 31

/-- The pattern without its sign, as a number: it orders magnitudes, infinity included. -/
def fMag (a : F) : Nat := a.toNat % 2 ^ 31

/-- The magnitude of both infinities. -/
def infMag : Nat := 255 * 2 ^ 23

def isNaN (a : F) : Bool := infMag < fMag a
def isInf (a : F) : Bool := fMag a == infMag
def isZero (a : F) : Bool := fMag a == 0

/-- A pattern from its sign and the rest. -/
def mkF (neg : Bool) (mag : Nat) : F := BitVec.ofNat 32 (mag + if neg then 2 ^ 31 else 0)

/-- A signed zero. -/
def zeroF (neg : Bool) : F := mkF neg 0

/-- A signed infinity. -/
def infF (neg : Bool) : F := mkF neg infMag

/-- The magnitude of a finite value in units of 2^-149: fraction with its hidden bit, shifted by the exponent. -/
def units (a : F) : Nat :=
  let e := fMag a / 2 ^ 23
  let f := fMag a % 2 ^ 23
  if e = 0 then f else (f + 2 ^ 23) <<< (e - 1)

/-! ### Rounding -/

/-- The magnitude pattern nearest to `n / d` units, ties to even; infinity from half an ulp above the largest finite
value on. `d` is positive. -/
def roundMag (n d : Nat) : Nat :=
  let e := (n / d).log2 - 23
  let step := d <<< e
  let m := n / step
  let r := n % step
  let m' := if step < 2 * r || (2 * r == step && m % 2 == 1) then m + 1 else m
  min (e * 2 ^ 23 + m') infMag

/-- The value nearest to `n / d` units with a sign. -/
def roundF (neg : Bool) (n d : Nat) : F := mkF neg (roundMag n d)

/-- A NaN produced by an operation: any NaN pattern, the same for the same operands (log entry 6). -/
def nanF (c : Cfg) (op : FOp) (a b : F) : F :=
  if isNaN (c.nanBits op a b) then c.nanBits op a b else 0x7FC00000#32

/-! ### The operations -/

/-- The sum of two values that are not NaN; `onNan` is the result of adding opposite infinities. -/
def addCore (a b onNan : F) : F :=
  if isInf a then (if isInf b && fNeg a != fNeg b then onNan else a)
  else if isInf b then b
  else if fNeg a = fNeg b then roundF (fNeg a) (units a + units b) 1
  else if units b < units a then roundF (fNeg a) (units a - units b) 1
  else if units a < units b then roundF (fNeg b) (units b - units a) 1
  else zeroF false

/-- The value with its sign flipped. -/
def negF (a : F) : F := a ^^^ 0x80000000#32

/-- `fadd(a, b)`. -/
def fadd (c : Cfg) (a b : F) : F :=
  if isNaN a || isNaN b then nanF c .add a b else addCore a b (nanF c .add a b)

/-- `fsub(a, b)`. -/
def fsub (c : Cfg) (a b : F) : F :=
  if isNaN a || isNaN b then nanF c .sub a b else addCore a (negF b) (nanF c .sub a b)

/-- `fmul(a, b)`. -/
def fmul (c : Cfg) (a b : F) : F :=
  let neg := fNeg a != fNeg b
  if isNaN a || isNaN b then nanF c .mul a b
  else if isInf a || isInf b then (if isZero a || isZero b then nanF c .mul a b else infF neg)
  else roundF neg (units a * units b) (2 ^ 149)

/-- `fdiv(a, b)`. -/
def fdiv (c : Cfg) (a b : F) : F :=
  let neg := fNeg a != fNeg b
  if isNaN a || isNaN b then nanF c .div a b
  else if isInf a then (if isInf b then nanF c .div a b else infF neg)
  else if isInf b then zeroF neg
  else if isZero b then (if isZero a then nanF c .div a b else infF neg)
  else roundF neg (units a * 2 ^ 149) (units b)

/-- The integer square root, bit by bit from bit `k - 1` down, `r` being what is found so far. -/
def isqrtFrom : Nat → Nat → Nat → Nat
  | 0, _, r => r
  | k + 1, n, r => isqrtFrom k n (if (r + 2 ^ k) * (r + 2 ^ k) ≤ n then r + 2 ^ k else r)

/-- The largest `r` with `r * r ≤ n`, for `n` below 2^448. -/
def isqrt (n : Nat) : Nat := isqrtFrom 224 n 0

/-- `fsqrt(a)`: the root of `u` units is the root of `u * 2^149`, in units; one more bit says whether it is exact. -/
def fsqrt (c : Cfg) (a : F) : F :=
  if isNaN a then nanF c .sqrt a a
  else if isZero a then a
  else if fNeg a then nanF c .sqrt a a
  else if isInf a then a
  else
    let n := units a * 2 ^ 149
    let r := isqrt n
    roundF false (2 * r + if r * r = n then 0 else 1) 2

/-- The order key of a value that is not NaN; both zeros have key 0. -/
def orderKey (a : F) : Int := if fNeg a then -(fMag a : Int) else fMag a

/-- `fgt(a, b)`, false when either is NaN. -/
def fgt (a b : F) : Bool := !isNaN a && !isNaN b && decide (orderKey b < orderKey a)

/-- `flt(a, b)`, false when either is NaN. -/
def flt (a b : F) : Bool := fgt b a

/-- `ofNat(n)`. -/
def ofNatF (n : Nat) : F := roundF false (n * 2 ^ 149) 1

/-- `db(p)` (R10): the three laws, and the OPEN function everywhere else (log entry 7). -/
def db (c : Cfg) (p : F) : F :=
  if isZero p then infF true
  else if isNaN p || fNeg p then nanF c .db p p
  else match (List.range 8).find? (fun k => p == ofNatF (10 ^ k)) with
    | some k => ofNatF (10 * k)
    | none => c.dbOpen p

end Sys2Proof.Machine
end

