-- ==== Sys2Proof/Syntax.lean ====
section
/-! DEFINITION. The instructions: one constructor per row of spec/opcode_table.json (30_encoding.md R93, R97).

The first eighteen are the commands of R93 with the operands of R94. The last five are the table's message
rows (R98 to R102): what their constructors hold is the header's fields, because on the command port only the
header of such a word is consumed (R96 item 3). -/

namespace Sys2Proof

inductive Instr where
  /-- SAMPLE_RATE: `RATE` in Hz (R130). -/
  | sampleRate (tag : Byte) (rate : Word)
  /-- IQ_BLOCK: timestamp `TS`, then the whole I array, then the whole Q array; `LEN` is their length (R270). -/
  | iqBlock (tag : Byte) (ts : Word) (i q : List F)
  /-- RESET (R322). -/
  | reset (tag : Byte)
  /-- GET_STATUS (R136). -/
  | getStatus (tag : Byte)
  /-- GET_THRESHOLD (R200). -/
  | getThreshold (tag : Byte)
  /-- SET_THRESHOLD: `VALUE` in dB (R201). -/
  | setThreshold (tag : Byte) (value : F)
  /-- GET_AUTOTRACK (R202). -/
  | getAutotrack (tag : Byte)
  /-- SET_AUTOTRACK: bit `b` (R203). -/
  | setAutotrack (tag : Byte) (b : Bool)
  /-- GET_HYST_OPEN (R204). -/
  | getHystOpen (tag : Byte)
  /-- SET_HYST_OPEN (R205). -/
  | setHystOpen (tag : Byte) (value : F)
  /-- GET_HYST_CLOSE (R206). -/
  | getHystClose (tag : Byte)
  /-- SET_HYST_CLOSE (R207). -/
  | setHystClose (tag : Byte) (value : F)
  /-- SET_OVERRIDE: bit `b` (R208). -/
  | setOverride (tag : Byte) (b : Bool)
  /-- GET_GAIN (R209). -/
  | getGain (tag : Byte)
  /-- SET_GAIN (R210). -/
  | setGain (tag : Byte) (value : F)
  /-- CAL_WRITE: selection `code` (R133). -/
  | calWrite (tag : Byte) (code : Byte)
  /-- CAL_READ (R134). -/
  | calRead (tag : Byte)
  /-- IMPL_REQUEST: selection `code` (R135). -/
  | implRequest (tag : Byte) (code : Byte)
  /-- A REPLY header on the command port: fields `TAG`, `ST`, `ROP` of R98. -/
  | reply (tag st rop : Byte)
  /-- A LIFECYCLE header on the command port: fields `AGC_RESET`, `EV` of R99. -/
  | lifecycle (agc : Bool) (ev : BitVec 2)
  /-- An AUDIO header on the command port: field `LEN` of R100. -/
  | audio (len : BitVec 16)
  /-- A TONE header on the command port: fields `REPEAT`, `LOST`, `ID` of R101. -/
  | tone (rep lost : Bool) (id : BitVec 16)
  /-- A FAULT header on the command port: fields `TAG`, `CODE` of R102. -/
  | fault (tag : Byte) (code : BitVec 16)
deriving DecidableEq, Repr

end Sys2Proof
end

