-- ==== Sys2Proof/WellFormed.lean ====
section
/-! DEFINITION. Which instruction terms stand for words of the command port.

Every field but the sample lists of IQ_BLOCK has exactly the values its encoding has (its type is its width).
An IQ_BLOCK has one `LEN` for both arrays, and `LEN` has 16 bits (30_encoding.md R91, R94). -/

namespace Sys2Proof

/-- The two arrays of an IQ_BLOCK have the same length (R94: `LEN` samples each). -/
abbrev Instr.SameLength (i q : List F) : Prop := i.length = q.length

/-- The length fits the 16-bit `LEN` field (R94: 0..65535). -/
abbrev Instr.LenFits (i : List F) : Prop := i.length < 2 ^ 16

/-- The instruction is one that some words of the command port encode. -/
def Instr.wellFormed : Instr → Bool
  | .iqBlock _ _ i q => decide (Instr.SameLength i q) && decide (Instr.LenFits i)
  | .sampleRate _ _ | .reset _ | .getStatus _ | .getThreshold _ | .setThreshold _ _ | .getAutotrack _
  | .setAutotrack _ _ | .getHystOpen _ | .setHystOpen _ _ | .getHystClose _ | .setHystClose _ _
  | .setOverride _ _ | .getGain _ | .setGain _ _ | .calWrite _ _ | .calRead _ | .implRequest _ _
  | .reply _ _ _ | .lifecycle _ _ | .audio _ | .tone _ _ _ | .fault _ _ => true

/-- `Instr.wellFormed` as a proposition. -/
abbrev Instr.WellFormed (i : Instr) : Prop := i.wellFormed = true

end Sys2Proof
end

