-- ==== Sys2Proof/Decode.lean ====
section
/-! DEFINITION. Decoding the word stream of a command port (30_encoding.md R91 to R96), and the encoder.

Decoding is total and rejects by name: the stream is empty, a command's payload is not all there yet, or the
header matches no row. The rows are those of spec/opcode_table.json, message rows included: on the command port a
message header has its own constructor and no payload, since only the header is consumed (R96; log entry 1). -/

namespace Sys2Proof

/-- The rows of R93 and R97. -/
inductive Opcode where
  | sampleRate | iqBlock | reset | getStatus
  | getThreshold | setThreshold | getAutotrack | setAutotrack | getHystOpen | setHystOpen
  | getHystClose | setHystClose | setOverride | getGain | setGain
  | calWrite | calRead | implRequest
  | reply | lifecycle | audio | tone | fault
deriving DecidableEq, Repr

/-- The column `OPC` of R93, and `MSG` of R97. -/
def Opcode.code : Opcode → Byte
  | .sampleRate => 0x01#8
  | .iqBlock => 0x02#8
  | .reset => 0x03#8
  | .getStatus => 0x04#8
  | .getThreshold => 0x10#8
  | .setThreshold => 0x11#8
  | .getAutotrack => 0x12#8
  | .setAutotrack => 0x13#8
  | .getHystOpen => 0x14#8
  | .setHystOpen => 0x15#8
  | .getHystClose => 0x16#8
  | .setHystClose => 0x17#8
  | .setOverride => 0x19#8
  | .getGain => 0x1A#8
  | .setGain => 0x1B#8
  | .calWrite => 0x20#8
  | .calRead => 0x21#8
  | .implRequest => 0x22#8
  | .reply => 0x81#8
  | .lifecycle => 0x82#8
  | .audio => 0x83#8
  | .tone => 0x84#8
  | .fault => 0x8F#8

/-- The column `match` of R93 and R97. -/
def Opcode.pattern : Opcode → Word
  | .sampleRate => 0x01000000#32
  | .iqBlock => 0x02000000#32
  | .reset => 0x03000000#32
  | .getStatus => 0x04000000#32
  | .getThreshold => 0x10000000#32
  | .setThreshold => 0x11000000#32
  | .getAutotrack => 0x12000000#32
  | .setAutotrack => 0x13000000#32
  | .getHystOpen => 0x14000000#32
  | .setHystOpen => 0x15000000#32
  | .getHystClose => 0x16000000#32
  | .setHystClose => 0x17000000#32
  | .setOverride => 0x19000000#32
  | .getGain => 0x1A000000#32
  | .setGain => 0x1B000000#32
  | .calWrite => 0x20000000#32
  | .calRead => 0x21000000#32
  | .implRequest => 0x22000000#32
  | .reply => 0x81000000#32
  | .lifecycle => 0x82000000#32
  | .audio => 0x83000000#32
  | .tone => 0x84000000#32
  | .fault => 0x8F000000#32

/-- The column `mask` of R93 and R97. -/
def Opcode.mask : Opcode → Word
  | .iqBlock | .reply | .fault => 0xFF000000#32
  | .setAutotrack | .setOverride => 0xFF00FFFE#32
  | .calWrite | .implRequest => 0xFF00FF00#32
  | .lifecycle => 0xFFF8FFFF#32
  | .audio => 0xFFFF0000#32
  | .tone => 0xFFFC0000#32
  | .sampleRate | .reset | .getStatus | .getThreshold | .setThreshold | .getAutotrack | .getHystOpen
  | .setHystOpen | .getHystClose | .setHystClose | .getGain | .setGain | .calRead => 0xFF00FFFF#32

/-- Every row, in the table's order. -/
def Opcode.all : List Opcode :=
  [.sampleRate, .iqBlock, .reset, .getStatus, .getThreshold, .setThreshold, .getAutotrack, .setAutotrack,
   .getHystOpen, .setHystOpen, .getHystClose, .setHystClose, .setOverride, .getGain, .setGain, .calWrite,
   .calRead, .implRequest, .reply, .lifecycle, .audio, .tone, .fault]

/-- `w AND mask = match` for the row (R93). -/
def Opcode.matchesWord (o : Opcode) (w : Word) : Bool := w &&& o.mask == o.pattern

/-- The row a header word selects, if any (R93; no word satisfies two rows). -/
def opcodeOf (w : Word) : Option Opcode := Opcode.all.find? (fun o => o.matchesWord w)

/-! ### Header fields (R91, R94) -/

/-- `TAG`, bits 23:16. -/
def tagOf (w : Word) : Byte := w.extractLsb' 16 8

/-- `ARG`, bits 15:0; the `LEN` of IQ_BLOCK and AUDIO, the `ID` of TONE, the `CODE` of FAULT. -/
def argOf (w : Word) : BitVec 16 := w.extractLsb' 0 16

/-- The selection code of CAL_WRITE and IMPL_REQUEST, bits 7:0; the `ROP` of REPLY. -/
def codeOf (w : Word) : Byte := w.extractLsb' 0 8

/-- The value bit of SET_AUTOTRACK and SET_OVERRIDE, bit 0. -/
def bitOf (w : Word) : Bool := w.getLsbD 0

/-- The number of payload words a header is followed by on the command port (R92, R96). -/
def payloadWords (o : Opcode) (w : Word) : Nat :=
  match o with
  | .iqBlock => 2 * (argOf w).toNat + 1
  | .sampleRate | .setThreshold | .setHystOpen | .setHystClose | .setGain => 1
  | .reset | .getStatus | .getThreshold | .getAutotrack | .setAutotrack | .getHystOpen | .getHystClose
  | .setOverride | .getGain | .calWrite | .calRead | .implRequest
  | .reply | .lifecycle | .audio | .tone | .fault => 0

/-- Payload word `k` (R94). -/
def payloadWord (p : List Word) (k : Nat) : Word := p.getD k 0#32

/-- The command term a header and its payload stand for (R94). -/
def assemble (o : Opcode) (w : Word) (p : List Word) : Instr :=
  match o with
  | .sampleRate => .sampleRate (tagOf w) (payloadWord p 0)
  | .iqBlock => .iqBlock (tagOf w) (payloadWord p 0) ((p.drop 1).take (argOf w).toNat)
      ((p.drop (1 + (argOf w).toNat)).take (argOf w).toNat)
  | .reset => .reset (tagOf w)
  | .getStatus => .getStatus (tagOf w)
  | .getThreshold => .getThreshold (tagOf w)
  | .setThreshold => .setThreshold (tagOf w) (payloadWord p 0)
  | .getAutotrack => .getAutotrack (tagOf w)
  | .setAutotrack => .setAutotrack (tagOf w) (bitOf w)
  | .getHystOpen => .getHystOpen (tagOf w)
  | .setHystOpen => .setHystOpen (tagOf w) (payloadWord p 0)
  | .getHystClose => .getHystClose (tagOf w)
  | .setHystClose => .setHystClose (tagOf w) (payloadWord p 0)
  | .setOverride => .setOverride (tagOf w) (bitOf w)
  | .getGain => .getGain (tagOf w)
  | .setGain => .setGain (tagOf w) (payloadWord p 0)
  | .calWrite => .calWrite (tagOf w) (codeOf w)
  | .calRead => .calRead (tagOf w)
  | .implRequest => .implRequest (tagOf w) (codeOf w)
  | .reply => .reply (tagOf w) (w.extractLsb' 8 8) (codeOf w)
  | .lifecycle => .lifecycle (w.getLsbD 18) (w.extractLsb' 16 2)
  | .audio => .audio (argOf w)
  | .tone => .tone (w.getLsbD 17) (w.getLsbD 16) (argOf w)
  | .fault => .fault (tagOf w) (argOf w)

/-- What the front of a command port's word stream holds (R95). -/
inductive Decoded where
  /-- The stream is empty: no step. -/
  | empty
  /-- A header whose payload is not all there: the channel waits for `missing` more words (20_memory.md R75). -/
  | incomplete (o : Opcode) (missing : Nat)
  /-- A whole command, and the rest of the stream. -/
  | instr (i : Instr) (rest : List Word)
  /-- `ILLEGAL(w)`: a header that matches no row (R96 class 1); only the header is consumed. -/
  | illegal (w : Word) (rest : List Word)
deriving DecidableEq, Repr

/-- `Decode` of R95. -/
def decode : List Word → Decoded
  | [] => .empty
  | w :: rest =>
    match opcodeOf w with
    | none => .illegal w rest
    | some o =>
      if rest.length < payloadWords o w then .incomplete o (payloadWords o w - rest.length)
      else .instr (assemble o w (rest.take (payloadWords o w))) (rest.drop (payloadWords o w))

/-! ### The encoder (R91, R93, R94, R98 to R102) -/

/-- A command header `OPC ++ TAG ++ ARG` (R91). -/
def commandHeader (o : Opcode) (tag : Byte) (arg : BitVec 16) : Word := o.code ++ tag ++ arg

/-- A header of the shape of R98. -/
def replyHeader (tag st rop : Byte) : Word := Opcode.reply.code ++ tag ++ st ++ rop

/-- A header of the shape of R99. -/
def lifecycleHeader (agc : Bool) (ev : BitVec 2) : Word :=
  Opcode.lifecycle.code ++ 0#5 ++ BitVec.ofBool agc ++ ev ++ 0#16

/-- A header of the shape of R100. -/
def audioHeader (len : BitVec 16) : Word := Opcode.audio.code ++ 0#8 ++ len

/-- A header of the shape of R101. -/
def toneHeader (rep lost : Bool) (id : BitVec 16) : Word :=
  Opcode.tone.code ++ 0#6 ++ BitVec.ofBool rep ++ BitVec.ofBool lost ++ id

/-- A header of the shape of R102. -/
def faultHeader (tag : Byte) (code : BitVec 16) : Word := Opcode.fault.code ++ tag ++ code

/-- The words of a well-formed instruction, in the order they travel. -/
def encode : Instr → List Word
  | .sampleRate tag rate => [commandHeader .sampleRate tag 0#16, rate]
  | .iqBlock tag ts i q => commandHeader .iqBlock tag (BitVec.ofNat 16 i.length) :: ts :: (i ++ q)
  | .reset tag => [commandHeader .reset tag 0#16]
  | .getStatus tag => [commandHeader .getStatus tag 0#16]
  | .getThreshold tag => [commandHeader .getThreshold tag 0#16]
  | .setThreshold tag v => [commandHeader .setThreshold tag 0#16, v]
  | .getAutotrack tag => [commandHeader .getAutotrack tag 0#16]
  | .setAutotrack tag b => [commandHeader .setAutotrack tag (0#15 ++ BitVec.ofBool b)]
  | .getHystOpen tag => [commandHeader .getHystOpen tag 0#16]
  | .setHystOpen tag v => [commandHeader .setHystOpen tag 0#16, v]
  | .getHystClose tag => [commandHeader .getHystClose tag 0#16]
  | .setHystClose tag v => [commandHeader .setHystClose tag 0#16, v]
  | .setOverride tag b => [commandHeader .setOverride tag (0#15 ++ BitVec.ofBool b)]
  | .getGain tag => [commandHeader .getGain tag 0#16]
  | .setGain tag v => [commandHeader .setGain tag 0#16, v]
  | .calWrite tag code => [commandHeader .calWrite tag (0#8 ++ code)]
  | .calRead tag => [commandHeader .calRead tag 0#16]
  | .implRequest tag code => [commandHeader .implRequest tag (0#8 ++ code)]
  | .reply tag st rop => [replyHeader tag st rop]
  | .lifecycle agc ev => [lifecycleHeader agc ev]
  | .audio len => [audioHeader len]
  | .tone rep lost id => [toneHeader rep lost id]
  | .fault tag code => [faultHeader tag code]

/-- The row of an instruction. -/
def rowOf : Instr → Opcode
  | .sampleRate _ _ => .sampleRate
  | .iqBlock _ _ _ _ => .iqBlock
  | .reset _ => .reset
  | .getStatus _ => .getStatus
  | .getThreshold _ => .getThreshold
  | .setThreshold _ _ => .setThreshold
  | .getAutotrack _ => .getAutotrack
  | .setAutotrack _ _ => .setAutotrack
  | .getHystOpen _ => .getHystOpen
  | .setHystOpen _ _ => .setHystOpen
  | .getHystClose _ => .getHystClose
  | .setHystClose _ _ => .setHystClose
  | .setOverride _ _ => .setOverride
  | .getGain _ => .getGain
  | .setGain _ _ => .setGain
  | .calWrite _ _ => .calWrite
  | .calRead _ => .calRead
  | .implRequest _ _ => .implRequest
  | .reply _ _ _ => .reply
  | .lifecycle _ _ => .lifecycle
  | .audio _ => .audio
  | .tone _ _ _ => .tone
  | .fault _ _ => .fault

/-! ### An instruction given as one number -/

/-- 32-bit word `k` of the number `w`, word 0 the least significant. -/
def wordOfNat (w k : Nat) : Word := BitVec.ofNat 32 (w >>> (32 * k))

/-- The words of the instruction whose first `nbits` bits are `w` (bit 0 the least significant bit of the header),
every further bit 0: the header and as many words as it says follow it. -/
def tableWords (nbits w : Nat) : List Word :=
  let v := w % 2 ^ nbits
  let header := wordOfNat v 0
  let n := match opcodeOf header with
    | some o => payloadWords o header
    | none => 0
  header :: (List.range n).map (fun k => wordOfNat v (k + 1))

/-- The instruction `decode` reads from the words of `tableWords`. -/
def decodeTableWord (nbits w : Nat) : Option Instr :=
  match decode (tableWords nbits w) with
  | .instr i _ => some i
  | .illegal _ _ | .incomplete _ _ | .empty => none

end Sys2Proof
end

