-- ==== Sys2Proof/Machine/State.lean ====
section
/-! DEFINITION. The state of the system (10_state.md), as plain data, and its value after hardware reset (R46).

A channel's registers are grouped as the rules group them: the control registers of R32, the active configuration of
R34, and one record per unit for the working state of R35 to R39. -/

namespace Sys2Proof.Machine

/-- The mute flag (R37). -/
inductive SqState where
  | muted | unmuted
deriving DecidableEq, Repr, Inhabited

/-- The lifecycle state (R40). -/
inductive LcState where
  | idle | call
deriving DecidableEq, Repr, Inhabited

/-- The host-visible control registers of one channel (R32). -/
structure Regs where
  threshold : F
  hystOpen : F
  hystClose : F
  autoTrack : Bool
  override : Bool
  gain : F
  implReq : Byte
deriving DecidableEq, Repr, Inhabited

/-- The active configuration of one channel (R34), written as a whole by a successful SAMPLE_RATE and by nothing
else. -/
structure ActiveConfig where
  configured : Bool
  fsIn : Word
  decimD : Nat
  implActive : Byte
  sqRate : Word × Nat
  chTaps : List F
  decTaps : List F
  toneTaps : List F
  rsTaps : List F
  rsL : Nat
  rsM : Nat
  coeff : List F
  toneWin : Nat
deriving DecidableEq, Repr, Inhabited

/-- The decimators of both branches: delay lines, newest sample first, and carried remainders (R35). -/
structure Decimators where
  iDl : List F
  qDl : List F
  iR : Nat
  qR : Nat
deriving DecidableEq, Repr, Inhabited

/-- The channel filters of both branches (R36). -/
structure ChannelFilters where
  iDl : List F
  qDl : List F
deriving DecidableEq, Repr, Inhabited

/-- The squelch controller (R37). -/
structure Squelch where
  state : SqState
  changed : Bool
  openCnt : Nat
  closeCnt : Nat
  nf : Option F
deriving DecidableEq, Repr, Inhabited

/-- The tone decoder (R38). A tone id is an index into `TONES`. -/
structure ToneDecoder where
  dl : List F
  q1 : List F
  q2 : List F
  n : Nat
  cur : Option Nat
  pend : Option Nat
  matchCnt : Nat
  lossCnt : Nat
  lastTx : Word
deriving DecidableEq, Repr, Inhabited

/-- The resampler (R39). -/
structure Resampler where
  dl : List F
  acc : Nat
deriving DecidableEq, Repr, Inhabited

/-- One channel instance (R30). Both ports hold words, oldest first (30_encoding.md R90). -/
structure Channel where
  cmdPort : List Word
  msgPort : List Word
  regs : Regs
  config : ActiveConfig
  dec : Decimators
  fir : ChannelFilters
  squelch : Squelch
  tone : ToneDecoder
  resampler : Resampler
  lc : LcState
  fstat : Byte
deriving DecidableEq, Repr, Inhabited

/-- The system (R30): the shared register `CAL_SEL` and the channels. `left`, `active` and `right` are the channels
before, at and after the one whose turn it is, so that a command acts on `active` and on nothing of another channel.
`tick` counts the scheduling choices made; it and the position of `active` are the model's own (log entry 4). -/
structure State where
  calSel : Byte
  left : List Channel
  active : Channel
  right : List Channel
  tick : Nat
deriving DecidableEq, Repr, Inhabited

/-- Why a step does not happen. Neither is a fault of the spec (those are next states, 60_exceptions.md R291): they
are the two ways no channel has an enabled step. -/
inductive Fault where
  /-- Raised by `fetch` when every command port is empty: nothing is left to execute until the host sends a word
  (30_encoding.md R95 "on an empty stream it returns none (no step)"; 60_exceptions.md R311). Safe: the hardware does
  nothing here either. -/
  | idle
  /-- Raised by `fetch` when no channel has a whole command and some channel has part of one: that channel waits for
  the missing words (20_memory.md R75, "stuck", not a fault). Safe: the hardware does nothing here either. -/
  | awaitingWords
deriving DecidableEq, Repr

/-- Why an instruction has no meaning in the model. -/
inductive Refusal where
  /-- Raised by an arm of `exec` for an instruction that is not modelled; no arm does. Safe: nothing follows from it. -/
  | notModelled (mnemonic : String)
deriving DecidableEq, Repr

/-! ### Accessors -/

/-- All channels, in the order of their numbers (60_exceptions.md R309). -/
def State.channels (s : State) : List Channel := s.left ++ s.active :: s.right

/-- The number of the channel whose turn it is. -/
def State.activeNum (s : State) : Nat := s.left.length

/-! ### Hardware reset (R46, 70_reset_and_hazards.md R320) -/

/-- The control registers after hardware reset. -/
def Regs.reset (c : Cfg) : Regs where
  threshold := c.thresholdReset
  hystOpen := c.hystOpenReset
  hystClose := c.hystCloseReset
  autoTrack := false
  override := false
  gain := c.gainReset
  implReq := 0#8

/-- The configuration after hardware reset. R46 leaves all but `configured` and the empty memories unspecified; the
values here are the least of each element's legal values (R34). DESIGN CHOICE, unsafe: log entry 8. -/
def ActiveConfig.reset (c : Cfg) : ActiveConfig where
  configured := false
  fsIn := 0#32
  decimD := 1
  implActive := 1#8
  sqRate := (0#32, 1)
  chTaps := []
  decTaps := []
  toneTaps := []
  rsTaps := []
  rsL := 1
  rsM := 1
  coeff := List.replicate c.nt 0#32
  toneWin := 1

/-- The squelch after hardware reset and after RESET (R37). -/
def Squelch.reset : Squelch where
  state := .muted
  changed := false
  openCnt := 0
  closeCnt := 0
  nf := none

/-- A channel after hardware reset (R46). -/
def Channel.reset (c : Cfg) : Channel where
  cmdPort := []
  msgPort := []
  regs := Regs.reset c
  config := ActiveConfig.reset c
  dec := { iDl := [], qDl := [], iR := 0, qR := 0 }
  fir := { iDl := [], qDl := [] }
  squelch := Squelch.reset
  tone := { dl := [], q1 := List.replicate c.nt 0#32, q2 := List.replicate c.nt 0#32, n := 0, cur := none,
            pend := none, matchCnt := 0, lossCnt := 0, lastTx := 0#32 }
  resampler := { dl := [], acc := 0 }
  lc := .idle
  fstat := 0#8

/-- The system after hardware reset, for a configuration: `NCHAN` channels, the first turn a free choice. -/
def State.resetWith (c : Cfg) : State where
  calSel := 0#8
  left := List.replicate (c.pick 0 % c.nchan) (Channel.reset c)
  active := Channel.reset c
  right := List.replicate (c.nchan - 1 - c.pick 0 % c.nchan) (Channel.reset c)
  tick := 1

/-- The machine right after hardware reset. -/
def State.reset : State := State.resetWith Config.cfg

end Sys2Proof.Machine
end

