-- ==== Sys2Proof/Machine/Messages.lean ====
section
/-! DEFINITION. The messages of the message port: their content, their words, and the reading of a stream of them
(30_encoding.md R97 to R102). -/

namespace Sys2Proof.Machine

/-- The fault codes of 60_exceptions.md R290. -/
inductive FaultCode where
  | configRateInsufficient
  | configDesignFailed
  | precondLane
  | precondNotConfigured
  | illegalCommand
  | badArgument
deriving DecidableEq, Repr

/-- The column `code` of R290. -/
def FaultCode.number : FaultCode → Nat
  | .configRateInsufficient => 1
  | .configDesignFailed => 2
  | .precondLane => 3
  | .precondNotConfigured => 4
  | .illegalCommand => 5
  | .badArgument => 6

/-- The fault code with a number, if any. -/
def FaultCode.ofNumber : Nat → Option FaultCode
  | 1 => some .configRateInsufficient
  | 2 => some .configDesignFailed
  | 3 => some .precondLane
  | 4 => some .precondNotConfigured
  | 5 => some .illegalCommand
  | 6 => some .badArgument
  | _ => none

/-- The field `ST` of a REPLY (R98). -/
inductive ReplyStatus where
  | ok | lost
deriving DecidableEq, Repr

/-- The values of `ST`. -/
def ReplyStatus.bits : ReplyStatus → Byte
  | .ok => 0#8
  | .lost => 1#8

/-- The event of a LIFECYCLE (R99); `ending` is END. -/
inductive LcEvent where
  | idle | start | continuation | ending
deriving DecidableEq, Repr

/-- The values of `EV`. -/
def LcEvent.bits : LcEvent → BitVec 2
  | .idle => 0#2
  | .start => 1#2
  | .continuation => 2#2
  | .ending => 3#2

/-- The event with a value of `EV`. -/
def LcEvent.ofBits (b : BitVec 2) : LcEvent :=
  if b = 0#2 then .idle else if b = 1#2 then .start else if b = 2#2 then .continuation else .ending

/-- A message (R97). -/
inductive Message where
  /-- R98: the request's tag, the status, the request's opcode, the value. -/
  | reply (tag : Byte) (st : ReplyStatus) (rop : Byte) (value : Word)
  /-- R99. -/
  | lifecycle (ev : LcEvent) (agcReset : Bool) (channelId ts : Word)
  /-- R100: the timestamp and 1 to 65535 samples. -/
  | audio (ts : Word) (samples : List F)
  /-- R101: the tone's index, `LOST`, `REPEAT`, the timestamp. -/
  | tone (id : BitVec 16) (lost rep : Bool) (ts : Word)
  /-- R102: the faulting command's tag, the code, `INFO`. -/
  | fault (tag : Byte) (code : FaultCode) (info : Word)
deriving DecidableEq, Repr

/-- The words a message is sent as: its header, then its payload. -/
def Message.words : Message → List Word
  | .reply tag st rop value => [replyHeader tag st.bits rop, value]
  | .lifecycle ev agc ch ts => [lifecycleHeader agc ev.bits, ch, ts]
  | .audio ts samples => audioHeader (BitVec.ofNat 16 samples.length) :: ts :: samples
  | .tone id lost rep ts => [toneHeader rep lost id, ts]
  | .fault tag code info => [faultHeader tag (BitVec.ofNat 16 code.number), info]

/-- The words of a list of messages, in order. -/
def messageWords (ms : List Message) : List Word := ms.flatMap Message.words

/-- Cut a list into pieces of `n` and a last shorter one, none empty; `fuel` bounds the number of pieces. -/
def piecesOf : Nat → Nat → List F → List (List F)
  | 0, _, _ => []
  | fuel + 1, n, l => if l = [] then [] else l.take n :: piecesOf fuel n (l.drop n)

/-- The AUDIO messages of one block's samples (R100): pieces of at most 65535 samples, none for no sample. -/
def audioMessages (ts : Word) (y : List F) : List Message :=
  (piecesOf y.length Config.maxLen y).map (Message.audio ts)

/-- The first message of a message port and the rest of the stream, if a whole message is there (R97). -/
def parseMessage : List Word → Option (Message × List Word)
  | [] => none
  | w :: rest =>
    match opcodeOf w, rest with
    | some .reply, v :: rest' =>
      if w.extractLsb' 8 8 = 0#8 then some (.reply (tagOf w) .ok (codeOf w) v, rest')
      else if w.extractLsb' 8 8 = 1#8 then some (.reply (tagOf w) .lost (codeOf w) v, rest')
      else none
    | some .lifecycle, ch :: ts :: rest' =>
      some (.lifecycle (LcEvent.ofBits (w.extractLsb' 16 2)) (w.getLsbD 18) ch ts, rest')
    | some .audio, ts :: rest' =>
      if rest'.length < (argOf w).toNat then none
      else some (.audio ts (rest'.take (argOf w).toNat), rest'.drop (argOf w).toNat)
    | some .tone, ts :: rest' => some (.tone (argOf w) (w.getLsbD 16) (w.getLsbD 17) ts, rest')
    | some .fault, info :: rest' =>
      match FaultCode.ofNumber (argOf w).toNat with
      | some code => some (.fault (tagOf w) code info, rest')
      | none => none
    | _, _ => none

end Sys2Proof.Machine
end

