-- ==== Sys2Proof/Machine/Ops.lean ====
section
/-! DEFINITION. The operations every command is written over: the internal memories (20_memory.md R70 to R73), the
message port, taking a fault (60_exceptions.md R291), the turn of a channel, and what the host does to the ports.

There is no return from a fault (R295): the next command of the port simply runs. -/

namespace Sys2Proof.Machine

/-- The outcome of a command or of a step. -/
abbrev StepResult := Host.Outcome State Fault Refusal

/-! ### Internal memories -/

/-- `MemRead(M, i)` (R71): an index outside the memory never occurs; the model reads `+0.0` there. -/
def memRead (m : List F) (i : Nat) : F := m.getD i 0#32

/-- A memory of `n` words of `+0.0`. -/
def zeros (n : Nat) : List F := List.replicate n 0#32

/-- Every word of a memory to `+0.0`, its length unchanged. -/
def clearMem (m : List F) : List F := zeros m.length

/-- `Push(M, x)` (R72): the newest sample at index 0, every other one index up, the oldest dropped. -/
def push (m : List F) (x : F) : List F := (x :: m).take m.length

/-- `Dot(T, M)` (R73), from `+0.0`, in ascending index. -/
def dot (c : Cfg) (t m : List F) : F :=
  (t.zip m).foldl (fun acc p => fadd c acc (fmul c p.1 p.2)) 0#32

/-! ### Integers (00_scope.md R13) -/

/-- `ceildiv(a, b)`. -/
def ceildiv (a b : Nat) : Nat := (a + b - 1) / b

/-- `tsdiff(a, b)`, modulo 2^32. -/
def tsdiff (a b : Word) : Word := a - b

/-! ### Messages and faults -/

/-- `emit` (00_scope.md R9): append a message to the channel's message port. -/
def Channel.emit (ch : Channel) (m : Message) : Channel := { ch with msgPort := ch.msgPort ++ m.words }

/-- Emit messages in order. -/
def Channel.emitAll (ch : Channel) (ms : List Message) : Channel :=
  { ch with msgPort := ch.msgPort ++ messageWords ms }

/-- The sticky bit of a fault code (10_state.md R41). -/
def fstatBit (code : FaultCode) : Byte := 1#8 <<< (code.number - 1)

/-- `raise Fault(code, info)` (R291): set the sticky bit and emit the FAULT message; nothing else changes. -/
def Channel.takeFault (ch : Channel) (code : FaultCode) (tag : Byte) (info : Word) : Channel :=
  { ch with fstat := ch.fstat ||| fstatBit code }.emit (.fault tag code info)

/-- A command's effect on the acting channel alone. -/
def State.onActive (s : State) (f : Channel → Channel) : State := { s with active := f s.active }

/-- Answer a request with status OK (30_encoding.md R98). -/
def Channel.answer (ch : Channel) (o : Opcode) (tag : Byte) (value : Word) : Channel :=
  ch.emit (.reply tag .ok o.code value)

/-- `ILLEGAL(w)` (R96 class 1): take ILLEGAL_COMMAND with the header's tag field and the header as `INFO`. -/
def State.takeIllegal (s : State) (w : Word) : State :=
  s.onActive (fun ch => ch.takeFault .illegalCommand (tagOf w) w)

/-! ### Turns (20_memory.md R81; log entry 4) -/

/-- Give the turn to channel `j`; nothing changes when there is no such channel. -/
def State.focus (s : State) (j : Nat) : State :=
  match s.channels.drop j with
  | [] => s
  | ch :: after => { s with left := s.channels.take j, active := ch, right := after }

/-- Give the next turn to a channel that the free value of the tick names; one channel alone leaves no choice. -/
def State.reschedule (c : Cfg) (s : State) : State :=
  match s.left, s.right with
  | [], [] => s
  | _, _ => { s.focus (c.pick s.tick % s.channels.length) with tick := s.tick + 1 }

/-! ### What the host does to the ports (30_encoding.md R90, R76) -/

/-- Apply a function to the record of channel `j`. -/
def State.modifyChannel (s : State) (j : Nat) (f : Channel → Channel) : State :=
  { s with
    left := s.left.modify j f
    active := if j = s.left.length then f s.active else s.active
    right := if s.left.length < j then s.right.modify (j - s.left.length - 1) f else s.right }

/-- The host writes words to the command port of channel `j`. -/
def State.hostSend (s : State) (j : Nat) (ws : List Word) : State :=
  s.modifyChannel j (fun ch => { ch with cmdPort := ch.cmdPort ++ ws })

/-- The host takes the oldest message of channel `j`, if a whole one is there; taking it removes it. -/
def State.hostTake (s : State) (j : Nat) : Option (Message × State) :=
  match s.channels[j]? with
  | none => none
  | some ch =>
    match parseMessage ch.msgPort with
    | none => none
    | some (m, rest) => some (m, s.modifyChannel j (fun ch => { ch with msgPort := rest }))

end Sys2Proof.Machine
end

