-- ==== Sys2Proof/Machine/FilterDesign.lean ====
section
/-! DEFINITION. What a sample-rate change computes: the decimation factor, the filter specification and design, the
resampling ratio and the tone window (40_configuration.md R120 to R129). -/

namespace Sys2Proof.Machine

/-- The doubling loop of R125: `D` is doubled while `fs >= 4·bw·D`, at most `fuel` times. -/
def decimLoop : Nat → Nat → Nat → Nat → Nat
  | 0, _, _, d => d
  | fuel + 1, fs, bw, d => if 4 * bw * d ≤ fs then decimLoop fuel fs bw (2 * d) else d

/-- `DecimFactor(fs, bw)` (R125). For a 32-bit `fs` and a positive `bw` the loop ends within 32 turns (log entry 12). -/
def decimFactor (fs bw : Nat) : Nat := decimLoop 32 fs bw 1

/-- The configuration is feasible (R126). -/
def feasible (fs bw d : Nat) : Bool := decide (2 * bw * d ≤ fs)

/-- `ChannelSpec(fs, D)` (R127). -/
def channelSpec (c : Cfg) (bw fs d : Nat) : FilterSpec where
  rateNum := fs
  rateDen := d
  passCutoff := Config.passFrac * bw
  passRipple := c.passRipple
  stopStart := Config.stopFrac * bw
  stopRipple := c.stopRipple
  gridDensity := c.gridDensity
  oddLength := c.oddLength

/-- The specification the fallback is given (R121). -/
def fallbackSpec (spec : FilterSpec) : FallbackSpec where
  rateNum := spec.rateNum
  rateDen := spec.rateDen
  passCutoff := spec.passCutoff
  stopStart := spec.stopStart
  minAttenDb := Config.fallbackAttenDb

/-- A design path's answer; an empty tap list counts as a failure of that path (R121). -/
def usableTaps : Option (List F) → Option (List F)
  | some (t :: ts) => some (t :: ts)
  | some [] => none
  | none => none

/-- `Design(spec)` (R121): the equiripple design, else silently the fallback, else failure. -/
def design (c : Cfg) (spec : FilterSpec) : Option (List F) :=
  match usableTaps (c.equiripple spec) with
  | some taps => some taps
  | none => usableTaps (c.fallback (fallbackSpec spec))

/-- The common divisor of R128. -/
def resampGcd (fs d : Nat) : Nat := Nat.gcd (Config.audioRate * d) fs

/-- `RS_L` (R128). -/
def resampL (fs d : Nat) : Nat := Config.audioRate * d / resampGcd fs d

/-- `RS_M` (R128). -/
def resampM (fs d : Nat) : Nat := fs / resampGcd fs d

/-- `TONE_WIN` (R129). -/
def toneWindow (fs d : Nat) : Nat := Config.toneWinMs * fs / (1000 * d)

/-- `coeff[t]` for every tone (R129). -/
def toneCoeffs (c : Cfg) (fs d : Nat) : List F := c.toneList.map (fun f => c.goertzelCoeff f fs d)

/-- `DEC_TAPS` (R130): none for a pass-through. -/
def decimatorTaps (c : Cfg) (fs d bw : Nat) : List F := if d = 1 then [] else (c.decimTaps fs d bw).toList

end Sys2Proof.Machine
end

