-- ==== Sys2Proof/Machine/Flags.lean ====
section
/-! DEFINITION. The two flags (10_state.md R42) and the STATUS word (R33). -/

namespace Sys2Proof.Machine

/-- STATUS bit 1. -/
def Channel.mutedFlag (ch : Channel) : Bool := ch.squelch.state == .muted

/-- STATUS bit 3. -/
def Channel.callFlag (ch : Channel) : Bool := ch.lc == .call

/-- The field IMPL: 0 while unconfigured. -/
def Channel.implField (ch : Channel) : Byte := if ch.config.configured then ch.config.implActive else 0#8

/-- The field LOG2D: 0 while unconfigured. -/
def Channel.log2dField (ch : Channel) : BitVec 5 :=
  if ch.config.configured then BitVec.ofNat 5 ch.config.decimD.log2 else 0#5

/-- The STATUS word, from bit 31 down (R33). -/
def Channel.statusWord (ch : Channel) : Word :=
  0#3 ++ ch.log2dField ++ ch.implField ++ ch.fstat ++ 0#2
    ++ BitVec.ofBool ch.regs.override ++ BitVec.ofBool ch.regs.autoTrack ++ BitVec.ofBool ch.callFlag
    ++ BitVec.ofBool ch.squelch.changed ++ BitVec.ofBool ch.mutedFlag ++ BitVec.ofBool ch.config.configured

/-- The changed flag, cleared: "reset at block start" (R42). -/
def Squelch.clearChanged (q : Squelch) : Squelch := { q with changed := false }

end Sys2Proof.Machine
end

