-- ==== Sys2Proof/Machine/Operands.lean ====
section
/-! DEFINITION. What a command's operands are checked against: selection codes (40_configuration.md R123, R124, R133,
R135) and the lane precondition (41_datapath.md R167). -/

namespace Sys2Proof.Machine

/-- The code is a member of `LANES` (00_scope.md R6: each from 2 to 255). -/
def isLane (c : Cfg) (code : Byte) : Bool := decide (2 ≤ code.toNat) && c.lanes.contains code.toNat

/-- The codes CAL_WRITE accepts (R133). -/
def calCodeOk (c : Cfg) (code : Byte) : Bool := code == 1#8 || isLane c code

/-- The codes IMPL_REQUEST accepts (R135). -/
def implCodeOk (c : Cfg) (code : Byte) : Bool := code == 0#8 || code == 1#8 || isLane c code

/-- `Resolve(req, cal)` (R124). -/
def resolveImpl (req cal : Byte) : Byte := if req ≠ 0#8 then req else if cal ≠ 0#8 then cal else 1#8

/-- `LaneOk(k)` (R167). -/
def laneOk (impl : Byte) (k : Nat) : Bool := impl == 1#8 || k % impl.toNat == 0

/-- An 8-bit register as the `VALUE` or `INFO` word, zero-extended. -/
def byteWord (b : Byte) : Word := b.zeroExtend 32

/-- A bit as the `VALUE` word, zero-extended. -/
def bitWord (b : Bool) : Word := (BitVec.ofBool b).zeroExtend 32

end Sys2Proof.Machine
end

