-- ==== Sys2Proof/Machine/Configuration.lean ====
section
/-! DEFINITION. SAMPLE_RATE, GET_STATUS, CAL_WRITE, CAL_READ, IMPL_REQUEST (40_configuration.md R130 to R136). -/

namespace Sys2Proof.Machine

/-! ### SAMPLE_RATE (R130) -/

/-- The configuration a rate is committed as: `taps` the designed channel filter, `impl` the resolved variant. -/
def activeConfigFor (c : Cfg) (bw : Nat) (rate : Word) (d : Nat) (taps : List F) (impl : Byte) : ActiveConfig where
  configured := true
  fsIn := rate
  decimD := d
  implActive := impl
  sqRate := (rate, d)
  chTaps := taps
  decTaps := decimatorTaps c rate.toNat d bw
  toneTaps := (c.toneLpfTaps rate.toNat d).toList
  rsTaps := (c.resampTaps (resampL rate.toNat d) (resampM rate.toNat d)).toList
  rsL := resampL rate.toNat d
  rsM := resampM rate.toNat d
  coeff := toneCoeffs c rate.toNat d
  toneWin := toneWindow rate.toNat d

/-- "rebuilt filters start empty": the configuration installed, every delay line zeroed at its new length, every
remainder, accumulator and window fill at 0. The registers, the squelch, the tone debounce state, the lifecycle and
`FSTAT` are kept. -/
def Channel.rebuild (ch : Channel) (c : Cfg) (cf : ActiveConfig) : Channel :=
  { ch with
    config := cf
    dec := { iDl := zeros cf.decTaps.length, qDl := zeros cf.decTaps.length, iR := 0, qR := 0 }
    fir := { iDl := zeros cf.chTaps.length, qDl := zeros cf.chTaps.length }
    tone := { ch.tone with dl := zeros cf.toneTaps.length, q1 := zeros c.nt, q2 := zeros c.nt, n := 0 }
    resampler := { dl := zeros (ceildiv cf.rsTaps.length cf.rsL), acc := 0 } }

/-- SAMPLE_RATE on the channel numbered `num`, with `cal` the value of `CAL_SEL`. All tests precede all writes. -/
def sampleRate (c : Cfg) (num : Nat) (cal tag : Byte) (rate : Word) (ch : Channel) : Channel :=
  let bw : Nat := c.channelBw num
  let fs := rate.toNat
  let d := decimFactor fs bw
  if fs = 0 then ch.takeFault .badArgument tag 0#32
  else if !feasible fs bw d then ch.takeFault .configRateInsufficient tag rate
  else match design c (channelSpec c bw fs d) with
    | none => ch.takeFault .configDesignFailed tag rate
    | some taps => ch.rebuild c (activeConfigFor c bw rate d taps (resolveImpl ch.regs.implReq cal))

/-- SAMPLE_RATE (R130). -/
def execSampleRate (tag : Byte) (rate : Word) (s : State) : StepResult :=
  .next (s.onActive (sampleRate Config.cfg s.activeNum s.calSel tag rate))

/-! ### GET_STATUS (R136) -/

/-- GET_STATUS: the STATUS word; nothing is cleared by reading it. -/
def execGetStatus (tag : Byte) (s : State) : StepResult :=
  .next (s.onActive (fun ch => ch.answer .getStatus tag ch.statusWord))

/-! ### The implementation selection (R131 to R135) -/

/-- CAL_WRITE (R133): one atomic compare-and-set of the shared `CAL_SEL`. -/
def calWrite (c : Cfg) (tag code : Byte) (s : State) : State :=
  if !calCodeOk c code then s.onActive (fun ch => ch.takeFault .badArgument tag (byteWord code))
  else if s.calSel = 0#8 then
    { s with calSel := code }.onActive (fun ch => ch.answer .calWrite tag (byteWord code))
  else s.onActive (fun ch => ch.emit (.reply tag .lost (Opcode.code .calWrite) (byteWord s.calSel)))

/-- CAL_WRITE (R133). -/
def execCalWrite (tag code : Byte) (s : State) : StepResult := .next (calWrite Config.cfg tag code s)

/-- CAL_READ (R134). -/
def execCalRead (tag : Byte) (s : State) : StepResult :=
  .next (s.onActive (fun ch => ch.answer .calRead tag (byteWord s.calSel)))

/-- IMPL_REQUEST (R135): the running demodulator does not change until the next successful SAMPLE_RATE (R131). -/
def implRequest (c : Cfg) (tag code : Byte) (ch : Channel) : Channel :=
  if !implCodeOk c code then ch.takeFault .badArgument tag (byteWord code)
  else { ch with regs := { ch.regs with implReq := code } }.answer .implRequest tag (byteWord code)

/-- IMPL_REQUEST (R135). -/
def execImplRequest (tag code : Byte) (s : State) : StepResult :=
  .next (s.onActive (implRequest Config.cfg tag code))

end Sys2Proof.Machine
end

