-- ==== Sys2Proof/Machine/Datapath.lean ====
section
/-! DEFINITION. The decimation filter, the channel filter and the demodulator (41_datapath.md R160 to R168). Each
branch is a call of its own with its own state and the shared taps (R164). -/

namespace Sys2Proof.Machine

/-- The loop of `Decimate` (R161) over one branch: the samples it returns, the delay line and the remainder after. -/
def decimateLoop (c : Cfg) (d : Nat) (taps : List F) : List F → List F → Nat → List F × List F × Nat
  | [], dl, r => ([], dl, r)
  | x :: xs, dl, r =>
    let dl' := push dl x
    if r + 1 = d then
      let rest := decimateLoop c d taps xs dl' 0
      (dot c taps dl' :: rest.1, rest.2)
    else decimateLoop c d taps xs dl' (r + 1)

/-- `Decimate(b, x)` (R161) of a branch whose delay line is `dl` and remainder `r`; `D = 1` passes the samples through
and touches no state. -/
def decimate (c : Cfg) (d : Nat) (taps : List F) (x dl : List F) (r : Nat) : List F × List F × Nat :=
  if d = 1 then (x, dl, r) else decimateLoop c d taps x dl r

/-- `Fir(b, x)` (R163): the samples it returns and the delay line after. -/
def fir (c : Cfg) (taps : List F) : List F → List F → List F × List F
  | [], dl => ([], dl)
  | x :: xs, dl =>
    let dl' := push dl x
    let rest := fir c taps xs dl'
    (dot c taps dl' :: rest.1, rest.2)

/-- The squared magnitude of one sample pair: `i² + q²` (R165). -/
def magSquared (c : Cfg) (i q : F) : F := fadd c (fmul c i i) (fmul c q q)

/-- `Demod(fi, fq)` (R165), the same for every variant (R166). -/
def demod (c : Cfg) (gain : F) (fi fq : List F) : List F :=
  List.zipWith (fun i q => fmul c (fsqrt c (magSquared c i q)) gain) fi fq

/-- The length of the demodulator's input for a block of `len` samples (R162, R167): `(DEC_I_R + LEN) div DECIM_D`. -/
def decimatedLength (ch : Channel) (len : Nat) : Nat := (ch.dec.iR + len) / ch.config.decimD

/-- The front end of a block: decimate I and Q, filter I and Q, demodulate (R160). The demodulated block, and the
channel with its filters' state after. -/
def frontEnd (c : Cfg) (ch : Channel) (i q : List F) : List F × Channel :=
  let di := decimate c ch.config.decimD ch.config.decTaps i ch.dec.iDl ch.dec.iR
  let dq := decimate c ch.config.decimD ch.config.decTaps q ch.dec.qDl ch.dec.qR
  let fi := fir c ch.config.chTaps di.1 ch.fir.iDl
  let fq := fir c ch.config.chTaps dq.1 ch.fir.qDl
  (demod c ch.regs.gain fi.1 fq.1,
   { ch with
     dec := { iDl := di.2.1, qDl := dq.2.1, iR := di.2.2, qR := dq.2.2 }
     fir := { iDl := fi.2, qDl := fq.2 } })

end Sys2Proof.Machine
end

