-- ==== Sys2Proof/Machine/Resampler.lean ====
section
/-! DEFINITION. The polyphase resampler (44_resampler_orchestrator.md R260 to R264). -/

namespace Sys2Proof.Machine

/-- The inner loop of R262: the taps of phase `p` from the `j`-th on, at most `fuel` of them. -/
def phaseLoop (c : Cfg) (l p : Nat) (taps dl : List F) : Nat → Nat → F → F
  | 0, _, acc => acc
  | fuel + 1, j, acc =>
    if p + j * l < taps.length then
      phaseLoop c l p taps dl fuel (j + 1) (fadd c acc (fmul c (memRead taps (p + j * l)) (memRead dl j)))
    else acc

/-- One output of phase `p`: `Σ_j RS_TAPS[p + j·RS_L] · RS_DL[j]`, from `+0.0` in ascending `j`. A phase reads at most
`LR` taps (log entry 12). -/
def phaseOutput (c : Cfg) (l p : Nat) (taps dl : List F) : F := phaseLoop c l p taps dl taps.length 0 0#32

/-- The outer loop of R262 for one input: one output while `RS_ACC < RS_L`, at most `fuel` of them. -/
def resampleTurns (c : Cfg) (l m : Nat) (taps dl : List F) : Nat → Nat → List F × Nat
  | 0, acc => ([], acc)
  | fuel + 1, acc =>
    if acc < l then
      let rest := resampleTurns c l m taps dl fuel (acc + m)
      (phaseOutput c l acc taps dl :: rest.1, rest.2)
    else ([], acc)

/-- `Resample(a)` (R262): the audio samples, and the resampler after. `RS_M ≥ 1` ends the loop of an input within
`RS_L` turns (log entry 12). -/
def resample (c : Cfg) (l m : Nat) (taps : List F) : List F → Resampler → List F × Resampler
  | [], r => ([], r)
  | x :: xs, r =>
    let dl := push r.dl x
    let turn := resampleTurns c l m taps dl l r.acc
    let rest := resample c l m taps xs { dl := dl, acc := turn.2 - l }
    (turn.1 ++ rest.1, rest.2)

end Sys2Proof.Machine
end

