-- ==== Sys2Proof/Machine/Squelch.lean ====
section
/-! DEFINITION. The squelch controller and its eleven commands (42_squelch.md R190 to R210). -/

namespace Sys2Proof.Machine

/-! ### The controller -/

/-- The sum of the squares of a block, in order, from `+0.0` (R191). -/
def sumSquares (c : Cfg) (a : List F) : F := a.foldl (fun s x => fadd c s (fmul c x x)) 0#32

/-- `BlockPower(a)` in dB, for a block that is not empty (R191). -/
def blockPower (c : Cfg) (a : List F) : F := db c (fdiv c (sumSquares c a) (ofNatF a.length))

/-- The block qualifies for opening (R192). -/
def opens (c : Cfg) (r : Regs) (p : F) : Bool := fgt p (fadd c r.threshold r.hystOpen)

/-- The block qualifies for closing (R192). -/
def closes (c : Cfg) (r : Regs) (p : F) : Bool := flt p (fsub c r.threshold r.hystClose)

/-- The noise-floor tracker (R194): with `AUTO_TRACK` and in MUTED it moves the estimate and the threshold. -/
def trackFloor (c : Cfg) (p : F) (ch : Channel) : Channel :=
  if ch.regs.autoTrack && ch.squelch.state == .muted then
    let nf := c.track ch.squelch.nf p
    { ch with
      squelch := { ch.squelch with nf := some nf }
      regs := { ch.regs with threshold := fadd c nf c.autoOffset } }
  else ch

/-- The state decision of R195 on a block of power `p`, after the tracker. -/
def squelchDecide (c : Cfg) (r : Regs) (p : F) (q : Squelch) : Squelch :=
  if r.override then
    match q.state with
    | .muted => { q with openCnt := 0, closeCnt := 0, state := .unmuted, changed := true }
    | .unmuted => { q with openCnt := 0, closeCnt := 0 }
  else
    match q.state with
    | .muted =>
      let n := if opens c r p then q.openCnt + 1 else 0
      if n = c.openDebounce then { q with openCnt := 0, closeCnt := 0, state := .unmuted, changed := true }
      else { q with openCnt := n }
    | .unmuted =>
      let n := if closes c r p then q.closeCnt + 1 else 0
      if n = c.closeDebounce then { q with openCnt := 0, closeCnt := 0, state := .muted, changed := true }
      else { q with closeCnt := n }

/-- `SquelchEval(a)` (R195), for a block that is not empty. -/
def squelchEval (c : Cfg) (a : List F) (ch : Channel) : Channel :=
  let p := blockPower c a
  let ch' := trackFloor c p ch
  { ch' with squelch := squelchDecide c ch'.regs p ch'.squelch }

/-! ### The commands: none faults, none writes a flag, each is answered once -/

/-- Change the control registers of the acting channel. -/
def Channel.withRegs (ch : Channel) (f : Regs → Regs) : Channel := { ch with regs := f ch.regs }

/-- GET_THRESHOLD (R200). -/
def execGetThreshold (tag : Byte) (s : State) : StepResult :=
  .next (s.onActive (fun ch => ch.answer .getThreshold tag ch.regs.threshold))

/-- SET_THRESHOLD (R201). -/
def execSetThreshold (tag : Byte) (value : F) (s : State) : StepResult :=
  .next (s.onActive (fun ch => (ch.withRegs (fun r => { r with threshold := value })).answer .setThreshold tag value))

/-- GET_AUTOTRACK (R202). -/
def execGetAutotrack (tag : Byte) (s : State) : StepResult :=
  .next (s.onActive (fun ch => ch.answer .getAutotrack tag (bitWord ch.regs.autoTrack)))

/-- SET_AUTOTRACK (R203): the estimate `NF` and the threshold stay as they are. -/
def execSetAutotrack (tag : Byte) (b : Bool) (s : State) : StepResult :=
  .next (s.onActive (fun ch => (ch.withRegs (fun r => { r with autoTrack := b })).answer .setAutotrack tag (bitWord b)))

/-- GET_HYST_OPEN (R204). -/
def execGetHystOpen (tag : Byte) (s : State) : StepResult :=
  .next (s.onActive (fun ch => ch.answer .getHystOpen tag ch.regs.hystOpen))

/-- SET_HYST_OPEN (R205). -/
def execSetHystOpen (tag : Byte) (value : F) (s : State) : StepResult :=
  .next (s.onActive (fun ch => (ch.withRegs (fun r => { r with hystOpen := value })).answer .setHystOpen tag value))

/-- GET_HYST_CLOSE (R206). -/
def execGetHystClose (tag : Byte) (s : State) : StepResult :=
  .next (s.onActive (fun ch => ch.answer .getHystClose tag ch.regs.hystClose))

/-- SET_HYST_CLOSE (R207): that it exceeds `HYST_OPEN` is not checked. -/
def execSetHystClose (tag : Byte) (value : F) (s : State) : StepResult :=
  .next (s.onActive (fun ch => (ch.withRegs (fun r => { r with hystClose := value })).answer .setHystClose tag value))

/-- SET_OVERRIDE (R208): the mute flag changes, if at all, at the next evaluated block (R197). -/
def execSetOverride (tag : Byte) (b : Bool) (s : State) : StepResult :=
  .next (s.onActive (fun ch => (ch.withRegs (fun r => { r with override := b })).answer .setOverride tag (bitWord b)))

/-- GET_GAIN (R209). -/
def execGetGain (tag : Byte) (s : State) : StepResult :=
  .next (s.onActive (fun ch => ch.answer .getGain tag ch.regs.gain))

/-- SET_GAIN (R210). -/
def execSetGain (tag : Byte) (value : F) (s : State) : StepResult :=
  .next (s.onActive (fun ch => (ch.withRegs (fun r => { r with gain := value })).answer .setGain tag value))

end Sys2Proof.Machine
end

