-- ==== Sys2Proof/Machine/Tone.lean ====
section
/-! DEFINITION. The CTCSS tone decoder (43_ctcss.md R230 to R242): pre-filter, Goertzel bank, candidate, debounce,
hold-off, rebroadcast. It is a stage of IQ_BLOCK; it emits TONE messages on the channel's port. -/

namespace Sys2Proof.Machine

/-! ### The Goertzel bank -/

/-- The new `q0` of one tone (R236). -/
def goertzelNext (c : Cfg) (coeff q1 q2 x : F) : F := fadd c (fsub c (fmul c coeff q1) q2) x

/-- The recursion of R236 over every tone: the new `q1` list and the new `q2` list. -/
def goertzelStep (c : Cfg) (coeff q1 q2 : List F) (x : F) : List F × List F :=
  (List.zipWith (fun k q => goertzelNext c k q.1 q.2 x) coeff (q1.zip q2), q1)

/-- `Power(t)` of one tone (R237). -/
def tonePower (c : Cfg) (coeff q1 q2 : F) : F :=
  fsub c (fadd c (fmul c q1 q1) (fmul c q2 q2)) (fmul c (fmul c coeff q1) q2)

/-- The powers of all tones (R237). -/
def tonePowers (c : Cfg) (coeff q1 q2 : List F) : List F :=
  List.zipWith (fun k q => tonePower c k q.1 q.2) coeff (q1.zip q2)

/-! ### The candidate (R238) -/

/-- The lowest index of the greatest power. -/
def strongest (pw : List F) : Nat :=
  (List.range pw.length).foldl (fun m t => if fgt (memRead pw t) (memRead pw m) then t else m) 0

/-- The sum of the powers of all tones but `m`, in ascending order from `+0.0`. -/
def othersSum (c : Cfg) (pw : List F) (m : Nat) : F :=
  (List.range pw.length).foldl (fun acc t => if t = m then acc else fadd c acc (memRead pw t)) 0#32

/-- `Candidate(pw)` (R238). -/
def candidate (c : Cfg) (pw : List F) : Option Nat :=
  if pw.length = 0 then none
  else
    let m := strongest pw
    if fgt (memRead pw m) (fmul c c.toneMult (othersSum c pw m)) && fgt (memRead pw m) c.toneFloor then some m
    else none

/-! ### Debounce and hold-off (R240) -/

/-- A tone id as the `ID` field of a TONE message (R101). -/
def toneId (t : Nat) : BitVec 16 := BitVec.ofNat 16 t

/-- Part 1 of `ToneFsm`: the counters. -/
def toneCount (cand : Option Nat) (d : ToneDecoder) : ToneDecoder :=
  match cand with
  | some t =>
    if d.cur = some t then { d with lossCnt := 0, pend := none, matchCnt := 0 }
    else
      { d with
        pend := some t
        matchCnt := if d.pend = some t then d.matchCnt + 1 else 1
        lossCnt := if d.cur.isSome then d.lossCnt + 1 else d.lossCnt }
  | none =>
    { d with pend := none, matchCnt := 0, lossCnt := if d.cur.isSome then d.lossCnt + 1 else d.lossCnt }

/-- The messages of a promotion: the loss of the old tone, if any, then the detection of the new one. -/
def promotionMessages (old : Option Nat) (t : Nat) (ts : Word) : List Message :=
  (match old with
   | some a => [Message.tone (toneId a) true false ts]
   | none => []) ++ [Message.tone (toneId t) false false ts]

/-- The tone to promote, if any: the pending one, seen in `MATCH_COUNT` windows in a row. -/
def promoted (c : Cfg) (d : ToneDecoder) : Option Nat := if (c.matchCount : Nat) ≤ d.matchCnt then d.pend else none

/-- The tone to declare lost, if any: the current one, missing from `LOSS_COUNT` windows in a row. -/
def droppedTone (c : Cfg) (d : ToneDecoder) : Option Nat := if (c.lossCount : Nat) ≤ d.lossCnt then d.cur else none

/-- Part 2 of `ToneFsm`: the first action that applies, promotion before loss, and its messages. -/
def toneAct (c : Cfg) (ts : Word) (d : ToneDecoder) : ToneDecoder × List Message :=
  match promoted c d with
  | some t =>
    ({ d with cur := some t, pend := none, matchCnt := 0, lossCnt := 0, lastTx := ts }, promotionMessages d.cur t ts)
  | none =>
    match droppedTone c d with
    | some a =>
      ({ d with cur := none, pend := none, matchCnt := 0, lossCnt := 0 }, [Message.tone (toneId a) true false ts])
    | none => (d, [])

/-- `ToneFsm(c, TS)` (R240). -/
def toneFsm (c : Cfg) (cand : Option Nat) (ts : Word) (d : ToneDecoder) : ToneDecoder × List Message :=
  toneAct c ts (toneCount cand d)

/-! ### The stage (R242) -/

/-- One demodulated sample into the bank: pre-filter (R234), recursion (R236). -/
def toneSample (c : Cfg) (cf : ActiveConfig) (x : F) (d : ToneDecoder) : ToneDecoder :=
  let dl := push d.dl x
  let q := goertzelStep c cf.coeff d.q1 d.q2 (dot c cf.toneTaps dl)
  { d with dl := dl, q1 := q.1, q2 := q.2, n := d.n + 1 }

/-- The window boundary: powers (R237), registers and fill to zero (R239), debounce (R240). -/
def toneWindowEnd (c : Cfg) (cf : ActiveConfig) (ts : Word) (d : ToneDecoder) : ToneDecoder × List Message :=
  toneFsm c (candidate c (tonePowers c cf.coeff d.q1 d.q2)) ts
    { d with q1 := clearMem d.q1, q2 := clearMem d.q2, n := 0 }

/-- One sample, and the window boundary when it completes the window. -/
def toneTurn (c : Cfg) (cf : ActiveConfig) (ts : Word) (x : F) (d : ToneDecoder) : ToneDecoder × List Message :=
  let d' := toneSample c cf x d
  if d'.n = cf.toneWin then toneWindowEnd c cf ts d' else (d', [])

/-- The samples of a block in order. -/
def toneSamples (c : Cfg) (cf : ActiveConfig) (ts : Word) : List F → ToneDecoder → ToneDecoder × List Message
  | [], d => (d, [])
  | x :: xs, d =>
    let one := toneTurn c cf ts x d
    let rest := toneSamples c cf ts xs one.1
    (rest.1, one.2 ++ rest.2)

/-- The rebroadcast check (R241). -/
def toneRebroadcast (c : Cfg) (ts : Word) (d : ToneDecoder) : ToneDecoder × List Message :=
  match d.cur with
  | some t =>
    if c.rebroadcastMs ≤ tsdiff ts d.lastTx then ({ d with lastTx := ts }, [Message.tone (toneId t) false true ts])
    else (d, [])
  | none => (d, [])

/-- `ToneProcess(a, TS)` on the decoder: its state after, and its messages in order. -/
def toneRun (c : Cfg) (cf : ActiveConfig) (ts : Word) (a : List F) (d : ToneDecoder) : ToneDecoder × List Message :=
  let run := toneSamples c cf ts a d
  let last := toneRebroadcast c ts run.1
  (last.1, run.2 ++ last.2)

/-- `ToneProcess(a, TS)` (R242). -/
def toneProcess (c : Cfg) (a : List F) (ts : Word) (ch : Channel) : Channel :=
  let r := toneRun c ch.config ts a ch.tone
  { ch with tone := r.1 }.emitAll r.2

end Sys2Proof.Machine
end

