-- ==== Sys2Proof/Machine/IqBlock.lean ====
section
/-! DEFINITION. The call-lifecycle machine and IQ_BLOCK (44_resampler_orchestrator.md R270 to R276). -/

namespace Sys2Proof.Machine

/-! ### The lifecycle machine (R273) -/

/-- The event of a block: keyed on the stored state and the mute flag. -/
def lifecycleEvent : LcState → SqState → LcEvent
  | .idle, .unmuted => .start
  | .call, .unmuted => .continuation
  | .call, .muted => .ending
  | .idle, .muted => .idle

/-- The lifecycle state after a block. -/
def lifecycleNext : SqState → LcState
  | .unmuted => .call
  | .muted => .idle

/-- The lifecycle stage: the event, its message with `AGC_RESET` exactly at a START (R275), the new state. -/
def lifecycleStage (channelId ts : Word) (ch : Channel) : Channel :=
  let ev := lifecycleEvent ch.lc ch.squelch.state
  { ch with lc := lifecycleNext ch.squelch.state }.emit (.lifecycle ev (ev == LcEvent.start) channelId ts)

/-! ### The block sequencer (R270) -/

/-- The squelch stage: `SQ_CHANGED` cleared, then the evaluation unless the demodulated block is empty (R272). -/
def squelchStage (c : Cfg) (a : List F) (ch : Channel) : Channel :=
  let ch' := { ch with squelch := ch.squelch.clearChanged }
  if a = [] then ch' else squelchEval c a ch'

/-- The audio stage: while unmuted the block is resampled and forwarded; while muted the resampler does not run
(R264). -/
def audioStage (c : Cfg) (a : List F) (ts : Word) (ch : Channel) : Channel :=
  match ch.squelch.state with
  | .unmuted =>
    let y := resample c ch.config.rsL ch.config.rsM ch.config.rsTaps a ch.resampler
    { ch with resampler := y.2 }.emitAll (audioMessages ts y.1)
  | .muted => ch

/-- The block itself, once its preconditions hold: front end, squelch, lifecycle, audio, tones, in this order
(R160, R271). -/
def runBlock (c : Cfg) (channelId ts : Word) (i q : List F) (ch : Channel) : Channel :=
  let front := frontEnd c ch i q
  toneProcess c front.1 ts
    (audioStage c front.1 ts (lifecycleStage channelId ts (squelchStage c front.1 front.2)))

/-- IQ_BLOCK on the channel numbered `num`; the three faults are tested in this order before any write (R293,
R294). -/
def iqBlock (c : Cfg) (num : Nat) (tag : Byte) (ts : Word) (i q : List F) (ch : Channel) : Channel :=
  let k := decimatedLength ch i.length
  if i.length = 0 then ch.takeFault .badArgument tag 0#32
  else if !ch.config.configured then ch.takeFault .precondNotConfigured tag 0#32
  else if !laneOk ch.config.implActive k then ch.takeFault .precondLane tag (BitVec.ofNat 32 k)
  else runBlock c (c.channelId num) ts i q ch

/-- IQ_BLOCK (R270). -/
def execIqBlock (tag : Byte) (ts : Word) (i q : List F) (s : State) : StepResult :=
  .next (s.onActive (iqBlock Config.cfg s.activeNum tag ts i q))

end Sys2Proof.Machine
end

