-- ==== Sys2Proof/Machine/MessageHeaders.lean ====
section
/-! DEFINITION. The message rows of the opcode table as commands (30_encoding.md R96 item 3): `MSG` values are illegal
on the command port, so each takes ILLEGAL_COMMAND with its header word as `INFO` (R96 class 1; log entry 1). -/

namespace Sys2Proof.Machine

/-- A REPLY header on the command port. -/
def execReply (tag st rop : Byte) (s : State) : StepResult := .next (s.takeIllegal (replyHeader tag st rop))

/-- A LIFECYCLE header on the command port. -/
def execLifecycle (agc : Bool) (ev : BitVec 2) (s : State) : StepResult := .next (s.takeIllegal (lifecycleHeader agc ev))

/-- An AUDIO header on the command port. -/
def execAudio (len : BitVec 16) (s : State) : StepResult := .next (s.takeIllegal (audioHeader len))

/-- A TONE header on the command port. -/
def execTone (rep lost : Bool) (id : BitVec 16) (s : State) : StepResult :=
  .next (s.takeIllegal (toneHeader rep lost id))

/-- A FAULT header on the command port. -/
def execFault (tag : Byte) (code : BitVec 16) (s : State) : StepResult := .next (s.takeIllegal (faultHeader tag code))

end Sys2Proof.Machine
end

