-- ==== Sys2Proof/Machine/Reset.lean ====
section
/-! DEFINITION. The RESET command (70_reset_and_hazards.md R322). -/

namespace Sys2Proof.Machine

/-- RESET on a channel: all dynamic state reinitialised as one unit, every memory keeping its length; the
configuration, the control registers and `FSTAT` kept; no message.

DESIGN CHOICE (log entry 15): twice is the same as once, as R322 says, where 20_memory.md R76 calls RESET not
idempotent and 90_conflicts.md does not rule between them. Unsafe, if R76 is meant of two RESETs in a row. -/
def resetChannel (ch : Channel) : Channel :=
  { ch with
    dec := { iDl := clearMem ch.dec.iDl, qDl := clearMem ch.dec.qDl, iR := 0, qR := 0 }
    fir := { iDl := clearMem ch.fir.iDl, qDl := clearMem ch.fir.qDl }
    squelch := Squelch.reset
    tone := { dl := clearMem ch.tone.dl, q1 := clearMem ch.tone.q1, q2 := clearMem ch.tone.q2, n := 0, cur := none,
              pend := none, matchCnt := 0, lossCnt := 0, lastTx := 0#32 }
    resampler := { dl := clearMem ch.resampler.dl, acc := 0 }
    lc := .idle }

/-- RESET (R322); its tag is unused. -/
def execReset (_tag : Byte) (s : State) : StepResult := .next (s.onActive resetChannel)

end Sys2Proof.Machine
end

