-- ==== Sys2Proof/Machine/Dispatch.lean ====
section
/-! DEFINITION. One arm per instruction. -/

namespace Sys2Proof.Machine

/-- What an instruction does to the state, the acting channel being `s.active` and its words already taken from the
command port (00_scope.md R15). -/
def exec (i : Instr) (s : State) : Host.Outcome State Fault Refusal :=
  match i with
  | .sampleRate tag rate => Sys2Proof.Machine.execSampleRate tag rate s
  | .iqBlock tag ts xi xq => Sys2Proof.Machine.execIqBlock tag ts xi xq s
  | .reset tag => Sys2Proof.Machine.execReset tag s
  | .getStatus tag => Sys2Proof.Machine.execGetStatus tag s
  | .getThreshold tag => Sys2Proof.Machine.execGetThreshold tag s
  | .setThreshold tag value => Sys2Proof.Machine.execSetThreshold tag value s
  | .getAutotrack tag => Sys2Proof.Machine.execGetAutotrack tag s
  | .setAutotrack tag b => Sys2Proof.Machine.execSetAutotrack tag b s
  | .getHystOpen tag => Sys2Proof.Machine.execGetHystOpen tag s
  | .setHystOpen tag value => Sys2Proof.Machine.execSetHystOpen tag value s
  | .getHystClose tag => Sys2Proof.Machine.execGetHystClose tag s
  | .setHystClose tag value => Sys2Proof.Machine.execSetHystClose tag value s
  | .setOverride tag b => Sys2Proof.Machine.execSetOverride tag b s
  | .getGain tag => Sys2Proof.Machine.execGetGain tag s
  | .setGain tag value => Sys2Proof.Machine.execSetGain tag value s
  | .calWrite tag code => Sys2Proof.Machine.execCalWrite tag code s
  | .calRead tag => Sys2Proof.Machine.execCalRead tag s
  | .implRequest tag code => Sys2Proof.Machine.execImplRequest tag code s
  | .reply tag st rop => Sys2Proof.Machine.execReply tag st rop s
  | .lifecycle agc ev => Sys2Proof.Machine.execLifecycle agc ev s
  | .audio len => Sys2Proof.Machine.execAudio len s
  | .tone rep lost id => Sys2Proof.Machine.execTone rep lost id s
  | .fault tag code => Sys2Proof.Machine.execFault tag code s

end Sys2Proof.Machine
end

