-- ==== Sys2Proof/Machine/Fetch.lean ====
section
/-! DEFINITION. What the machine executes next: the turn of a channel and the command at the front of its port
(20_memory.md R75, R80, R81; 30_encoding.md R95). -/

namespace Sys2Proof.Machine

/-- The channel has an enabled step: a whole command, or an illegal header, stands at the front of its port (R75). -/
def Channel.enabled (ch : Channel) : Bool :=
  match decode ch.cmdPort with
  | .instr _ _ | .illegal _ _ => true
  | .empty | .incomplete _ _ => false

/-- The channels asked, in this order, when the one whose turn it is cannot move: those after it, then those before
it. -/
def State.turnOrder (s : State) : List Nat :=
  (List.range s.right.length).map (fun j => s.left.length + 1 + j) ++ List.range s.left.length

/-- The channel has an enabled step. -/
def State.enabledAt (s : State) (j : Nat) : Bool :=
  match s.channels[j]? with
  | some ch => ch.enabled
  | none => false

/-- The state with its turn at a channel that can move, if there is one. -/
def State.settle (s : State) : Option State :=
  if s.active.enabled then some s
  else match s.turnOrder.find? s.enabledAt with
    | some j => some (s.focus j)
    | none => none

/-- The acting channel's port after its command was taken: taking a command removes it (R76). -/
def State.consume (s : State) (rest : List Word) : State :=
  s.onActive (fun ch => { ch with cmdPort := rest })

/-- What a step executes. -/
inductive Fetched where
  /-- A command, in the state its words have been taken from. -/
  | command (i : Instr) (s : State)
  /-- An illegal header, in the state it has been taken from. -/
  | illegal (w : Word) (s : State)
  /-- No channel has an enabled step. -/
  | stuck (f : Fault)

/-- Why no channel can move (R75, R95): every port is empty, or some channel waits for words. -/
def State.stuckReason (s : State) : Fault :=
  if s.channels.all (fun ch => ch.cmdPort.isEmpty) then .idle else .awaitingWords

/-- Take the next command of the acting channel, or of the first one in turn that can move. -/
def fetch (s : State) : Fetched :=
  match s.settle with
  | none => .stuck s.stuckReason
  | some s' =>
    match decode s'.active.cmdPort with
    | .instr i rest => .command i (s'.consume rest)
    | .illegal w rest => .illegal w (s'.consume rest)
    | .empty | .incomplete _ _ => .stuck s.stuckReason

/-- After a command: the next turn is chosen (R81). -/
def afterCommand (c : Cfg) : StepResult → StepResult
  | .next s => .next (s.reschedule c)
  | .fault f => .fault f
  | .refused r => .refused r

/-- Put words at the front of the acting channel's command port. -/
def State.placeWords (s : State) (ws : List Word) : State :=
  s.onActive (fun ch => { ch with cmdPort := ws ++ ch.cmdPort })

end Sys2Proof.Machine
end

