-- ==== Sys2Proof/Machine/Step.lean ====
section
/-! DEFINITION. One step: one whole command of one channel (00_scope.md R15, R16). -/

namespace Sys2Proof.Machine

/-- One step of the system. -/
def step (s : State) : Host.Outcome State Fault Refusal :=
  match fetch s with
  | .command i s' => afterCommand Config.cfg (exec i s')
  | .illegal w s' => afterCommand Config.cfg (.next (s'.takeIllegal w))
  | .stuck f => .fault f

/-- The instruction whose first `nbits` bits are `w`, every further bit 0, placed at the front of the acting channel's
command port: the place the next step takes its command from (log entry 9). -/
def State.withFetchWord (s : State) (nbits w : Nat) : State := s.placeWords (tableWords nbits w)

end Sys2Proof.Machine
end

