-- ==== Sys2Proof/Safety.lean ====
section
/-! DEFINITION. The terms claims are stated in: what a sound state of the system is (the consequences the spec lists in
10_state.md R45, the legal values of R32, R34, R38 and R41), the fault table of 60_exceptions.md R290 as a function of
a command and the channel it reaches, runs of several steps, and what a reader of the message stream sees. -/

namespace Sys2Proof.Machine

/-! ### Properties of every channel -/

/-- A property holds of every channel, given the channel's number. -/
def State.Each (p : Nat → Channel → Prop) (s : State) : Prop := ∀ j ch, s.channels[j]? = some ch → p j ch

/-- R45 item 1: both branches carry the same remainder, and it is below the factor (R35). -/
structure Channel.BranchesInStep (ch : Channel) : Prop where
  sameRemainder : ch.dec.iR = ch.dec.qR
  belowFactor : ch.dec.iR < ch.config.decimD

/-- R45 item 2: a call is in progress exactly while the squelch is open. -/
def Channel.CallMatchesSquelch (ch : Channel) : Prop := ch.lc = .call ↔ ch.squelch.state = .unmuted

/-- R45 item 3: every counter is below its bound, and the tone counters are 0 without a tone to count for. -/
structure Channel.CountersBounded (c : Cfg) (ch : Channel) : Prop where
  openCnt : ch.squelch.openCnt < c.openDebounce
  closeCnt : ch.squelch.closeCnt < c.closeDebounce
  window : ch.tone.n < ch.config.toneWin
  accumulator : ch.resampler.acc < ch.config.rsM
  matchCnt : ch.tone.matchCnt < c.matchCount
  lossCnt : ch.tone.lossCnt < c.lossCount
  noPending : ch.tone.pend = none → ch.tone.matchCnt = 0
  noCurrent : ch.tone.cur = none → ch.tone.lossCnt = 0

/-- R45 item 4: a configured channel's configuration is the one its rate computes (R125 to R130). -/
structure Channel.ConfigFromRate (c : Cfg) (num : Nat) (ch : Channel) : Prop where
  powerOfTwo : ∃ n, ch.config.decimD = 2 ^ n
  feasible : 2 * (c.channelBw num : Nat) * ch.config.decimD ≤ ch.config.fsIn.toNat
  largest : ch.config.fsIn.toNat < 4 * (c.channelBw num : Nat) * ch.config.decimD
  chTaps : design c (channelSpec c (c.channelBw num) ch.config.fsIn.toNat ch.config.decimD) = some ch.config.chTaps
  rest : ch.config = activeConfigFor c (c.channelBw num) ch.config.fsIn ch.config.decimD ch.config.chTaps
    ch.config.implActive

/-- R35, R36, R38, R39: every memory has the length its taps or the tone list give it. -/
structure Channel.MemoriesSized (c : Cfg) (ch : Channel) : Prop where
  decI : ch.dec.iDl.length = ch.config.decTaps.length
  decQ : ch.dec.qDl.length = ch.config.decTaps.length
  firI : ch.fir.iDl.length = ch.config.chTaps.length
  firQ : ch.fir.qDl.length = ch.config.chTaps.length
  tone : ch.tone.dl.length = ch.config.toneTaps.length
  resampler : ch.resampler.dl.length = ceildiv ch.config.rsTaps.length ch.config.rsL
  coeff : ch.config.coeff.length = c.nt
  q1 : ch.tone.q1.length = c.nt
  q2 : ch.tone.q2.length = c.nt

/-- R38: a current or pending tone is one of the tone list. -/
def Channel.TonesListed (c : Cfg) (ch : Channel) : Prop :=
  (∀ t, ch.tone.cur = some t → t < c.nt) ∧ (∀ t, ch.tone.pend = some t → t < c.nt)

/-- R32, R34: the selection codes are legal values. -/
def Channel.CodesLegal (c : Cfg) (ch : Channel) : Prop :=
  implCodeOk c ch.regs.implReq = true ∧ calCodeOk c ch.config.implActive = true

/-- R41: bits 6 and 7 of `FSTAT` are 0. -/
def Channel.FstatLegal (ch : Channel) : Prop := ch.fstat &&& 0xC0#8 = 0#8

/-- R32: `CAL_SEL` is UNCALIBRATED or a code CAL_WRITE accepts. -/
def State.CalSelLegal (c : Cfg) (s : State) : Prop := s.calSel = 0#8 ∨ calCodeOk c s.calSel = true

/-! ### The fault table (R290), in the order of R294 -/

/-- The tag field of a command's header, as a FAULT carries it (30_encoding.md R102). -/
def commandTag : Instr → Byte
  | .sampleRate tag _ | .iqBlock tag _ _ _ | .reset tag | .getStatus tag | .getThreshold tag | .setThreshold tag _
  | .getAutotrack tag | .setAutotrack tag _ | .getHystOpen tag | .setHystOpen tag _ | .getHystClose tag
  | .setHystClose tag _ | .setOverride tag _ | .getGain tag | .setGain tag _ | .calWrite tag _ | .calRead tag
  | .implRequest tag _ | .reply tag _ _ | .fault tag _ => tag
  | .lifecycle agc ev => tagOf (lifecycleHeader agc ev)
  | .audio len => tagOf (audioHeader len)
  | .tone rep lost id => tagOf (toneHeader rep lost id)

/-- The fault SAMPLE_RATE raises on a channel of bandwidth `bw`, if any. -/
def sampleRateFault (c : Cfg) (bw : Nat) (rate : Word) : Option (FaultCode × Word) :=
  if rate = 0#32 then some (.badArgument, 0#32)
  else if rate.toNat < 2 * bw * decimFactor rate.toNat bw then some (.configRateInsufficient, rate)
  else if design c (channelSpec c bw rate.toNat (decimFactor rate.toNat bw)) = none then some (.configDesignFailed, rate)
  else none

/-- The fault IQ_BLOCK with `len` samples raises on a channel, if any. -/
def iqBlockFault (ch : Channel) (len : Nat) : Option (FaultCode × Word) :=
  if len = 0 then some (.badArgument, 0#32)
  else if ch.config.configured = false then some (.precondNotConfigured, 0#32)
  else if ch.config.implActive ≠ 1#8 ∧ decimatedLength ch len % ch.config.implActive.toNat ≠ 0 then
    some (.precondLane, BitVec.ofNat 32 (decimatedLength ch len))
  else none

/-- The fault a command raises in a state, if any: its code and its `INFO` word (R290). -/
def faultOf (c : Cfg) (s : State) : Instr → Option (FaultCode × Word)
  | .sampleRate _ rate => sampleRateFault c (c.channelBw s.activeNum) rate
  | .iqBlock _ _ i _ => iqBlockFault s.active i.length
  | .calWrite _ code => if calCodeOk c code then none else some (.badArgument, byteWord code)
  | .implRequest _ code => if implCodeOk c code then none else some (.badArgument, byteWord code)
  | .reply tag st rop => some (.illegalCommand, replyHeader tag st rop)
  | .lifecycle agc ev => some (.illegalCommand, lifecycleHeader agc ev)
  | .audio len => some (.illegalCommand, audioHeader len)
  | .tone rep lost id => some (.illegalCommand, toneHeader rep lost id)
  | .fault tag code => some (.illegalCommand, faultHeader tag code)
  | .reset _ | .getStatus _ | .getThreshold _ | .setThreshold _ _ | .getAutotrack _ | .setAutotrack _ _
  | .getHystOpen _ | .setHystOpen _ _ | .getHystClose _ | .setHystClose _ _ | .setOverride _ _ | .getGain _
  | .setGain _ _ | .calRead _ => none

/-! ### Runs -/

/-- `n` steps, as long as each answers a next state. -/
def stepMany : Nat → State → StepResult
  | 0, s => .next s
  | n + 1, s =>
    match step s with
    | .next t => stepMany n t
    | .fault f => .fault f
    | .refused r => .refused r

/-- The commands of a list on the acting channel, one after the other (20_memory.md R80). -/
def execAll : List Instr → State → StepResult
  | [], s => .next s
  | i :: is, s =>
    match exec i s with
    | .next t => execAll is t
    | .fault f => .fault f
    | .refused r => .refused r

/-- A command that is not RESET. -/
def notReset : Instr → Bool
  | .reset _ => false
  | .sampleRate _ _ | .iqBlock _ _ _ _ | .getStatus _ | .getThreshold _ | .setThreshold _ _ | .getAutotrack _
  | .setAutotrack _ _ | .getHystOpen _ | .setHystOpen _ _ | .getHystClose _ | .setHystClose _ _ | .setOverride _ _
  | .getGain _ | .setGain _ _ | .calWrite _ _ | .calRead _ | .implRequest _ _ | .reply _ _ _ | .lifecycle _ _
  | .audio _ | .tone _ _ _ | .fault _ _ => true

/-- A request: a command that is answered by a REPLY (30_encoding.md R98). -/
def isRequest : Instr → Bool
  | .getStatus _ | .getThreshold _ | .setThreshold _ _ | .getAutotrack _ | .setAutotrack _ _ | .getHystOpen _
  | .setHystOpen _ _ | .getHystClose _ | .setHystClose _ _ | .setOverride _ _ | .getGain _ | .setGain _ _
  | .calWrite _ _ | .calRead _ | .implRequest _ _ => true
  | .sampleRate _ _ | .iqBlock _ _ _ _ | .reset _ | .reply _ _ _ | .lifecycle _ _ | .audio _ | .tone _ _ _
  | .fault _ _ => false

/-! ### The message stream as a reader sees it -/

/-- The message is a REPLY. -/
def Message.isReply : Message → Bool
  | .reply _ _ _ _ => true
  | .lifecycle _ _ _ _ | .audio _ _ | .tone _ _ _ _ | .fault _ _ _ => false

/-- The message is a FAULT. -/
def Message.isFault : Message → Bool
  | .fault _ _ _ => true
  | .reply _ _ _ _ | .lifecycle _ _ _ _ | .audio _ _ | .tone _ _ _ _ => false

/-- The message is an AUDIO. -/
def Message.isAudio : Message → Bool
  | .audio _ _ => true
  | .reply _ _ _ _ | .lifecycle _ _ _ _ | .tone _ _ _ _ | .fault _ _ _ => false

/-- The message is a TONE, and if it says a tone is lost it is no rebroadcast (30_encoding.md R101). -/
def Message.isSoundTone : Message → Bool
  | .tone _ lost rep _ => !(lost && rep)
  | .reply _ _ _ _ | .lifecycle _ _ _ _ | .audio _ _ | .fault _ _ _ => false

/-- The timestamp a message carries, if its kind has one. -/
def Message.timestamp : Message → Option Word
  | .lifecycle _ _ _ ts | .audio ts _ | .tone _ _ _ ts => some ts
  | .reply _ _ _ _ | .fault _ _ _ => none

/-- The event of a LIFECYCLE message. -/
def Message.event : Message → Option LcEvent
  | .lifecycle ev _ _ _ => some ev
  | .reply _ _ _ _ | .audio _ _ | .tone _ _ _ _ | .fault _ _ _ => none

/-- The call in progress after a list of events, for a reader who follows them: `none` when an event does not fit,
that is a START within a call, or a CONTINUATION or an END outside one
(44_resampler_orchestrator.md R274). -/
def followCall : LcState → List LcEvent → Option LcState
  | lc, [] => some lc
  | .idle, .idle :: es => followCall .idle es
  | .idle, .start :: es => followCall .call es
  | .call, .continuation :: es => followCall .call es
  | .call, .ending :: es => followCall .idle es
  | .idle, .continuation :: _ | .idle, .ending :: _ | .call, .idle :: _ | .call, .start :: _ => none

/-- The tone a reader of TONE messages takes to be current: none after a loss, the announced one after any other. -/
def followTone : Option (BitVec 16) → List Message → Option (BitVec 16)
  | cur, [] => cur
  | _, .tone id lost _ _ :: ms => followTone (if lost then none else some id) ms
  | cur, .reply _ _ _ _ :: ms | cur, .lifecycle _ _ _ _ :: ms | cur, .audio _ _ :: ms | cur, .fault _ _ _ :: ms =>
    followTone cur ms

/-- The debounce machine over the candidates and timestamps of consecutive windows (43_ctcss.md R243). -/
def toneWindows (c : Cfg) : List (Option Nat × Word) → ToneDecoder → ToneDecoder × List Message
  | [], d => (d, [])
  | w :: ws, d =>
    let one := toneFsm c w.1 w.2 d
    let rest := toneWindows c ws one.1
    (rest.1, one.2 ++ rest.2)

/-! ### Stages over several blocks -/

/-- One branch decimated block by block: all outputs in order, the delay line and the remainder after. -/
def decimateBlocks (c : Cfg) (d : Nat) (taps : List F) : List (List F) → List F → Nat → List F × List F × Nat
  | [], dl, r => ([], dl, r)
  | b :: bs, dl, r =>
    let one := decimate c d taps b dl r
    let rest := decimateBlocks c d taps bs one.2.1 one.2.2
    (one.1 ++ rest.1, rest.2)

/-- The squelch evaluated on each of a list of demodulated blocks. -/
def squelchBlocks (c : Cfg) (blocks : List (List F)) (ch : Channel) : Channel :=
  blocks.foldl (fun ch a => squelchEval c a ch) ch

/-- Blocks resampled one after the other: all outputs in order, and the resampler after. -/
def resampleBlocks (c : Cfg) (l m : Nat) (taps : List F) : List (List F) → Resampler → List F × Resampler
  | [], r => ([], r)
  | b :: bs, r =>
    let one := resample c l m taps b r
    let rest := resampleBlocks c l m taps bs one.2
    (one.1 ++ rest.1, rest.2)

end Sys2Proof.Machine
end

