-- ==== Sys2Proof/Certificates/Slice0/Obligations.lean ====
section
/-! DEFINITION. The statements for the provers. Each docstring names the rules it formalises; a statement that rests on a
choice of the model names the log entry. Header words are written field by field, as 30_encoding.md R98 to R102 give
them: message type, tag, and the two low bytes. -/

section Statements

open Sys2Proof Sys2Proof.Machine

/-! ### Encoding (30_encoding.md) -/

/-- R105: every worked encoding of the table, command words read and message words written. -/
def Obligations.WorkedEncodingsAgree : Prop :=
  decode [0x01000000#32, 0x0000C350#32] = .instr (.sampleRate 0#8 50000#32) [] ∧
  decode [0x02000002#32, 0x000003E8#32, 0x40400000#32, 0x00000000#32, 0x40800000#32, 0x3F800000#32]
    = .instr (.iqBlock 0#8 1000#32 [0x40400000#32, 0x00000000#32] [0x40800000#32, 0x3F800000#32]) [] ∧
  decode [0x03000000#32] = .instr (.reset 0#8) [] ∧
  decode [0x04070000#32] = .instr (.getStatus 7#8) [] ∧
  decode [0x11010000#32, 0x41200000#32] = .instr (.setThreshold 1#8 0x41200000#32) [] ∧
  decode [0x17020000#32, 0x40C00000#32] = .instr (.setHystClose 2#8 0x40C00000#32) [] ∧
  decode [0x13030001#32] = .instr (.setAutotrack 3#8 true) [] ∧
  decode [0x19000001#32] = .instr (.setOverride 0#8 true) [] ∧
  decode [0x1B040000#32, 0x40000000#32] = .instr (.setGain 4#8 0x40000000#32) [] ∧
  decode [0x20050004#32] = .instr (.calWrite 5#8 4#8) [] ∧
  decode [0x22000001#32] = .instr (.implRequest 0#8 1#8) [] ∧
  decode [0x10000001#32] = .illegal 0x10000001#32 [] ∧
  Message.words (.reply 1#8 .ok 0x11#8 0x41200000#32) = [0x81010011#32, 0x41200000#32] ∧
  Message.words (.lifecycle .start true 9#32 1000#32) = [0x82050000#32, 0x00000009#32, 0x000003E8#32] ∧
  Message.words (.audio 1000#32 [0x41200000#32]) = [0x83000001#32, 0x000003E8#32, 0x41200000#32] ∧
  Message.words (.tone 12#16 false true 2000#32) = [0x8402000C#32, 0x000007D0#32] ∧
  Message.words (.tone 12#16 true false 3000#32) = [0x8401000C#32, 0x00000BB8#32] ∧
  Message.words (.fault 0#8 .precondNotConfigured 0#32) = [0x8F000004#32, 0x00000000#32]

/-- R91 to R95: decoding the words of a well-formed instruction gives it back, with the rest of the stream. The five
message constructors are the model's reading of R96 item 3 (log entry 1). -/
def Obligations.DecodeOfEncodeIsTheInstruction : Prop :=
  ∀ (i : Instr) (rest : List Word), i.WellFormed → decode (encode i ++ rest) = .instr i rest

/-- R93, R95: words that decode to an instruction are that instruction's own encoding, so no word has two meanings and
no bit of it is dropped. -/
def Obligations.DecodedWordsAreTheEncoding : Prop :=
  ∀ (ws rest : List Word) (i : Instr), decode ws = .instr i rest → i.WellFormed ∧ ws = encode i ++ rest

/-- R92, R95, 20_memory.md R75: later words never change a command that is there, a channel waits for exactly the
missing words, and the command is whole when they have come. -/
def Obligations.FramingIsStableUnderLaterWords : Prop :=
  (∀ (ws more rest : List Word) (i : Instr),
    decode ws = .instr i rest → decode (ws ++ more) = .instr i (rest ++ more)) ∧
  (∀ (ws more rest : List Word) (w : Word),
    decode ws = .illegal w rest → decode (ws ++ more) = .illegal w (rest ++ more)) ∧
  (∀ (ws more : List Word) (o : Opcode) (n : Nat), decode ws = .incomplete o n →
    0 < n ∧
    (more.length < n → decode (ws ++ more) = .incomplete o (n - more.length)) ∧
    (more.length = n → ∃ i, decode (ws ++ more) = .instr i [] ∧ rowOf i = o))

/-- R96 classes 1 and 3, 60_exceptions.md R291: a header that matches none of the eighteen command rows (those with
`OPC` below 0x80) is executed as `ILLEGAL(w)`: bit 4 of `FSTAT`, one FAULT with `w[23:16]`, code 5 and `w`, the header
alone consumed, nothing else. `reschedule` is the model's choice of the next turn (log entry 4). -/
def Obligations.OtherHeadersTakeIllegalCommand : Prop :=
  ∀ (s : State) (w : Word) (rest : List Word), s.active.cmdPort = w :: rest →
    (∀ o : Opcode, o.code.toNat < 0x80 → w &&& o.mask ≠ o.pattern) →
    step s = .next (State.reschedule Config.cfg
      { s with
      active :=
        { s.active with
          cmdPort := rest
          fstat := s.active.fstat ||| 0x10#8
          msgPort := s.active.msgPort ++ [0x8F#8 ++ w.extractLsb' 16 8 ++ 5#16, w] } })

/-- R97 to R102: the words of a message, read from the front of a stream, are that message. `LEN` has 16 bits. -/
def Obligations.MessageWordsParseBack : Prop :=
  ∀ (m : Message) (rest : List Word), (∀ ts samples, m = .audio ts samples → samples.length ≤ 65535) →
    parseMessage (m.words ++ rest) = some (m, rest)

/-- R100: a block's samples are cut into AUDIO messages of 65535 samples and a last shorter one, none empty, in
order, all with the block's timestamp. -/
def Obligations.AudioIsSentInPieces : Prop :=
  ∀ (ts : Word) (y : List F), ∃ pieces : List (List F),
    audioMessages ts y = pieces.map (Message.audio ts) ∧ pieces.flatten = y ∧
    (∀ p ∈ pieces, 1 ≤ p.length ∧ p.length ≤ 65535) ∧ (∀ p ∈ pieces.dropLast, p.length = 65535)

/-! ### Steps and channels (00_scope.md R15, 20_memory.md R80, R81) -/

/-- R15, R76: when a whole command stands at the front of the acting channel's port, the step takes its words and is
`exec` of it; the choice of the next turn follows (log entry 4). -/
def Obligations.StepRunsTheDecodedCommand : Prop :=
  ∀ (s : State) (i : Instr) (rest : List Word), decode s.active.cmdPort = .instr i rest →
    step s = (match exec i { s with active := { s.active with cmdPort := rest } } with
      | .next t => .next (t.reschedule Config.cfg)
      | .fault f => .fault f
      | .refused r => .refused r)

/-- R75, R95: the machine stops exactly when no channel has a whole command or an illegal header; it says whether
every port is empty; it refuses nothing. That the model stops with a fault there is its choice (log entry 3). -/
def Obligations.StepStopsExactlyWhenNoChannelCanMove : Prop :=
  ∀ s : State,
    ((∃ t, step s = .next t) ↔ ∃ ch ∈ s.channels, ch.enabled = true) ∧
    (step s = .fault .idle ↔ ∀ ch ∈ s.channels, ch.cmdPort = []) ∧
    (step s = .fault .awaitingWords ↔
      (∀ ch ∈ s.channels, ch.enabled = false) ∧ ∃ ch ∈ s.channels, ch.cmdPort ≠ []) ∧
    ∀ r, step s ≠ .refused r

/-- R15, R16, R81: a step is one whole command (or illegal header) of one channel: its words leave that channel's
port, and every other channel is as it was. -/
def Obligations.OneStepIsOneCommandOfOneChannel : Prop :=
  ∀ s t : State, step s = .next t → ∃ j ch ch' rest,
    s.channels[j]? = some ch ∧ t.channels = s.channels.set j ch' ∧ ch'.cmdPort = rest ∧
    ((∃ i, decode ch.cmdPort = .instr i rest ∧ ch.cmdPort = encode i ++ rest) ∨
     (∃ w, decode ch.cmdPort = .illegal w rest ∧ ch.cmdPort = w :: rest))

/-- 10_state.md R30, R81: a command sees its own channel and `CAL_SEL` and nothing else of the system, and writes
nothing else. -/
def Obligations.ChannelsAreIsolated : Prop :=
  ∀ (i : Instr) (s₁ s₂ t₁ t₂ : State), s₁.active = s₂.active → s₁.activeNum = s₂.activeNum → s₁.calSel = s₂.calSel →
    exec i s₁ = .next t₁ → exec i s₂ = .next t₂ →
    t₁.active = t₂.active ∧ t₁.calSel = t₂.calSel ∧ t₁.left = s₁.left ∧ t₁.right = s₁.right ∧ t₁.tick = s₁.tick

/-- R80, R304: a system of one channel whose port holds a list of well-formed commands executes them in that order,
each once and to completion, and only adds to the message stream. -/
def Obligations.PortOrderIsExecutionOrder : Prop :=
  ∀ (is : List Instr) (rest : List Word) (s : State), (∀ i ∈ is, i.WellFormed) → s.left = [] → s.right = [] →
    s.active.cmdPort = is.flatMap encode ++ rest →
    ∃ t, stepMany is.length s = .next t ∧
      execAll is { s with active := { s.active with cmdPort := rest } } = .next t ∧
      ∃ new, t.active.msgPort = s.active.msgPort ++ new

/-! ### Requests on registers (42_squelch.md R200 to R210, 40_configuration.md R133 to R136) -/

/-- R200, R202, R204, R206, R209: each GET is one header word, emits one REPLY with the register, and changes nothing
else. -/
def Obligations.GetCommandsReplyWithTheRegister : Prop :=
  ∀ (tag : Byte) (s : State),
    (encode (.getThreshold tag) = [0x10#8 ++ tag ++ 0#16] ∧
     exec (.getThreshold tag) s = .next { s with
      active :=
      { s.active with
        msgPort := s.active.msgPort ++ [0x81#8 ++ tag ++ 0#8 ++ 0x10#8, s.active.regs.threshold] } }) ∧
    (encode (.getAutotrack tag) = [0x12#8 ++ tag ++ 0#16] ∧
     exec (.getAutotrack tag) s = .next { s with
      active :=
      { s.active with
        msgPort := s.active.msgPort ++
          [0x81#8 ++ tag ++ 0#8 ++ 0x12#8, if s.active.regs.autoTrack then 1#32 else 0#32] } }) ∧
    (encode (.getHystOpen tag) = [0x14#8 ++ tag ++ 0#16] ∧
     exec (.getHystOpen tag) s = .next { s with
      active :=
      { s.active with
        msgPort := s.active.msgPort ++ [0x81#8 ++ tag ++ 0#8 ++ 0x14#8, s.active.regs.hystOpen] } }) ∧
    (encode (.getHystClose tag) = [0x16#8 ++ tag ++ 0#16] ∧
     exec (.getHystClose tag) s = .next { s with
      active :=
      { s.active with
        msgPort := s.active.msgPort ++ [0x81#8 ++ tag ++ 0#8 ++ 0x16#8, s.active.regs.hystClose] } }) ∧
    (encode (.getGain tag) = [0x1A#8 ++ tag ++ 0#16] ∧
     exec (.getGain tag) s = .next { s with
      active :=
      { s.active with
        msgPort := s.active.msgPort ++ [0x81#8 ++ tag ++ 0#8 ++ 0x1A#8, s.active.regs.gain] } })

/-- R201, R205, R207, R210: each SET of an F register stores the value bit for bit (NaN included), emits one REPLY with
it, and changes nothing else: no flag, no counter, no other register. -/
def Obligations.SetValueCommandsStoreAndReply : Prop :=
  ∀ (tag : Byte) (v : F) (s : State),
    (encode (.setThreshold tag v) = [0x11#8 ++ tag ++ 0#16, v] ∧
     exec (.setThreshold tag v) s = .next { s with
      active :=
      { s.active with
        regs := { s.active.regs with threshold := v }
        msgPort := s.active.msgPort ++ [0x81#8 ++ tag ++ 0#8 ++ 0x11#8, v] } }) ∧
    (encode (.setHystOpen tag v) = [0x15#8 ++ tag ++ 0#16, v] ∧
     exec (.setHystOpen tag v) s = .next { s with
      active :=
      { s.active with
        regs := { s.active.regs with hystOpen := v }
        msgPort := s.active.msgPort ++ [0x81#8 ++ tag ++ 0#8 ++ 0x15#8, v] } }) ∧
    (encode (.setHystClose tag v) = [0x17#8 ++ tag ++ 0#16, v] ∧
     exec (.setHystClose tag v) s = .next { s with
      active :=
      { s.active with
        regs := { s.active.regs with hystClose := v }
        msgPort := s.active.msgPort ++ [0x81#8 ++ tag ++ 0#8 ++ 0x17#8, v] } }) ∧
    (encode (.setGain tag v) = [0x1B#8 ++ tag ++ 0#16, v] ∧
     exec (.setGain tag v) s = .next { s with
      active :=
      { s.active with
        regs := { s.active.regs with gain := v }
        msgPort := s.active.msgPort ++ [0x81#8 ++ tag ++ 0#8 ++ 0x1B#8, v] } })

/-- R203, R208: SET_AUTOTRACK and SET_OVERRIDE store the bit, emit one REPLY with it, and change nothing else: the mute
flag, the changed flag, `NF` and `THRESHOLD` stay. -/
def Obligations.SetBitCommandsStoreAndReply : Prop :=
  ∀ (tag : Byte) (b : Bool) (s : State),
    (encode (.setAutotrack tag b) = [0x13#8 ++ tag ++ (if b then 1#16 else 0#16)] ∧
     exec (.setAutotrack tag b) s = .next { s with
      active :=
      { s.active with
        regs := { s.active.regs with autoTrack := b }
        msgPort := s.active.msgPort ++ [0x81#8 ++ tag ++ 0#8 ++ 0x13#8, if b then 1#32 else 0#32] } }) ∧
    (encode (.setOverride tag b) = [0x19#8 ++ tag ++ (if b then 1#16 else 0#16)] ∧
     exec (.setOverride tag b) s = .next { s with
      active :=
      { s.active with
        regs := { s.active.regs with override := b }
        msgPort := s.active.msgPort ++ [0x81#8 ++ tag ++ 0#8 ++ 0x19#8, if b then 1#32 else 0#32] } })

/-- R33, R136: GET_STATUS emits one REPLY whose value has the fields of STATUS, and changes nothing else: reading clears
neither CHANGED nor `FSTAT`. -/
def Obligations.StatusWordHasItsFields : Prop :=
  ∀ (tag : Byte) (s : State), encode (.getStatus tag) = [0x04#8 ++ tag ++ 0#16] ∧ ∃ w : Word,
    exec (.getStatus tag) s = .next { s with
      active :=
      { s.active with msgPort := s.active.msgPort ++ [0x81#8 ++ tag ++ 0#8 ++ 0x04#8, w] } } ∧
    (w.getLsbD 0 = true ↔ s.active.config.configured = true) ∧
    (w.getLsbD 1 = true ↔ s.active.squelch.state = .muted) ∧
    (w.getLsbD 2 = true ↔ s.active.squelch.changed = true) ∧
    (w.getLsbD 3 = true ↔ s.active.lc = .call) ∧
    (w.getLsbD 4 = true ↔ s.active.regs.autoTrack = true) ∧
    (w.getLsbD 5 = true ↔ s.active.regs.override = true) ∧
    w.extractLsb' 6 2 = 0#2 ∧
    w.extractLsb' 8 8 = s.active.fstat ∧
    w.extractLsb' 16 8 = (if s.active.config.configured then s.active.config.implActive else 0#8) ∧
    (s.active.config.configured = false → w.extractLsb' 24 5 = 0#5) ∧
    (s.active.config.configured = true → ∀ n ≤ 30, s.active.config.decimD = 2 ^ n →
      (w.extractLsb' 24 5).toNat = n) ∧
    w.extractLsb' 29 3 = 0#3

/-- R134: CAL_READ emits one REPLY with `CAL_SEL`, zero-extended, and changes nothing else. -/
def Obligations.CalReadRepliesWithCalSel : Prop :=
  ∀ (tag : Byte) (s : State),
    encode (.calRead tag) = [0x21#8 ++ tag ++ 0#16] ∧
    exec (.calRead tag) s = .next { s with
      active :=
      { s.active with
        msgPort := s.active.msgPort ++ [0x81#8 ++ tag ++ 0#8 ++ 0x21#8, s.calSel.zeroExtend 32] } }

/-- R133, 20_memory.md R83: CAL_WRITE rejects a code that is neither 1 nor a member of `LANES` (each from 2 to 255,
00_scope.md R6); else it writes `CAL_SEL` exactly when that is 0, and its REPLY carries the value `CAL_SEL` then has. -/
def Obligations.CalWriteComparesAndSets : Prop :=
  ∀ (tag code : Byte) (s : State),
    encode (.calWrite tag code) = [0x20#8 ++ tag ++ 0#8 ++ code] ∧
    exec (.calWrite tag code) s = .next
      (if ¬ (code = 1#8 ∨ (2 ≤ code.toNat ∧ code.toNat ∈ Config.lanes)) then
        { s with
      active :=
          { s.active with
            fstat := s.active.fstat ||| 0x20#8
            msgPort := s.active.msgPort ++ [0x8F#8 ++ tag ++ 6#16, code.zeroExtend 32] } }
      else if s.calSel = 0#8 then
        { s with
          calSel := code
          active :=
            { s.active with
              msgPort := s.active.msgPort ++ [0x81#8 ++ tag ++ 0#8 ++ 0x20#8, code.zeroExtend 32] } }
      else
        { s with
      active :=
          { s.active with
            msgPort := s.active.msgPort ++ [0x81#8 ++ tag ++ 1#8 ++ 0x20#8, s.calSel.zeroExtend 32] } })

/-- R32, R133: `CAL_SEL` changes only by a CAL_WRITE of a legal code that finds it 0; once it is not 0, no run of any
length changes it. -/
def Obligations.CalSelIsWrittenOnce : Prop :=
  (∀ (i : Instr) (s t : State), exec i s = .next t → t.calSel ≠ s.calSel →
    s.calSel = 0#8 ∧ ∃ tag code, i = .calWrite tag code ∧ t.calSel = code ∧
      (code = 1#8 ∨ (2 ≤ code.toNat ∧ code.toNat ∈ Config.lanes))) ∧
  (∀ (n : Nat) (s t : State), stepMany n s = .next t → s.calSel ≠ 0#8 → t.calSel = s.calSel)

/-- R135: IMPL_REQUEST rejects a code that is none of 0, 1 and the members of `LANES`; else it stores the code and
replies with it, and changes nothing else: the running demodulator stays. -/
def Obligations.ImplRequestStoresTheCode : Prop :=
  ∀ (tag code : Byte) (s : State),
    encode (.implRequest tag code) = [0x22#8 ++ tag ++ 0#8 ++ code] ∧
    exec (.implRequest tag code) s = .next { s with
      active :=
      if code = 0#8 ∨ code = 1#8 ∨ (2 ≤ code.toNat ∧ code.toNat ∈ Config.lanes) then
        { s.active with
          regs := { s.active.regs with implReq := code }
          msgPort := s.active.msgPort ++ [0x81#8 ++ tag ++ 0#8 ++ 0x22#8, code.zeroExtend 32] }
      else
        { s.active with
          fstat := s.active.fstat ||| 0x20#8
          msgPort := s.active.msgPort ++ [0x8F#8 ++ tag ++ 6#16, code.zeroExtend 32] } }

/-! ### SAMPLE_RATE (40_configuration.md) -/

/-- R130 and R121, with R124, R127, R128 and R129 in them: the three tests in their order, each a fault that writes only
`FSTAT` and one FAULT; else the whole configuration, every filter rebuilt empty, no message, all else kept. The channel
taps are the equiripple design's if it gives some and they are not empty, else the 60 dB fallback's if it gives some and
they are not empty; else the design fails. -/
def Obligations.SampleRateTestsThenCommits : Prop :=
  ∀ (tag : Byte) (rate : Word) (s : State),
    let c := Config.cfg
    let ch := s.active
    let fs := rate.toNat
    let bw : Nat := c.channelBw s.activeNum
    let d := decimFactor fs bw
    let g := Nat.gcd (8000 * d) fs
    let rsTaps := (c.resampTaps (8000 * d / g) (fs / g)).toList
    let decTaps := if d = 1 then [] else (c.decimTaps fs d bw).toList
    let toneTaps := (c.toneLpfTaps fs d).toList
    let equiripple := c.equiripple
      { rateNum := fs
        rateDen := d
        passCutoff := (4 / 5 : Rat) * bw
        passRipple := c.passRipple
        stopStart := (1 : Rat) * bw
        stopRipple := c.stopRipple
        gridDensity := c.gridDensity
        oddLength := c.oddLength }
    let fallback := c.fallback
      { rateNum := fs
        rateDen := d
        passCutoff := (4 / 5 : Rat) * bw
        stopStart := (1 : Rat) * bw
        minAttenDb := 60 }
    let designed :=
      if equiripple ≠ none ∧ equiripple ≠ some [] then equiripple
      else if fallback ≠ none ∧ fallback ≠ some [] then fallback
      else none
    encode (.sampleRate tag rate) = [0x01#8 ++ tag ++ 0#16, rate] ∧
    exec (.sampleRate tag rate) s = .next { s with
      active :=
      if fs = 0 then
        { ch with
          fstat := ch.fstat ||| 0x20#8
          msgPort := ch.msgPort ++ [0x8F#8 ++ tag ++ 6#16, 0#32] }
      else if fs < 2 * bw * d then
        { ch with
          fstat := ch.fstat ||| 0x01#8
          msgPort := ch.msgPort ++ [0x8F#8 ++ tag ++ 1#16, rate] }
      else match designed with
      | none =>
        { ch with
          fstat := ch.fstat ||| 0x02#8
          msgPort := ch.msgPort ++ [0x8F#8 ++ tag ++ 2#16, rate] }
      | some taps =>
        { ch with
          config :=
            { configured := true
              fsIn := rate
              decimD := d
              implActive := if ch.regs.implReq ≠ 0#8 then ch.regs.implReq else if s.calSel ≠ 0#8 then s.calSel else 1#8
              sqRate := (rate, d)
              chTaps := taps
              decTaps := decTaps
              toneTaps := toneTaps
              rsTaps := rsTaps
              rsL := 8000 * d / g
              rsM := fs / g
              coeff := c.toneList.map (fun f => c.goertzelCoeff f fs d)
              toneWin := 500 * fs / (1000 * d) }
          dec :=
            { iDl := List.replicate decTaps.length 0#32
              qDl := List.replicate decTaps.length 0#32
              iR := 0
              qR := 0 }
          fir :=
            { iDl := List.replicate taps.length 0#32
              qDl := List.replicate taps.length 0#32 }
          tone :=
            { ch.tone with
              dl := List.replicate toneTaps.length 0#32
              q1 := List.replicate c.nt 0#32
              q2 := List.replicate c.nt 0#32
              n := 0 }
          resampler :=
            { dl := List.replicate (ceildiv rsTaps.length (8000 * d / g)) 0#32
              acc := 0 } } }

/-- R125: for a 32-bit rate and a positive bandwidth the loop ends, at the largest power of two that keeps the decimated
rate at twice the bandwidth or more, or at 1. -/
def Obligations.DecimationFactorIsTheLargestPowerOfTwo : Prop :=
  ∀ fs bw : Nat, fs < 2 ^ 32 → 0 < bw →
    (∃ n ≤ 30, decimFactor fs bw = 2 ^ n) ∧
    fs < 4 * bw * decimFactor fs bw ∧
    (decimFactor fs bw = 1 ∨ 2 * bw * decimFactor fs bw ≤ fs) ∧
    (∀ m, 2 * bw * 2 ^ m ≤ fs → 2 ^ m ≤ decimFactor fs bw)

/-- R126: a rate of at least twice the bandwidth is accepted (where the design succeeds) and its decimated rate is at
least twice the bandwidth; a smaller one is rejected with code 1, and nothing but `FSTAT` and the message changes. -/
def Obligations.RateIsAcceptedFromTwiceTheBandwidth : Prop :=
  ∀ (c : Cfg) (num : Nat) (cal tag : Byte) (rate : Word) (ch : Channel), rate ≠ 0#32 →
    (2 * (c.channelBw num : Nat) ≤ rate.toNat → (∀ spec, design c spec ≠ none) →
      let ch' := sampleRate c num cal tag rate ch
      ch'.config.configured = true ∧ ch'.config.fsIn = rate ∧ (∃ n, ch'.config.decimD = 2 ^ n) ∧
      2 * (c.channelBw num : Nat) * ch'.config.decimD ≤ rate.toNat ∧ ch'.msgPort = ch.msgPort) ∧
    (rate.toNat < 2 * (c.channelBw num : Nat) →
      sampleRate c num cal tag rate ch =
        { ch with
          fstat := ch.fstat ||| 0x01#8
          msgPort := ch.msgPort ++ [0x8F#8 ++ tag ++ 1#16, rate] })

/-- R128: the resampling ratio is the audio rate over the decimated rate, exactly, in lowest terms. -/
def Obligations.ResamplingRatioIsInLowestTerms : Prop :=
  ∀ fs d : Nat, 0 < fs → 0 < d →
    resampL fs d = 8000 * d / Nat.gcd (8000 * d) fs ∧ resampM fs d = fs / Nat.gcd (8000 * d) fs ∧
    resampL fs d * fs = 8000 * d * resampM fs d ∧ Nat.Coprime (resampL fs d) (resampM fs d) ∧
    0 < resampL fs d ∧ 0 < resampM fs d

/-- R131, R34: no command but SAMPLE_RATE changes any element of the active configuration, and a SAMPLE_RATE that
faults changes none either. -/
def Obligations.OnlySampleRateChangesTheConfiguration : Prop :=
  ∀ (i : Instr) (s t : State), exec i s = .next t →
    ((∀ tag rate, i ≠ .sampleRate tag rate) ∨ faultOf Config.cfg s i ≠ none) → t.active.config = s.active.config

/-- R137, 41_datapath.md R169, 43_ctcss.md R244, 44_resampler_orchestrator.md R265: the spec's worked values, for every
configuration (the values an operation takes here do not depend on it). -/
def Obligations.WorkedValuesAgree : Prop :=
  ∀ (c : Cfg),
    -- R137
    (∀ (num : Nat) (cal tag : Byte) (ch : Channel), c.channelBw num = 15000 →
      decimFactor 29999 15000 = 1 ∧
      sampleRate c num cal tag 29999#32 ch = ch.takeFault .configRateInsufficient tag 29999#32 ∧
      sampleRate c num cal tag 0#32 ch = ch.takeFault .badArgument tag 0#32) ∧
    ([30000, 50000, 59999, 60000, 120000, 2400000].map (fun fs =>
      let d := decimFactor fs 15000
      (d, feasible fs 15000 d, fs / d, resampL fs d, resampM fs d, toneWindow fs d))
      = [(1, true, 30000, 4, 15, 15000), (1, true, 50000, 4, 25, 25000), (1, true, 59999, 8000, 59999, 29999),
         (2, true, 30000, 4, 15, 15000), (4, true, 30000, 4, 15, 15000), (64, true, 37500, 16, 75, 18750)]) ∧
    -- R169: decimate
    decimate c 2 [0x3F000000#32, 0x3F000000#32] [0x3F800000#32, 0x40400000#32, 0x40A00000#32] [0#32, 0#32] 0
      = ([0x40000000#32], [0x40A00000#32, 0x40400000#32], 1) ∧
    decimate c 2 [0x3F000000#32, 0x3F000000#32] [0x40E00000#32, 0x41100000#32, 0x41300000#32]
        [0x40A00000#32, 0x40400000#32] 1
      = ([0x40C00000#32, 0x41200000#32], [0x41300000#32, 0x41100000#32], 0) ∧
    (let y := decimate c 4 (List.replicate 4 0x3E800000#32)
        [0x40800000#32, 0x41000000#32, 0x41400000#32, 0x41800000#32, 0x41A00000#32, 0x41C00000#32, 0x41E00000#32,
         0x42000000#32] (List.replicate 4 0#32) 0
     (y.1, y.2.2) = ([0x41200000#32, 0x41D00000#32], 0)) ∧
    (∀ (taps dl : List F) (r : Nat),
      decimate c 1 taps [0x3FC00000#32, 0x80000000#32, 0x40E00000#32] dl r
        = ([0x3FC00000#32, 0x80000000#32, 0x40E00000#32], dl, r)) ∧
    -- R169: channel filter
    fir c [0x3F800000#32] [0x80000000#32, 0x40200000#32] [0#32] = ([0x00000000#32, 0x40200000#32], [0x40200000#32]) ∧
    fir c [0x3E800000#32, 0x3F000000#32, 0x3E800000#32] [0#32, 0x40800000#32] [0#32, 0x41400000#32, 0x41000000#32]
      = ([0x40400000#32, 0x3F800000#32], [0x40800000#32, 0#32, 0#32]) ∧
    -- R169: demodulator
    demod c 0x3F000000#32 [0#32, 0x40C00000#32, 0xC0A00000#32] [0#32, 0x41000000#32, 0x41400000#32]
      = [0x00000000#32, 0x40A00000#32, 0x40D00000#32] ∧
    demod c 0x3F800000#32 [0x3F800000#32] [0x3F800000#32] = [0x3FB504F3#32] ∧
    -- R265
    (let y := resample c 1 1 [0x3F800000#32] [0x41200000#32, 0x41200000#32] { dl := [0#32], acc := 0 }
     (y.1, y.2.acc) = ([0x41200000#32, 0x41200000#32], 0)) ∧
    (let y := resample c 2 3 [0x3F800000#32, 0x3F800000#32]
        [0x3F800000#32, 0x40000000#32, 0x40400000#32, 0x40800000#32, 0x40A00000#32, 0x40C00000#32, 0x40E00000#32]
        { dl := [0#32], acc := 0 }
     (y.1, y.2.acc) = ([0x3F800000#32, 0x40000000#32, 0x40800000#32, 0x40A00000#32, 0x40E00000#32], 1)) ∧
    resample c 2 1 [0x3F000000#32, 0x3F800000#32, 0x3F000000#32] [0x40000000#32, 0x40800000#32]
        { dl := [0#32, 0#32], acc := 0 }
      = ([0x3F800000#32, 0x40000000#32, 0x40400000#32, 0x40800000#32],
         { dl := [0x40800000#32, 0x40000000#32], acc := 0 }) ∧
    (let y := resample c 2 1 [0x3F000000#32, 0x3F800000#32, 0x3F000000#32] [0#32]
        { dl := [0x40800000#32, 0x40000000#32], acc := 0 }
     (y.1, y.2.acc) = ([0x40000000#32, 0#32], 0)) ∧
    (let y := resample c 1 2 [0x3F000000#32, 0x3F000000#32]
        [0x40000000#32, 0x40800000#32, 0x40C00000#32, 0x41000000#32, 0x41200000#32] { dl := [0#32, 0#32], acc := 0 }
     (y.1, y.2.acc) = ([0x3F800000#32, 0x40A00000#32, 0x41100000#32], 1)) ∧
    (∀ (taps a dl : List F), a.length = 25 →
      (resample c 4 25 taps a { dl := dl, acc := 0 }).1.length = 4 ∧
      (resample c 4 25 taps a { dl := dl, acc := 0 }).2.acc = 0) ∧
    -- R244, with R236 and R237
    (let run := fun (k : F) => [0x3F800000#32, 0#32, 0xBF800000#32, 0#32].foldl (fun (p : List (F × F)) x =>
        let q := goertzelStep c [k] [(p.getLastD (0#32, 0#32)).1] [(p.getLastD (0#32, 0#32)).2] x
        p ++ [(memRead q.1 0, memRead q.2 0)]) []
     run 0#32 = [(0x3F800000#32, 0#32), (0#32, 0x3F800000#32), (0xC0000000#32, 0#32), (0#32, 0xC0000000#32)] ∧
     run 0x3F800000#32
       = [(0x3F800000#32, 0#32), (0x3F800000#32, 0x3F800000#32), (0xBF800000#32, 0x3F800000#32),
          (0xC0000000#32, 0xBF800000#32)]) ∧
    tonePowers c [0#32, 0x3F800000#32] [0#32, 0xC0000000#32] [0xC0000000#32, 0xBF800000#32]
      = [0x40800000#32, 0x40400000#32]

/-! ### RESET (70_reset_and_hazards.md) -/

/-- R322: RESET reinitialises all dynamic state of the channel as one unit, every delay line keeping its length; the
configuration, the control registers, `CAL_SEL` and `FSTAT` stay and no message is sent; twice is the same as once,
which is R322's sentence and the model's choice over R76 (log entry 15). -/
def Obligations.ResetReinitialisesTheDynamicState : Prop :=
  ∀ (tag : Byte) (s : State),
    let ch := s.active
    let t : State := { s with
      active :=
      { ch with
        dec :=
          { iDl := List.replicate ch.dec.iDl.length 0#32
            qDl := List.replicate ch.dec.qDl.length 0#32
            iR := 0
            qR := 0 }
        fir :=
          { iDl := List.replicate ch.fir.iDl.length 0#32
            qDl := List.replicate ch.fir.qDl.length 0#32 }
        squelch := { state := .muted, changed := false, openCnt := 0, closeCnt := 0, nf := none }
        tone :=
          { dl := List.replicate ch.tone.dl.length 0#32
            q1 := List.replicate ch.tone.q1.length 0#32
            q2 := List.replicate ch.tone.q2.length 0#32
            n := 0
            cur := none
            pend := none
            matchCnt := 0
            lossCnt := 0
            lastTx := 0#32 }
        resampler := { dl := List.replicate ch.resampler.dl.length 0#32, acc := 0 }
        lc := .idle } }
    encode (.reset tag) = [0x03#8 ++ tag ++ 0#16] ∧ exec (.reset tag) s = .next t ∧ exec (.reset tag) t = .next t

/-! ### IQ_BLOCK (44_resampler_orchestrator.md R270 to R276) -/

/-- R270, R167, R294: the three faults of IQ_BLOCK in their order, each a step that writes only `FSTAT` and one FAULT. -/
def Obligations.IqBlockFaultsInOrder : Prop :=
  ∀ (tag : Byte) (ts : Word) (i q : List F) (s : State),
    let ch := s.active
    let k := (ch.dec.iR + i.length) / ch.config.decimD
    (i.length = 0 →
      exec (.iqBlock tag ts i q) s = .next { s with
      active :=
        { ch with
          fstat := ch.fstat ||| 0x20#8
          msgPort := ch.msgPort ++ [0x8F#8 ++ tag ++ 6#16, 0#32] } }) ∧
    (i.length ≠ 0 → ch.config.configured = false →
      exec (.iqBlock tag ts i q) s = .next { s with
      active :=
        { ch with
          fstat := ch.fstat ||| 0x08#8
          msgPort := ch.msgPort ++ [0x8F#8 ++ tag ++ 4#16, 0#32] } }) ∧
    (i.length ≠ 0 → ch.config.configured = true → ch.config.implActive ≠ 1#8 →
      k % ch.config.implActive.toNat ≠ 0 →
      exec (.iqBlock tag ts i q) s = .next { s with
      active :=
        { ch with
          fstat := ch.fstat ||| 0x04#8
          msgPort := ch.msgPort ++ [0x8F#8 ++ tag ++ 3#16, BitVec.ofNat 32 k] } })

/-- R270, R160: a block that meets the preconditions completes. Both branches are decimated and filtered with the shared
taps, demodulated with the gain in force, evaluated by the squelch unless empty, classified, resampled while unmuted,
and given to the tone decoder; each unit's state is what its stage leaves, the messages are LIFECYCLE, AUDIO, TONE in
this order, and nothing else changes. -/
def Obligations.IqBlockRunsItsStagesInOrder : Prop :=
  ∀ (tag : Byte) (ts : Word) (i q : List F) (s : State),
    let c := Config.cfg
    let ch := s.active
    let cf := ch.config
    let k := (ch.dec.iR + i.length) / cf.decimD
    let di := decimate c cf.decimD cf.decTaps i ch.dec.iDl ch.dec.iR
    let dq := decimate c cf.decimD cf.decTaps q ch.dec.qDl ch.dec.qR
    let fi := fir c cf.chTaps di.1 ch.fir.iDl
    let fq := fir c cf.chTaps dq.1 ch.fir.qDl
    let a := demod c ch.regs.gain fi.1 fq.1
    let start : Channel := { ch with squelch := { ch.squelch with changed := false } }
    let sq := if a = [] then start else squelchEval c a start
    let y := resample c cf.rsL cf.rsM cf.rsTaps a ch.resampler
    let tones := toneRun c cf ts a ch.tone
    let ev := lifecycleEvent ch.lc sq.squelch.state
    i.length = q.length → i.length ≠ 0 → cf.configured = true →
    (cf.implActive = 1#8 ∨ k % cf.implActive.toNat = 0) →
    exec (.iqBlock tag ts i q) s = .next { s with
      active :=
      { cmdPort := ch.cmdPort
        msgPort := ch.msgPort ++ messageWords (.lifecycle ev (ev == LcEvent.start) (c.channelId s.activeNum) ts ::
          ((if sq.squelch.state = .unmuted then audioMessages ts y.1 else []) ++ tones.2))
        regs := sq.regs
        config := cf
        dec := { iDl := di.2.1, qDl := dq.2.1, iR := di.2.2, qR := dq.2.2 }
        fir := { iDl := fi.2, qDl := fq.2 }
        squelch := sq.squelch
        tone := tones.1
        resampler := if sq.squelch.state = .unmuted then y.2 else ch.resampler
        lc := if sq.squelch.state = .unmuted then .call else .idle
        fstat := ch.fstat } }

/-- R271, R273, R274, R275, R264: the messages of a completed block. LIFECYCLE first, its event and the state after by
the table, `AGC_RESET` exactly at START; then AUDIO, none while muted (the resampler then keeps its state); then TONE;
all with the block's timestamp. START leaves `GAIN` alone. -/
def Obligations.BlockMessagesFollowTheLifecycleTable : Prop :=
  ∀ (tag : Byte) (ts : Word) (i q : List F) (s : State),
    let ch := s.active
    let k := (ch.dec.iR + i.length) / ch.config.decimD
    i.length = q.length → i.length ≠ 0 → ch.config.configured = true →
    (ch.config.implActive = 1#8 ∨ k % ch.config.implActive.toNat = 0) →
    ∃ t ev agc audio tones, exec (.iqBlock tag ts i q) s = .next t ∧
      t.active.msgPort = ch.msgPort ++
        messageWords (.lifecycle ev agc (Config.cfg.channelId s.activeNum) ts :: (audio ++ tones)) ∧
      (ch.lc = .idle → t.active.squelch.state = .unmuted → ev = .start ∧ t.active.lc = .call) ∧
      (ch.lc = .call → t.active.squelch.state = .unmuted → ev = .continuation ∧ t.active.lc = .call) ∧
      (ch.lc = .call → t.active.squelch.state = .muted → ev = .ending ∧ t.active.lc = .idle) ∧
      (ch.lc = .idle → t.active.squelch.state = .muted → ev = .idle ∧ t.active.lc = .idle) ∧
      (agc = true ↔ ev = .start) ∧
      (∀ m ∈ audio, m.isAudio = true ∧ m.timestamp = some ts) ∧
      (t.active.squelch.state = .muted → audio = [] ∧ t.active.resampler = ch.resampler) ∧
      (∀ m ∈ tones, m.isSoundTone = true ∧ m.timestamp = some ts) ∧
      t.active.regs.gain = ch.regs.gain

/-- R272: a block too short for an output sample is absorbed by the decimators; the filters, the demodulator and the
resampler do nothing, the squelch is not evaluated, CHANGED is cleared, the event is CONTINUATION or IDLE, no AUDIO is
sent, and of the tone decoder only the rebroadcast check runs. -/
def Obligations.EmptyDecimatedBlockIsAbsorbed : Prop :=
  ∀ (tag : Byte) (ts : Word) (i q : List F) (s : State),
    let c := Config.cfg
    let ch := s.active
    let tones := toneRebroadcast c ts ch.tone
    i.length = q.length → i.length ≠ 0 → ch.config.configured = true → ch.BranchesInStep → ch.CallMatchesSquelch →
    ch.dec.iR + i.length < ch.config.decimD →
    exec (.iqBlock tag ts i q) s = .next { s with
      active :=
      { ch with
        dec :=
          { iDl := (i.reverse ++ ch.dec.iDl).take ch.dec.iDl.length
            qDl := (q.reverse ++ ch.dec.qDl).take ch.dec.qDl.length
            iR := ch.dec.iR + i.length
            qR := ch.dec.qR + q.length }
        squelch := { ch.squelch with changed := false }
        tone := tones.1
        msgPort := ch.msgPort ++ messageWords
          (.lifecycle (if ch.squelch.state = .unmuted then .continuation else .idle) false
            (c.channelId s.activeNum) ts :: tones.2) } }

/-! ### Datapath (41_datapath.md) -/

/-- R162, with R161: the number of outputs, the remainder, output `j` from input `(j+1)·D − 1` on (newest first, what
the delay line held after it), and the same samples and state however the input is cut into blocks. -/
def Obligations.DecimatorOutputsDoNotDependOnBlocks : Prop :=
  ∀ (c : Cfg) (d : Nat) (taps xs dl : List F) (r : Nat), r < d →
    (decimate c d taps xs dl r).1.length = (r + xs.length) / d ∧
    (decimate c d taps xs dl r).2.2 = (r + xs.length) % d ∧
    (d = 1 → decimate c d taps xs dl r = (xs, dl, r)) ∧
    (d ≠ 1 → r = 0 → ∀ j < xs.length / d,
      (decimate c d taps xs dl r).1[j]? = some (dot c taps (((xs.take ((j + 1) * d)).reverse ++ dl).take dl.length))) ∧
    (∀ blocks : List (List F), blocks.flatten = xs → decimateBlocks c d taps blocks dl r = decimate c d taps xs dl r)

/-- R163: the channel filter returns, for each input, the sum of taps times samples, newest first, in ascending order
from `+0.0`, samples before the block read from the delay line; afterwards the line holds the newest samples. -/
def Obligations.ChannelFilterIsAConvolution : Prop :=
  ∀ (c : Cfg) (taps xs dl : List F), dl.length = taps.length →
    (fir c taps xs dl).1.length = xs.length ∧
    (∀ n < xs.length, (fir c taps xs dl).1[n]? =
      some ((List.range taps.length).foldl (fun acc j =>
        fadd c acc (fmul c (memRead taps j) (if j ≤ n then memRead xs (n - j) else memRead dl (j - n - 1)))) 0#32)) ∧
    (fir c taps xs dl).2 = (xs.reverse ++ dl).take dl.length

/-- R165, R166, R167: the demodulator is sample by sample `sqrt(i² + q²)` times the gain; what a block does is the same
for every variant; the length the lane test predicts is the length the demodulator is given. -/
def Obligations.DemodulatorIsElementwiseForEveryVariant : Prop :=
  (∀ (c : Cfg) (gain : F) (fi fq : List F), fi.length = fq.length →
    (demod c gain fi fq).length = fi.length ∧
    ∀ n < fi.length, memRead (demod c gain fi fq) n =
      fmul c (fsqrt c (fadd c (fmul c (memRead fi n) (memRead fi n)) (fmul c (memRead fq n) (memRead fq n)))) gain) ∧
  (∀ (c : Cfg) (channelId ts : Word) (i q : List F) (ch : Channel) (v : Byte),
    runBlock c channelId ts i q { ch with config := { ch.config with implActive := v } } =
      { runBlock c channelId ts i q ch with config := { ch.config with implActive := v } }) ∧
  (∀ (c : Cfg) (i q : List F) (ch : Channel), ch.BranchesInStep → i.length = q.length →
    (frontEnd c ch i q).1.length = (ch.dec.iR + i.length) / ch.config.decimD)

/-- 00_scope.md R10: a rounded magnitude is the nearest one, and of two equally near the even one. Magnitudes are
patterns below infinity's, `n / d` the exact value, in units of the least subnormal, `2^-149`. The result is infinity
exactly from half an ulp above the largest finite value on, that is from `(2^25 - 1) * 2^252` units (PRESUMED, IEEE 754:
log entry 10). -/
def Obligations.RoundingIsToNearestEven : Prop :=
  ∀ n d : Nat, 0 < d →
    roundMag n d ≤ infMag ∧
    (roundMag n d = infMag ↔ (2 ^ 25 - 1) * 2 ^ 252 * d ≤ n) ∧
    ∀ v w : Nat, roundMag n d = v → v < infMag → w < infMag →
      let err := fun m => (((units (mkF false m) * d : Nat) : Int) - (n : Int)).natAbs
      err v ≤ err w ∧ (err v = err w → w ≠ v → v % 2 = 0)

/-! ### Squelch (42_squelch.md) -/

/-- R196: with `OVERRIDE` 0, an unmuted channel mutes only at the last of `CLOSE_DEBOUNCE` consecutive blocks each below
the close level, and does mute there; with a debounce of two or more a single low block followed by one that is not
leaves it unmuted with the counter at 0. -/
def Obligations.MutingTakesTheFullCloseDebounce : Prop :=
  ∀ (c : Cfg) (ch : Channel), ch.regs.override = false → ch.squelch.state = .unmuted → ch.squelch.closeCnt = 0 →
    let low := fun a => flt (blockPower c a) (fsub c ch.regs.threshold ch.regs.hystClose)
    (∀ blocks : List (List F),
      (∀ n < blocks.length, (squelchBlocks c (blocks.take n) ch).squelch.state = .unmuted) →
      (squelchBlocks c blocks ch).squelch.state = .muted →
      (c.closeDebounce : Nat) ≤ blocks.length ∧ ∀ a ∈ blocks.drop (blocks.length - c.closeDebounce), low a = true) ∧
    (∀ blocks : List (List F), blocks.length = c.closeDebounce → (∀ a ∈ blocks, low a = true) →
      (squelchBlocks c blocks ch).squelch.state = .muted ∧ (squelchBlocks c blocks ch).squelch.changed = true) ∧
    (∀ a b : List F, 2 ≤ (c.closeDebounce : Nat) → low a = true → low b = false →
      (squelchBlocks c [a, b] ch).squelch.state = .unmuted ∧ (squelchBlocks c [a, b] ch).squelch.closeCnt = 0)

/-- R192 to R195: with `OVERRIDE` 0, a muted channel unmutes only at the last of `OPEN_DEBOUNCE` consecutive blocks each
above its open level, and does unmute there; with a debounce of two or more one block above it followed by one that is
not leaves the channel muted with the counter at 0. The open level of a block is `HYST_OPEN` above the threshold in
force at its comparison: with `AUTO_TRACK` 1 the one the tracker has just written from that block's own power, else
`THRESHOLD` as it stands. `before n` is the channel before block `n`. -/
def Obligations.UnmutingTakesTheFullOpenDebounce : Prop :=
  ∀ (c : Cfg) (ch : Channel), ch.regs.override = false → ch.squelch.state = .muted → ch.squelch.openCnt = 0 →
    let threshold := fun (ch : Channel) (a : List F) =>
      if ch.regs.autoTrack then fadd c (c.track ch.squelch.nf (blockPower c a)) c.autoOffset else ch.regs.threshold
    let high := fun (ch : Channel) (a : List F) =>
      fgt (blockPower c a) (fadd c (threshold ch a) ch.regs.hystOpen)
    (∀ blocks : List (List F),
      let before := fun n => squelchBlocks c (blocks.take n) ch
      (∀ n < blocks.length, (before n).squelch.state = .muted) →
      (squelchBlocks c blocks ch).squelch.state = .unmuted →
      (c.openDebounce : Nat) ≤ blocks.length ∧
      ∀ n a, blocks.length - c.openDebounce ≤ n → blocks[n]? = some a → high (before n) a = true) ∧
    (∀ blocks : List (List F),
      let before := fun n => squelchBlocks c (blocks.take n) ch
      blocks.length = c.openDebounce → (∀ n a, blocks[n]? = some a → high (before n) a = true) →
      (squelchBlocks c blocks ch).squelch.state = .unmuted ∧ (squelchBlocks c blocks ch).squelch.changed = true) ∧
    (∀ a b : List F, 2 ≤ (c.openDebounce : Nat) → high ch a = true → high (squelchEval c a ch) b = false →
      (squelchBlocks c [a, b] ch).squelch.state = .muted ∧ (squelchBlocks c [a, b] ch).squelch.openCnt = 0)

/-- R197: while `OVERRIDE` is 1 every block that yields a demodulated sample ends unmuted, both counters 0, the changed
flag set exactly when it began muted, and the event a START or a CONTINUATION accordingly. -/
def Obligations.OverrideUnmutesAtTheNextBlock : Prop :=
  ∀ (tag : Byte) (ts : Word) (i q : List F) (s : State),
    let ch := s.active
    let k := (ch.dec.iR + i.length) / ch.config.decimD
    i.length = q.length → ch.config.configured = true → ch.BranchesInStep → ch.CallMatchesSquelch →
    (ch.config.implActive = 1#8 ∨ k % ch.config.implActive.toNat = 0) → 0 < k → ch.regs.override = true →
    ∃ t more, exec (.iqBlock tag ts i q) s = .next t ∧
      t.active.squelch.state = .unmuted ∧ t.active.squelch.openCnt = 0 ∧ t.active.squelch.closeCnt = 0 ∧
      (t.active.squelch.changed = true ↔ ch.squelch.state = .muted) ∧ t.active.regs.override = true ∧
      t.active.msgPort = ch.msgPort ++ messageWords
        (.lifecycle (if ch.squelch.state = .muted then .start else .continuation) (ch.squelch.state == .muted)
          (Config.cfg.channelId s.activeNum) ts :: more)

/-- R194: with `AUTO_TRACK` in state MUTED an evaluation moves the estimate by `Track` and puts the threshold
`AUTO_OFFSET` above it; otherwise it writes neither; it writes no other register. The decision of the same block
(`OVERRIDE` 0) counts it against the threshold just written (the order of R195). -/
def Obligations.TrackerMovesTheThresholdOnlyWhileMuted : Prop :=
  ∀ (c : Cfg) (a : List F) (ch : Channel),
    (ch.regs.autoTrack = true → ch.squelch.state = .muted →
      (squelchEval c a ch).squelch.nf = some (c.track ch.squelch.nf (blockPower c a)) ∧
      (squelchEval c a ch).regs =
        { ch.regs with threshold := fadd c (c.track ch.squelch.nf (blockPower c a)) c.autoOffset } ∧
      (ch.regs.override = false →
        let high := fgt (blockPower c a)
          (fadd c (fadd c (c.track ch.squelch.nf (blockPower c a)) c.autoOffset) ch.regs.hystOpen)
        let count := if high then ch.squelch.openCnt + 1 else 0
        (squelchEval c a ch).squelch.openCnt = (if count = c.openDebounce then 0 else count) ∧
        ((squelchEval c a ch).squelch.state = .unmuted ↔ count = c.openDebounce))) ∧
    (ch.regs.autoTrack = false ∨ ch.squelch.state = .unmuted →
      (squelchEval c a ch).squelch.nf = ch.squelch.nf ∧ (squelchEval c a ch).regs = ch.regs)

/-- 00_scope.md R12: a NaN sample makes the block power NaN; a squelch whose power, or whose untracked threshold, is NaN
keeps its state and clears its counter; a window with a NaN power has no candidate. -/
def Obligations.NanNeverDecides : Prop :=
  (∀ (c : Cfg) (a : List F), (∃ x ∈ a, isNaN x = true) → isNaN (blockPower c a) = true) ∧
  (∀ (c : Cfg) (a : List F) (ch : Channel), ch.regs.override = false →
    (isNaN (blockPower c a) = true ∨
      ((ch.regs.autoTrack = false ∨ ch.squelch.state = .unmuted) ∧ isNaN ch.regs.threshold = true)) →
    (squelchEval c a ch).squelch.state = ch.squelch.state ∧ (squelchEval c a ch).squelch.changed = ch.squelch.changed ∧
    (ch.squelch.state = .muted → (squelchEval c a ch).squelch.openCnt = 0) ∧
    (ch.squelch.state = .unmuted → (squelchEval c a ch).squelch.closeCnt = 0)) ∧
  (∀ (c : Cfg) (pw : List F), (∃ x ∈ pw, isNaN x = true) → candidate c pw = none)

/-- R211: the worked trace of nine blocks, power by power and state by state, from a muted channel. -/
def Obligations.WorkedSquelchTraceAgrees : Prop :=
  ∀ (c : Cfg) (ch : Channel), (c.openDebounce : Nat) = 2 → (c.closeDebounce : Nat) = 3 →
    ch.regs.threshold = 0x41200000#32 → ch.regs.hystOpen = 0x40400000#32 → ch.regs.hystClose = 0x40C00000#32 →
    ch.regs.autoTrack = false → ch.regs.override = false → ch.squelch = Squelch.reset →
    let amplitudes : List F := [0x41200000#32, 0x3F800000#32, 0x41200000#32, 0x41200000#32, 0x3F800000#32,
      0x41200000#32, 0#32, 0x3F800000#32, 0x3F800000#32]
    let after := fun n => ((amplitudes.take n).foldl (fun ch x => squelchStage c (List.replicate 4 x) ch) ch).squelch
    amplitudes.map (fun x => blockPower c (List.replicate 4 x)) =
      [0x41A00000#32, 0#32, 0x41A00000#32, 0x41A00000#32, 0#32, 0x41A00000#32, 0xFF800000#32, 0#32, 0#32] ∧
    [1, 2, 3, 4, 5, 6, 7, 8, 9].map (fun n =>
        ((after n).openCnt, (after n).closeCnt, (after n).state, (after n).changed)) =
      [(1, 0, .muted, false), (0, 0, .muted, false), (1, 0, .muted, false), (0, 0, .unmuted, true),
       (0, 1, .unmuted, false), (0, 0, .unmuted, false), (0, 1, .unmuted, false), (0, 2, .unmuted, false),
       (0, 0, .muted, true)]

/-! ### Tone decoder (43_ctcss.md) -/

/-- R234, R236, R237, R239, R242: each tone's registers follow the recursion over the pre-filtered samples alone,
whatever the other tones do. Samples that do not complete the window change nothing of the debounce state and send
nothing; samples that just complete it are evaluated once, from the powers of those registers, which are then zeroed
with the fill, while the pre-filter's delay line goes on. -/
def Obligations.WindowIsEvaluatedFromItsOwnSamples : Prop :=
  ∀ (c : Cfg) (cf : ActiveConfig) (ts : Word) (a : List F) (d : ToneDecoder),
    d.q1.length = cf.coeff.length → d.q2.length = cf.coeff.length →
    let x := fir c cf.toneTaps a d.dl
    let reg := fun t => x.1.foldl
      (fun (p : F × F) s => (fadd c (fsub c (fmul c (memRead cf.coeff t) p.1) p.2) s, p.1))
      (memRead d.q1 t, memRead d.q2 t)
    let power := fun t => fsub c (fadd c (fmul c (reg t).1 (reg t).1) (fmul c (reg t).2 (reg t).2))
      (fmul c (fmul c (memRead cf.coeff t) (reg t).1) (reg t).2)
    let tones := List.range cf.coeff.length
    (d.n + a.length < cf.toneWin →
      toneSamples c cf ts a d =
        ({ d with
           dl := x.2
           q1 := tones.map (fun t => (reg t).1)
           q2 := tones.map (fun t => (reg t).2)
           n := d.n + a.length }, [])) ∧
    (a ≠ [] → d.n + a.length = cf.toneWin →
      toneSamples c cf ts a d =
        toneFsm c (candidate c (tones.map power)) ts
          { d with
            dl := x.2
            q1 := List.replicate cf.coeff.length 0#32
            q2 := List.replicate cf.coeff.length 0#32
            n := 0 })

/-- R238: a candidate is declared exactly for the tone of greatest power, the lowest index among equal ones, when its
power is above the multiple of the sum of the others and above the floor; so it is none without tones, and whenever
that tone fails a test. -/
def Obligations.CandidateIsTheFirstStrongestTone : Prop :=
  (∀ c : Cfg, candidate c [] = none) ∧
  ∀ (c : Cfg) (pw : List F) (m : Nat), candidate c pw = some m ↔
    m < pw.length ∧ (∀ t < pw.length, fgt (memRead pw t) (memRead pw m) = false) ∧
    (∀ t < m, fgt (memRead pw m) (memRead pw t) = true) ∧
    fgt (memRead pw m) (fmul c c.toneMult
      (((List.range pw.length).filter (fun t => t ≠ m)).foldl (fun s t => fadd c s (memRead pw t)) 0#32)) = true ∧
    fgt (memRead pw m) c.toneFloor = true

/-- R243, R241 and R240's displacement, with both counts 2. A tone seen in two or more windows in a row is announced
once, at the second, from which the rebroadcast interval counts; one window alone announces nothing. One window without
the current tone keeps it, two in a row lose it once, whether they show no tone or other tones. A tone that is seen in
both of those windows displaces the current one: the loss of the old, then the detection of the new, with one timestamp.
At the end of every block a current tone is announced again exactly when the block's timestamp is at least the
interval after the last announcement. -/
def Obligations.ToneDetectionAndLossTakeTwoWindows : Prop :=
  ∀ c : Cfg, (c.matchCount : Nat) = 2 → (c.lossCount : Nat) = 2 →
    (∀ (d : ToneDecoder) (t : Nat) (ts₁ ts₂ : Word) (later : List Word), d.cur = none → d.pend = none →
      let held := toneWindows c ((some t, ts₁) :: (some t, ts₂) :: later.map (fun ts => (some t, ts))) d
      held.2 = [.tone (BitVec.ofNat 16 t) false false ts₂] ∧ held.1.cur = some t ∧ held.1.lastTx = ts₂ ∧
      (toneWindows c [(some t, ts₁), (none, ts₂)] d).2 = []) ∧
    (∀ (d : ToneDecoder) (t : Nat) (ts₁ ts₂ : Word), d.cur = some t → d.lossCnt = 0 →
      (toneWindows c [(none, ts₁), (some t, ts₂)] d).2 = [] ∧
      (toneWindows c [(none, ts₁), (some t, ts₂)] d).1.cur = some t ∧
      (toneWindows c [(none, ts₁), (some t, ts₂)] d).1.lossCnt = 0 ∧
      (toneWindows c [(none, ts₁), (none, ts₂)] d).2 = [.tone (BitVec.ofNat 16 t) true false ts₂] ∧
      (toneWindows c [(none, ts₁), (none, ts₂)] d).1.cur = none) ∧
    (∀ (d : ToneDecoder) (t u v : Nat) (ts₁ ts₂ : Word), d.cur = some t → d.pend = none → d.lossCnt = 0 →
      u ≠ t → v ≠ t → v ≠ u →
      let lost := Message.tone (BitVec.ofNat 16 t) true false ts₂
      let once := toneWindows c [(some u, ts₁)] d
      let back := toneWindows c [(some u, ts₁), (some t, ts₂)] d
      let gone := toneWindows c [(some u, ts₁), (none, ts₂)] d
      let other := toneWindows c [(some u, ts₁), (some v, ts₂)] d
      let displaced := toneWindows c [(some u, ts₁), (some u, ts₂)] d
      (once.2 = [] ∧ once.1.cur = some t ∧ once.1.lossCnt = 1) ∧
      (back.2 = [] ∧ back.1.cur = some t ∧ back.1.lossCnt = 0) ∧
      (gone.2 = [lost] ∧ gone.1.cur = none) ∧
      (other.2 = [lost] ∧ other.1.cur = none ∧ other.1.pend = none ∧ other.1.matchCnt = 0) ∧
      (displaced.2 = [lost, .tone (BitVec.ofNat 16 u) false false ts₂] ∧ displaced.1.cur = some u ∧
        displaced.1.lossCnt = 0 ∧ displaced.1.lastTx = ts₂)) ∧
    (∀ (cf : ActiveConfig) (ts : Word) (a : List F) (d : ToneDecoder),
      let run := toneSamples c cf ts a d
      (∀ t, run.1.cur = some t → c.rebroadcastMs ≤ ts - run.1.lastTx →
        toneRun c cf ts a d =
          ({ run.1 with lastTx := ts }, run.2 ++ [.tone (BitVec.ofNat 16 t) false true ts])) ∧
      (run.1.cur = none ∨ ts - run.1.lastTx < c.rebroadcastMs → toneRun c cf ts a d = run))

/-! ### Resampler (44_resampler_orchestrator.md R262, R263) -/

/-- R263: how many samples a block yields, the accumulator after it, and over any run of blocks a total within one of the
exact ratio. -/
def Obligations.ResamplerSampleCount : Prop :=
  ∀ (c : Cfg) (l m : Nat) (taps a : List F) (r : Resampler), 0 < m → r.acc < m →
    (resample c l m taps a r).1.length = (if r.acc < a.length * l then ceildiv (a.length * l - r.acc) m else 0) ∧
    (resample c l m taps a r).2.acc = r.acc + (resample c l m taps a r).1.length * m - a.length * l ∧
    (resample c l m taps a r).2.acc < m ∧
    ∀ blocks : List (List F),
      let n := (resampleBlocks c l m taps blocks r).1.length
      n * m < blocks.flatten.length * l + m ∧ blocks.flatten.length * l < n * m + m

/-- R262: after a reinitialisation output `o` is the sum of the taps of phase `(o·RS_M) mod RS_L` times the inputs from
input `(o·RS_M) div RS_L` backwards, earlier ones read as `+0.0`, in ascending order from `+0.0`. -/
def Obligations.ResamplerOutputsArePolyphaseSums : Prop :=
  ∀ (c : Cfg) (l m : Nat) (taps xs : List F), 0 < l → 0 < m →
    let y := (resample c l m taps xs { dl := List.replicate (ceildiv taps.length l) 0#32, acc := 0 }).1
    ∀ o < y.length,
      let n := o * m / l
      let p := o * m % l
      n < xs.length ∧
      y[o]? = some ((List.range (ceildiv (taps.length - p) l)).foldl (fun acc j =>
        fadd c acc (fmul c (memRead taps (p + j * l)) (if j ≤ n then memRead xs (n - j) else 0#32))) 0#32)

/-! ### Messages and faults (30_encoding.md R96 to R102, 60_exceptions.md) -/

/-- R96 class 1 and item 3, R291: a message header on the command port takes ILLEGAL_COMMAND: bit 4 of `FSTAT`, one
FAULT with its bits 23:16, code 5 and the header, nothing else. That such a word is a constructor of its own is the
model's choice (log entry 1). -/
def Obligations.MessageHeadersAreIllegalCommands : Prop :=
  ∀ (tag st rop : Byte) (agc rep lost : Bool) (ev : BitVec 2) (w16 : BitVec 16) (s : State),
    let illegal := fun (t : Byte) (w : Word) => ({ s with
      active :=
      { s.active with
        fstat := s.active.fstat ||| 0x10#8
        msgPort := s.active.msgPort ++ [0x8F#8 ++ t ++ 5#16, w] } } : State)
    let agcBit := if agc then 1#1 else 0#1
    let repBit := if rep then 1#1 else 0#1
    let lostBit := if lost then 1#1 else 0#1
    exec (.reply tag st rop) s = .next (illegal tag (0x81#8 ++ tag ++ st ++ rop)) ∧
    exec (.lifecycle agc ev) s = .next (illegal (0#5 ++ agcBit ++ ev) (0x82#8 ++ 0#5 ++ agcBit ++ ev ++ 0#16)) ∧
    exec (.audio w16) s = .next (illegal 0#8 (0x83#8 ++ 0#8 ++ w16)) ∧
    exec (.tone rep lost w16) s =
      .next (illegal (0#6 ++ repBit ++ lostBit) (0x84#8 ++ 0#6 ++ repBit ++ lostBit ++ w16)) ∧
    exec (.fault tag w16) s = .next (illegal tag (0x8F#8 ++ tag ++ w16))

/-- R290, R291, R293, R294: a command that faults (`faultOf` is the table of R290 in the order of R294) sets the bit of
its code, emits one FAULT with its tag, the code and `INFO`, and changes nothing else; a command that does not fault
leaves `FSTAT` alone. -/
def Obligations.FaultingCommandsChangeOnlyFstat : Prop :=
  (∀ (i : Instr) (s : State) (code : FaultCode) (info : Word), faultOf Config.cfg s i = some (code, info) →
    exec i s = .next { s with
      active :=
      { s.active with
        fstat := s.active.fstat ||| (1#8 <<< (code.number - 1))
        msgPort := s.active.msgPort ++ [0x8F#8 ++ commandTag i ++ BitVec.ofNat 16 code.number, info] } }) ∧
  (∀ (i : Instr) (s t : State), faultOf Config.cfg s i = none → exec i s = .next t →
    t.active.fstat = s.active.fstat)

/-- R98, R290: what a command may send. One FAULT and nothing else if it faults; else one REPLY with its tag and opcode
and nothing else if it is a request; else neither a REPLY nor a FAULT. -/
def Obligations.EveryRequestIsAnsweredOnce : Prop :=
  ∀ (i : Instr) (s t : State), exec i s = .next t → ∃ ms : List Message,
    t.active.msgPort = s.active.msgPort ++ messageWords ms ∧
    (∀ code info, faultOf Config.cfg s i = some (code, info) → ms = [.fault (commandTag i) code info]) ∧
    (faultOf Config.cfg s i = none → isRequest i = true →
      ∃ st value, ms = [.reply (commandTag i) st (rowOf i).code value]) ∧
    (faultOf Config.cfg s i = none → isRequest i = false → ∀ m ∈ ms, m.isReply = false ∧ m.isFault = false)

/-- 10_state.md R41: no run clears a bit of any channel's `FSTAT`, and bits 6 and 7 stay 0. -/
def Obligations.FstatBitsAreSticky : Prop :=
  ∀ (n : Nat) (s t : State), s.Each (fun _ ch => ch.FstatLegal) → stepMany n s = .next t →
    t.Each (fun _ ch => ch.FstatLegal) ∧ t.channels.length = s.channels.length ∧
    ∀ (j : Nat) (ch ch' : Channel), s.channels[j]? = some ch → t.channels[j]? = some ch' →
      ch.fstat &&& ch'.fstat = ch.fstat

/-- 44_resampler_orchestrator.md R274, 43_ctcss.md R240, R241: over any run of a channel's commands without a RESET, a
reader of its messages who follows the LIFECYCLE events knows the lifecycle state (every START is followed by one END
before the next START, with only CONTINUATION between), and one who follows the TONE messages knows the current tone.
RESET is left out because it ends both in silence (70_reset_and_hazards.md R333). -/
def Obligations.MessageStreamTracksTheChannel : Prop :=
  ∀ (is : List Instr) (s t : State), (∀ i ∈ is, notReset i = true) → execAll is s = .next t → ∃ ms : List Message,
    t.active.msgPort = s.active.msgPort ++ messageWords ms ∧
    followCall s.active.lc (ms.filterMap Message.event) = some t.active.lc ∧
    followTone (s.active.tone.cur.map (BitVec.ofNat 16)) ms = t.active.tone.cur.map (BitVec.ofNat 16)

/-! ### Reset state and invariants (10_state.md R45, R46) -/

/-- R46, 70_reset_and_hazards.md R320: after hardware reset `CAL_SEL` is 0 and each of the `NCHAN` channels is
unconfigured, muted and idle, its counters 0, its memories and ports empty, its registers at their reset values; the
block waits for its first command. -/
def Obligations.HardwareResetState : Prop :=
  State.reset.calSel = 0#8 ∧ State.reset.channels.length = Config.nchan ∧ (∀ t, step State.reset ≠ .next t) ∧
  ∀ ch ∈ State.reset.channels,
    ch.cmdPort = [] ∧ ch.msgPort = [] ∧ ch.config.configured = false ∧
    ch.regs.threshold = Config.thresholdReset ∧ ch.regs.hystOpen = Config.hystOpenReset ∧
    ch.regs.hystClose = Config.hystCloseReset ∧ ch.regs.autoTrack = false ∧ ch.regs.override = false ∧
    ch.regs.gain = Config.gainReset ∧ ch.regs.implReq = 0#8 ∧
    ch.squelch.state = .muted ∧ ch.squelch.changed = false ∧ ch.squelch.openCnt = 0 ∧ ch.squelch.closeCnt = 0 ∧
    ch.squelch.nf = none ∧ ch.tone.cur = none ∧ ch.tone.pend = none ∧ ch.tone.matchCnt = 0 ∧ ch.tone.lossCnt = 0 ∧
    ch.tone.lastTx = 0#32 ∧ ch.tone.n = 0 ∧ ch.lc = .idle ∧ ch.fstat = 0#8 ∧ ch.resampler.acc = 0 ∧
    ch.dec.iR = 0 ∧ ch.dec.qR = 0 ∧
    ch.config.chTaps = [] ∧ ch.config.decTaps = [] ∧ ch.config.toneTaps = [] ∧ ch.config.rsTaps = [] ∧
    ch.dec.iDl = [] ∧ ch.dec.qDl = [] ∧ ch.fir.iDl = [] ∧ ch.fir.qDl = [] ∧ ch.tone.dl = [] ∧ ch.resampler.dl = [] ∧
    ch.tone.q1 = List.replicate Config.cfg.nt 0#32 ∧ ch.tone.q2 = List.replicate Config.cfg.nt 0#32

/-- R45, R46: the state after hardware reset meets every invariant stated below, and waits for the host. That it waits
by a named stop is the model's choice (log entry 3); its unspecified registers have the model's values (log entry 8). -/
def Obligations.ResetMeetsEveryInvariant : Prop :=
  State.reset.Each (fun num ch =>
    ch.BranchesInStep ∧ ch.CallMatchesSquelch ∧ ch.CountersBounded Config.cfg ∧
    (ch.config.configured = true → ch.ConfigFromRate Config.cfg num) ∧ ch.MemoriesSized Config.cfg ∧
    ch.TonesListed Config.cfg ∧ ch.CodesLegal Config.cfg ∧ ch.FstatLegal) ∧
  State.reset.CalSelLegal Config.cfg ∧ step State.reset = .fault .idle

/-- R45 items 1 and 2: in every channel both branches carry the same remainder, below the factor, and a call is in
progress exactly while the squelch is open; every step keeps this. -/
def Obligations.BranchesAndCallsStayInStep : Prop :=
  ∀ s t : State, s.Each (fun _ ch => ch.BranchesInStep ∧ ch.CallMatchesSquelch) → step s = .next t →
    t.Each (fun _ ch => ch.BranchesInStep ∧ ch.CallMatchesSquelch)

/-- R45 item 3: every counter of every channel stays below its bound. -/
def Obligations.CountersStayBelowTheirBounds : Prop :=
  ∀ s t : State, s.Each (fun _ ch => ch.CountersBounded Config.cfg) → step s = .next t →
    t.Each (fun _ ch => ch.CountersBounded Config.cfg)

/-- R45 item 4, 20_memory.md R84: a configured channel's configuration stays the one its rate computes, whole. -/
def Obligations.ConfigurationStaysTheOneOfItsRate : Prop :=
  ∀ s t : State, s.Each (fun num ch => ch.config.configured = true → ch.ConfigFromRate Config.cfg num) →
    step s = .next t → t.Each (fun num ch => ch.config.configured = true → ch.ConfigFromRate Config.cfg num)

/-- R35, R36, R38, R39: every delay line and register bank keeps the length its taps or the tone list give it, and a
current or pending tone is one of the list. -/
def Obligations.MemoriesKeepTheirLengths : Prop :=
  ∀ s t : State, s.Each (fun _ ch => ch.MemoriesSized Config.cfg ∧ ch.TonesListed Config.cfg) → step s = .next t →
    t.Each (fun _ ch => ch.MemoriesSized Config.cfg ∧ ch.TonesListed Config.cfg)

/-- R32, R34, 40_configuration.md R124: the selection codes stay legal, the shared one and every channel's. -/
def Obligations.SelectionCodesStayLegal : Prop :=
  ∀ s t : State, s.CalSelLegal Config.cfg → s.Each (fun _ ch => ch.CodesLegal Config.cfg) → step s = .next t →
    t.CalSelLegal Config.cfg ∧ t.Each (fun _ ch => ch.CodesLegal Config.cfg)

end Statements
end

