-- ==== Sys2Proof/Laws/Binary32.lean ====
section
/-! SUPPORT. What proofs use of binary32: NaN goes through every operation and no comparison with it holds
(00_scope.md R10, R12). -/

namespace Sys2Proof.Machine

/-- The NaN an operation produces is a NaN. -/
@[simp] theorem isNaN_nanF (c : Cfg) (op : FOp) (a b : F) : isNaN (nanF c op a b) = true := by
  unfold nanF
  split
  · assumption
  · decide

theorem isNaN_fadd (c : Cfg) (a b : F) (h : isNaN a = true ∨ isNaN b = true) : isNaN (fadd c a b) = true := by
  unfold fadd; rw [if_pos (by simpa using h)]; simp

theorem isNaN_fsub (c : Cfg) (a b : F) (h : isNaN a = true ∨ isNaN b = true) : isNaN (fsub c a b) = true := by
  unfold fsub; rw [if_pos (by simpa using h)]; simp

theorem isNaN_fmul (c : Cfg) (a b : F) (h : isNaN a = true ∨ isNaN b = true) : isNaN (fmul c a b) = true := by
  unfold fmul; simp only; rw [if_pos (by simpa using h)]; simp

theorem isNaN_fdiv (c : Cfg) (a b : F) (h : isNaN a = true ∨ isNaN b = true) : isNaN (fdiv c a b) = true := by
  unfold fdiv; simp only; rw [if_pos (by simpa using h)]; simp

theorem isNaN_fsqrt (c : Cfg) (a : F) (h : isNaN a = true) : isNaN (fsqrt c a) = true := by
  unfold fsqrt; rw [if_pos h]; simp

theorem fgt_nan_left (a b : F) (h : isNaN a = true) : fgt a b = false := by simp [fgt, h]

theorem fgt_nan_right (a b : F) (h : isNaN b = true) : fgt a b = false := by simp [fgt, h]

/-- Nothing is greater than itself. -/
@[simp] theorem fgt_self (a : F) : fgt a a = false := by simp [fgt]

/-- "Greater" is transitive. -/
theorem fgt_trans (a b d : F) (h1 : fgt a b = true) (h2 : fgt b d = true) : fgt a d = true := by
  simp only [fgt, Bool.and_eq_true, Bool.not_eq_true', decide_eq_true_eq] at *
  exact ⟨⟨h1.1.1, h2.1.2⟩, lt_trans h2.2 h1.2⟩

/-! ### Values the configuration does not reach

On finite operands an operation answers the same in every configuration, so a worked value can be computed in any
one of them. -/

theorem isNaN_of_finite (a : F) (h : fMag a < infMag) : isNaN a = false := by
  unfold isNaN; exact decide_eq_false (by omega)

theorem isInf_of_finite (a : F) (h : fMag a < infMag) : isInf a = false := by
  unfold isInf; exact beq_false_of_ne (by omega)

theorem fadd_finite (c d : Cfg) (a b : F) (ha : fMag a < infMag) (hb : fMag b < infMag) : fadd c a b = fadd d a b := by
  simp [fadd, addCore, isNaN_of_finite, isInf_of_finite, ha, hb]

theorem fsub_finite (c d : Cfg) (a b : F) (ha : fMag a < infMag) (hb : fMag b < infMag)
    (hn : fMag (negF b) < infMag) : fsub c a b = fsub d a b := by
  simp [fsub, addCore, isNaN_of_finite, isInf_of_finite, ha, hb, hn]

theorem fmul_finite (c d : Cfg) (a b : F) (ha : fMag a < infMag) (hb : fMag b < infMag) : fmul c a b = fmul d a b := by
  simp [fmul, isNaN_of_finite, isInf_of_finite, ha, hb]

theorem fdiv_finite (c d : Cfg) (a b : F) (ha : fMag a < infMag) (hb : fMag b < infMag) (h0 : isZero b = false) :
    fdiv c a b = fdiv d a b := by
  simp [fdiv, isNaN_of_finite, isInf_of_finite, ha, hb, h0]

theorem fsqrt_finite (c d : Cfg) (a : F) (ha : fMag a < infMag) (hn : fNeg a = false) : fsqrt c a = fsqrt d a := by
  simp [fsqrt, isNaN_of_finite, isInf_of_finite, ha, hn]

/-- The values of `db` the spec states: zero, and the powers of ten up to `10^7` (R10). -/
theorem db_stated (c d : Cfg) (p : F)
    (h : isZero p = true ∨
      (isNaN p = false ∧ fNeg p = false ∧ ((List.range 8).any (fun k => p == ofNatF (10 ^ k))) = true)) :
    db c p = db d p := by
  unfold db
  rcases h with h | ⟨hn, hs, h⟩
  · simp [h]
  · cases hf : (List.range 8).find? (fun k => p == ofNatF (10 ^ k)) with
    | none =>
      rw [List.any_eq_true] at h
      obtain ⟨k, hk, hp⟩ := h
      exact absurd hp (List.find?_eq_none.mp hf k hk)
    | some k => simp [hn, hs]

end Sys2Proof.Machine
end

