-- ==== Sys2Proof/Laws/State.lean ====
section
/-! SUPPORT. One lemma per field per update of the state records, each true by `rfl`, so that no proof unfolds an
update. -/

namespace Sys2Proof.Machine

/-! ### Emitting a message -/

@[simp] theorem Channel.emit_cmdPort (ch : Channel) (m : Message) :
    (ch.emit m).cmdPort = ch.cmdPort := rfl
@[simp] theorem Channel.emit_msgPort (ch : Channel) (m : Message) :
    (ch.emit m).msgPort = ch.msgPort ++ m.words := rfl
@[simp] theorem Channel.emit_regs (ch : Channel) (m : Message) :
    (ch.emit m).regs = ch.regs := rfl
@[simp] theorem Channel.emit_config (ch : Channel) (m : Message) :
    (ch.emit m).config = ch.config := rfl
@[simp] theorem Channel.emit_dec (ch : Channel) (m : Message) :
    (ch.emit m).dec = ch.dec := rfl
@[simp] theorem Channel.emit_fir (ch : Channel) (m : Message) :
    (ch.emit m).fir = ch.fir := rfl
@[simp] theorem Channel.emit_squelch (ch : Channel) (m : Message) :
    (ch.emit m).squelch = ch.squelch := rfl
@[simp] theorem Channel.emit_tone (ch : Channel) (m : Message) :
    (ch.emit m).tone = ch.tone := rfl
@[simp] theorem Channel.emit_resampler (ch : Channel) (m : Message) :
    (ch.emit m).resampler = ch.resampler := rfl
@[simp] theorem Channel.emit_lc (ch : Channel) (m : Message) :
    (ch.emit m).lc = ch.lc := rfl
@[simp] theorem Channel.emit_fstat (ch : Channel) (m : Message) :
    (ch.emit m).fstat = ch.fstat := rfl

/-! ### Emitting messages -/

@[simp] theorem Channel.emitAll_cmdPort (ch : Channel) (ms : List Message) :
    (ch.emitAll ms).cmdPort = ch.cmdPort := rfl
@[simp] theorem Channel.emitAll_msgPort (ch : Channel) (ms : List Message) :
    (ch.emitAll ms).msgPort = ch.msgPort ++ messageWords ms := rfl
@[simp] theorem Channel.emitAll_regs (ch : Channel) (ms : List Message) :
    (ch.emitAll ms).regs = ch.regs := rfl
@[simp] theorem Channel.emitAll_config (ch : Channel) (ms : List Message) :
    (ch.emitAll ms).config = ch.config := rfl
@[simp] theorem Channel.emitAll_dec (ch : Channel) (ms : List Message) :
    (ch.emitAll ms).dec = ch.dec := rfl
@[simp] theorem Channel.emitAll_fir (ch : Channel) (ms : List Message) :
    (ch.emitAll ms).fir = ch.fir := rfl
@[simp] theorem Channel.emitAll_squelch (ch : Channel) (ms : List Message) :
    (ch.emitAll ms).squelch = ch.squelch := rfl
@[simp] theorem Channel.emitAll_tone (ch : Channel) (ms : List Message) :
    (ch.emitAll ms).tone = ch.tone := rfl
@[simp] theorem Channel.emitAll_resampler (ch : Channel) (ms : List Message) :
    (ch.emitAll ms).resampler = ch.resampler := rfl
@[simp] theorem Channel.emitAll_lc (ch : Channel) (ms : List Message) :
    (ch.emitAll ms).lc = ch.lc := rfl
@[simp] theorem Channel.emitAll_fstat (ch : Channel) (ms : List Message) :
    (ch.emitAll ms).fstat = ch.fstat := rfl

/-! ### Answering a request -/

@[simp] theorem Channel.answer_cmdPort (ch : Channel) (o : Opcode) (tag : Byte) (v : Word) :
    (ch.answer o tag v).cmdPort = ch.cmdPort := rfl
@[simp] theorem Channel.answer_msgPort (ch : Channel) (o : Opcode) (tag : Byte) (v : Word) :
    (ch.answer o tag v).msgPort = ch.msgPort ++ [replyHeader tag 0#8 o.code, v] := rfl
@[simp] theorem Channel.answer_regs (ch : Channel) (o : Opcode) (tag : Byte) (v : Word) :
    (ch.answer o tag v).regs = ch.regs := rfl
@[simp] theorem Channel.answer_config (ch : Channel) (o : Opcode) (tag : Byte) (v : Word) :
    (ch.answer o tag v).config = ch.config := rfl
@[simp] theorem Channel.answer_dec (ch : Channel) (o : Opcode) (tag : Byte) (v : Word) :
    (ch.answer o tag v).dec = ch.dec := rfl
@[simp] theorem Channel.answer_fir (ch : Channel) (o : Opcode) (tag : Byte) (v : Word) :
    (ch.answer o tag v).fir = ch.fir := rfl
@[simp] theorem Channel.answer_squelch (ch : Channel) (o : Opcode) (tag : Byte) (v : Word) :
    (ch.answer o tag v).squelch = ch.squelch := rfl
@[simp] theorem Channel.answer_tone (ch : Channel) (o : Opcode) (tag : Byte) (v : Word) :
    (ch.answer o tag v).tone = ch.tone := rfl
@[simp] theorem Channel.answer_resampler (ch : Channel) (o : Opcode) (tag : Byte) (v : Word) :
    (ch.answer o tag v).resampler = ch.resampler := rfl
@[simp] theorem Channel.answer_lc (ch : Channel) (o : Opcode) (tag : Byte) (v : Word) :
    (ch.answer o tag v).lc = ch.lc := rfl
@[simp] theorem Channel.answer_fstat (ch : Channel) (o : Opcode) (tag : Byte) (v : Word) :
    (ch.answer o tag v).fstat = ch.fstat := rfl

/-! ### Taking a fault -/

@[simp] theorem Channel.takeFault_cmdPort (ch : Channel) (code : FaultCode) (tag : Byte) (info : Word) :
    (ch.takeFault code tag info).cmdPort = ch.cmdPort := rfl
@[simp] theorem Channel.takeFault_msgPort (ch : Channel) (code : FaultCode) (tag : Byte) (info : Word) :
    (ch.takeFault code tag info).msgPort = ch.msgPort ++ [faultHeader tag (BitVec.ofNat 16 code.number), info] := rfl
@[simp] theorem Channel.takeFault_regs (ch : Channel) (code : FaultCode) (tag : Byte) (info : Word) :
    (ch.takeFault code tag info).regs = ch.regs := rfl
@[simp] theorem Channel.takeFault_config (ch : Channel) (code : FaultCode) (tag : Byte) (info : Word) :
    (ch.takeFault code tag info).config = ch.config := rfl
@[simp] theorem Channel.takeFault_dec (ch : Channel) (code : FaultCode) (tag : Byte) (info : Word) :
    (ch.takeFault code tag info).dec = ch.dec := rfl
@[simp] theorem Channel.takeFault_fir (ch : Channel) (code : FaultCode) (tag : Byte) (info : Word) :
    (ch.takeFault code tag info).fir = ch.fir := rfl
@[simp] theorem Channel.takeFault_squelch (ch : Channel) (code : FaultCode) (tag : Byte) (info : Word) :
    (ch.takeFault code tag info).squelch = ch.squelch := rfl
@[simp] theorem Channel.takeFault_tone (ch : Channel) (code : FaultCode) (tag : Byte) (info : Word) :
    (ch.takeFault code tag info).tone = ch.tone := rfl
@[simp] theorem Channel.takeFault_resampler (ch : Channel) (code : FaultCode) (tag : Byte) (info : Word) :
    (ch.takeFault code tag info).resampler = ch.resampler := rfl
@[simp] theorem Channel.takeFault_lc (ch : Channel) (code : FaultCode) (tag : Byte) (info : Word) :
    (ch.takeFault code tag info).lc = ch.lc := rfl
@[simp] theorem Channel.takeFault_fstat (ch : Channel) (code : FaultCode) (tag : Byte) (info : Word) :
    (ch.takeFault code tag info).fstat = ch.fstat ||| fstatBit code := rfl

/-! ### Writing control registers -/

@[simp] theorem Channel.withRegs_cmdPort (ch : Channel) (f : Regs → Regs) :
    (ch.withRegs f).cmdPort = ch.cmdPort := rfl
@[simp] theorem Channel.withRegs_msgPort (ch : Channel) (f : Regs → Regs) :
    (ch.withRegs f).msgPort = ch.msgPort := rfl
@[simp] theorem Channel.withRegs_regs (ch : Channel) (f : Regs → Regs) :
    (ch.withRegs f).regs = f ch.regs := rfl
@[simp] theorem Channel.withRegs_config (ch : Channel) (f : Regs → Regs) :
    (ch.withRegs f).config = ch.config := rfl
@[simp] theorem Channel.withRegs_dec (ch : Channel) (f : Regs → Regs) :
    (ch.withRegs f).dec = ch.dec := rfl
@[simp] theorem Channel.withRegs_fir (ch : Channel) (f : Regs → Regs) :
    (ch.withRegs f).fir = ch.fir := rfl
@[simp] theorem Channel.withRegs_squelch (ch : Channel) (f : Regs → Regs) :
    (ch.withRegs f).squelch = ch.squelch := rfl
@[simp] theorem Channel.withRegs_tone (ch : Channel) (f : Regs → Regs) :
    (ch.withRegs f).tone = ch.tone := rfl
@[simp] theorem Channel.withRegs_resampler (ch : Channel) (f : Regs → Regs) :
    (ch.withRegs f).resampler = ch.resampler := rfl
@[simp] theorem Channel.withRegs_lc (ch : Channel) (f : Regs → Regs) :
    (ch.withRegs f).lc = ch.lc := rfl
@[simp] theorem Channel.withRegs_fstat (ch : Channel) (f : Regs → Regs) :
    (ch.withRegs f).fstat = ch.fstat := rfl

/-! ### Rebuilding for a configuration -/

@[simp] theorem Channel.rebuild_cmdPort (ch : Channel) (c : Cfg) (cf : ActiveConfig) :
    (ch.rebuild c cf).cmdPort = ch.cmdPort := rfl
@[simp] theorem Channel.rebuild_msgPort (ch : Channel) (c : Cfg) (cf : ActiveConfig) :
    (ch.rebuild c cf).msgPort = ch.msgPort := rfl
@[simp] theorem Channel.rebuild_regs (ch : Channel) (c : Cfg) (cf : ActiveConfig) :
    (ch.rebuild c cf).regs = ch.regs := rfl
@[simp] theorem Channel.rebuild_config (ch : Channel) (c : Cfg) (cf : ActiveConfig) :
    (ch.rebuild c cf).config = cf := rfl
@[simp] theorem Channel.rebuild_dec (ch : Channel) (c : Cfg) (cf : ActiveConfig) :
    (ch.rebuild c cf).dec = { iDl := zeros cf.decTaps.length, qDl := zeros cf.decTaps.length, iR := 0, qR := 0 } := rfl
@[simp] theorem Channel.rebuild_fir (ch : Channel) (c : Cfg) (cf : ActiveConfig) :
    (ch.rebuild c cf).fir = { iDl := zeros cf.chTaps.length, qDl := zeros cf.chTaps.length } := rfl
@[simp] theorem Channel.rebuild_squelch (ch : Channel) (c : Cfg) (cf : ActiveConfig) :
    (ch.rebuild c cf).squelch = ch.squelch := rfl
@[simp] theorem Channel.rebuild_tone (ch : Channel) (c : Cfg) (cf : ActiveConfig) :
    (ch.rebuild c cf).tone = { ch.tone with dl := zeros cf.toneTaps.length, q1 := zeros c.nt, q2 := zeros c.nt, n := 0 } := rfl
@[simp] theorem Channel.rebuild_resampler (ch : Channel) (c : Cfg) (cf : ActiveConfig) :
    (ch.rebuild c cf).resampler = { dl := zeros (ceildiv cf.rsTaps.length cf.rsL), acc := 0 } := rfl
@[simp] theorem Channel.rebuild_lc (ch : Channel) (c : Cfg) (cf : ActiveConfig) :
    (ch.rebuild c cf).lc = ch.lc := rfl
@[simp] theorem Channel.rebuild_fstat (ch : Channel) (c : Cfg) (cf : ActiveConfig) :
    (ch.rebuild c cf).fstat = ch.fstat := rfl

/-! ### RESET -/

@[simp] theorem resetChannel_cmdPort (ch : Channel) :
    (resetChannel ch).cmdPort = ch.cmdPort := rfl
@[simp] theorem resetChannel_msgPort (ch : Channel) :
    (resetChannel ch).msgPort = ch.msgPort := rfl
@[simp] theorem resetChannel_regs (ch : Channel) :
    (resetChannel ch).regs = ch.regs := rfl
@[simp] theorem resetChannel_config (ch : Channel) :
    (resetChannel ch).config = ch.config := rfl
@[simp] theorem resetChannel_dec (ch : Channel) :
    (resetChannel ch).dec = { iDl := clearMem ch.dec.iDl, qDl := clearMem ch.dec.qDl, iR := 0, qR := 0 } := rfl
@[simp] theorem resetChannel_fir (ch : Channel) :
    (resetChannel ch).fir = { iDl := clearMem ch.fir.iDl, qDl := clearMem ch.fir.qDl } := rfl
@[simp] theorem resetChannel_squelch (ch : Channel) :
    (resetChannel ch).squelch = Squelch.reset := rfl
@[simp] theorem resetChannel_tone (ch : Channel) :
    (resetChannel ch).tone = { dl := clearMem ch.tone.dl, q1 := clearMem ch.tone.q1, q2 := clearMem ch.tone.q2, n := 0, cur := none, pend := none, matchCnt := 0, lossCnt := 0, lastTx := 0#32 } := rfl
@[simp] theorem resetChannel_resampler (ch : Channel) :
    (resetChannel ch).resampler = { dl := clearMem ch.resampler.dl, acc := 0 } := rfl
@[simp] theorem resetChannel_lc (ch : Channel) :
    (resetChannel ch).lc = .idle := rfl
@[simp] theorem resetChannel_fstat (ch : Channel) :
    (resetChannel ch).fstat = ch.fstat := rfl

/-! ### The whole state -/

@[simp] theorem State.onActive_calSel (s : State) (f : Channel → Channel) : (s.onActive f).calSel = s.calSel := rfl
@[simp] theorem State.onActive_left (s : State) (f : Channel → Channel) : (s.onActive f).left = s.left := rfl
@[simp] theorem State.onActive_right (s : State) (f : Channel → Channel) : (s.onActive f).right = s.right := rfl
@[simp] theorem State.onActive_tick (s : State) (f : Channel → Channel) : (s.onActive f).tick = s.tick := rfl
@[simp] theorem State.onActive_active (s : State) (f : Channel → Channel) :
    (s.onActive f).active = f s.active := rfl
@[simp] theorem State.onActive_activeNum (s : State) (f : Channel → Channel) : (s.onActive f).activeNum = s.activeNum := rfl
@[simp] theorem State.consume_calSel (s : State) (rest : List Word) : (s.consume rest).calSel = s.calSel := rfl
@[simp] theorem State.consume_left (s : State) (rest : List Word) : (s.consume rest).left = s.left := rfl
@[simp] theorem State.consume_right (s : State) (rest : List Word) : (s.consume rest).right = s.right := rfl
@[simp] theorem State.consume_tick (s : State) (rest : List Word) : (s.consume rest).tick = s.tick := rfl
@[simp] theorem State.consume_active (s : State) (rest : List Word) :
    (s.consume rest).active = { s.active with cmdPort := rest } := rfl
@[simp] theorem State.consume_activeNum (s : State) (rest : List Word) : (s.consume rest).activeNum = s.activeNum := rfl
@[simp] theorem State.takeIllegal_calSel (s : State) (w : Word) : (s.takeIllegal w).calSel = s.calSel := rfl
@[simp] theorem State.takeIllegal_left (s : State) (w : Word) : (s.takeIllegal w).left = s.left := rfl
@[simp] theorem State.takeIllegal_right (s : State) (w : Word) : (s.takeIllegal w).right = s.right := rfl
@[simp] theorem State.takeIllegal_tick (s : State) (w : Word) : (s.takeIllegal w).tick = s.tick := rfl
@[simp] theorem State.takeIllegal_active (s : State) (w : Word) :
    (s.takeIllegal w).active = s.active.takeFault .illegalCommand (tagOf w) w := rfl
@[simp] theorem State.takeIllegal_activeNum (s : State) (w : Word) : (s.takeIllegal w).activeNum = s.activeNum := rfl
@[simp] theorem State.placeWords_calSel (s : State) (ws : List Word) : (s.placeWords ws).calSel = s.calSel := rfl
@[simp] theorem State.placeWords_left (s : State) (ws : List Word) : (s.placeWords ws).left = s.left := rfl
@[simp] theorem State.placeWords_right (s : State) (ws : List Word) : (s.placeWords ws).right = s.right := rfl
@[simp] theorem State.placeWords_tick (s : State) (ws : List Word) : (s.placeWords ws).tick = s.tick := rfl
@[simp] theorem State.placeWords_active (s : State) (ws : List Word) :
    (s.placeWords ws).active = { s.active with cmdPort := ws ++ s.active.cmdPort } := rfl
@[simp] theorem State.placeWords_activeNum (s : State) (ws : List Word) : (s.placeWords ws).activeNum = s.activeNum := rfl

/-- The acting channel's number is below the number of channels. -/
theorem State.activeNum_lt (s : State) : s.activeNum < s.channels.length := by
  simp [State.activeNum, State.channels]

/-- The acting channel stands at its number. -/
@[simp] theorem State.channels_active (s : State) : s.channels[s.activeNum]? = some s.active := by
  simp [State.activeNum, State.channels]

/-- An effect on the acting channel leaves every other channel as it was. -/
theorem State.channels_onActive (s : State) (f : Channel → Channel) (j : Nat) :
    (s.onActive f).channels[j]? = if j = s.activeNum then some (f s.active) else s.channels[j]? := by
  simp only [State.channels, State.onActive, State.activeNum]
  rcases Nat.lt_trichotomy j s.left.length with h | h | h
  · simp [List.getElem?_append_left h, h.ne]
  · subst h; simp
  · obtain ⟨k, rfl⟩ := Nat.exists_eq_add_of_lt h
    have h1 : s.left.length ≤ s.left.length + k + 1 := by omega
    have h2 : s.left.length + k + 1 - s.left.length = k + 1 := by omega
    simp [List.getElem?_append_right h1, h2]
    omega

end Sys2Proof.Machine
end

