-- ==== Sys2Proof/Laws/Ops.lean ====
section
/-! SUPPORT. What each shared operation can do, said once. -/

namespace Sys2Proof.Machine

/-! ### Internal memories -/

@[simp] theorem zeros_length (n : Nat) : (zeros n).length = n := by simp [zeros]

@[simp] theorem clearMem_length (m : List F) : (clearMem m).length = m.length := by simp [clearMem]

/-- Clearing twice is clearing once. -/
@[simp] theorem clearMem_clearMem (m : List F) : clearMem (clearMem m) = clearMem m := by simp [clearMem]

/-- A push keeps the memory's length. -/
@[simp] theorem push_length (m : List F) (x : F) : (push m x).length = m.length := by simp [push]

/-- After a push, word 0 is the new sample. -/
theorem push_zero (m : List F) (x : F) (h : 0 < m.length) : memRead (push m x) 0 = x := by
  obtain ⟨n, hn⟩ := Nat.exists_eq_add_of_lt h
  simp [push, memRead, hn]

/-- After a push, word `i + 1` is what word `i` was. -/
theorem push_succ (m : List F) (x : F) (i : Nat) (h : i + 1 < m.length) :
    memRead (push m x) (i + 1) = memRead m i := by
  have h' : i < m.length := by omega
  simp [push, memRead, h, h']

/-- Pushing a list, one sample after the other. -/
def pushAll (m : List F) (xs : List F) : List F := xs.foldl push m

@[simp] theorem pushAll_nil (m : List F) : pushAll m [] = m := rfl

@[simp] theorem pushAll_cons (m : List F) (x : F) (xs : List F) : pushAll m (x :: xs) = pushAll (push m x) xs := rfl

theorem pushAll_append (m : List F) (xs ys : List F) : pushAll m (xs ++ ys) = pushAll (pushAll m xs) ys :=
  List.foldl_append

@[simp] theorem pushAll_length (m : List F) (xs : List F) : (pushAll m xs).length = m.length := by
  induction xs generalizing m with
  | nil => rfl
  | cons x xs ih => simp [ih]

/-- After pushing a list, the memory holds the list newest first, then what it held before. -/
theorem pushAll_eq (m : List F) (xs : List F) : pushAll m xs = (xs.reverse ++ m).take m.length := by
  induction xs generalizing m with
  | nil => simp
  | cons x xs ih =>
    rw [pushAll_cons, ih, push_length, push, List.reverse_cons, List.append_assoc, List.singleton_append]
    rw [List.take_append, List.take_append, List.take_take]
    congr 2
    omega

/-! ### Messages -/

@[simp] theorem messageWords_nil : messageWords [] = [] := rfl

@[simp] theorem messageWords_append (a b : List Message) :
    messageWords (a ++ b) = messageWords a ++ messageWords b := by simp [messageWords]

@[simp] theorem messageWords_singleton (m : Message) : messageWords [m] = m.words := by simp [messageWords]

@[simp] theorem Channel.emitAll_nil (ch : Channel) : ch.emitAll [] = ch := by simp [Channel.emitAll]

/-- Emitting two lists is emitting their concatenation. -/
theorem Channel.emitAll_append (ch : Channel) (a b : List Message) :
    (ch.emitAll a).emitAll b = ch.emitAll (a ++ b) := by simp [Channel.emitAll]

/-- The bit of every fault code is one of bits 0 to 5. -/
theorem fstatBit_reserved (code : FaultCode) : fstatBit code &&& 0xC0#8 = 0#8 := by cases code <;> decide

/-! ### Turns -/

/-- Giving the turn away keeps every channel where it is. -/
@[simp] theorem State.focus_channels (s : State) (j : Nat) : (s.focus j).channels = s.channels := by
  unfold State.focus
  split
  · rfl
  · rename_i ch after h
    have := List.take_append_drop j s.channels
    rw [h] at this
    simpa [State.channels] using this

@[simp] theorem State.focus_calSel (s : State) (j : Nat) : (s.focus j).calSel = s.calSel := by
  unfold State.focus; split <;> rfl

/-- The turn is where it was given, when there is such a channel. -/
theorem State.focus_activeNum (s : State) (j : Nat) (h : j < s.channels.length) : (s.focus j).activeNum = j := by
  unfold State.focus
  split
  · rename_i h'; simp at h'; omega
  · simp [State.activeNum]; omega

/-- The acting channel after the turn is given. -/
theorem State.focus_active (s : State) (j : Nat) (ch : Channel) (h : s.channels[j]? = some ch) :
    (s.focus j).active = ch := by
  obtain ⟨hj, -⟩ := List.getElem?_eq_some_iff.mp h
  have h1 := State.channels_active (s.focus j)
  rw [State.focus_activeNum s j hj, State.focus_channels, h] at h1
  simpa using h1.symm

/-- Choosing the next turn changes no channel. -/
@[simp] theorem State.reschedule_channels (c : Cfg) (s : State) : (s.reschedule c).channels = s.channels := by
  unfold State.reschedule
  split
  · rfl
  · exact State.focus_channels _ _

@[simp] theorem State.reschedule_calSel (c : Cfg) (s : State) : (s.reschedule c).calSel = s.calSel := by
  unfold State.reschedule
  split
  · rfl
  · exact State.focus_calSel _ _

/-- One channel alone: the choice of the next turn changes nothing. -/
theorem State.reschedule_single (c : Cfg) (s : State) (hl : s.left = []) (hr : s.right = []) : s.reschedule c = s := by
  simp [State.reschedule, hl, hr]

end Sys2Proof.Machine
end

