-- ==== Sys2Proof/Laws/Configuration.lean ====
section
/-! SUPPORT. What the filter design and SAMPLE_RATE can do (40_configuration.md R121, R130). -/

namespace Sys2Proof.Machine

/-- A path's answer counts exactly when it is a list that is not empty. -/
theorem usableTaps_cases (o : Option (List F)) :
    (usableTaps o = none ∧ (o = none ∨ o = some [])) ∨ (usableTaps o = o ∧ o ≠ none ∧ o ≠ some []) := by
  rcases o with _ | _ | ⟨t, ts⟩ <;> simp [usableTaps]

/-- The three things the design can do (R121): equiripple, fallback, failure. -/
theorem design_cases (c : Cfg) (spec : FilterSpec) :
    let e := c.equiripple spec
    let f := c.fallback (fallbackSpec spec)
    (design c spec = e ∧ e ≠ none ∧ e ≠ some []) ∨
    (design c spec = f ∧ (e = none ∨ e = some []) ∧ f ≠ none ∧ f ≠ some []) ∨
    (design c spec = none ∧ (e = none ∨ e = some []) ∧ (f = none ∨ f = some [])) := by
  intro e f
  rcases usableTaps_cases e with ⟨he, h⟩ | ⟨he, h1, h2⟩
  · have hd : design c spec = usableTaps f := by unfold design; rw [he]
    rcases usableTaps_cases f with ⟨hf, h'⟩ | ⟨hf, h'⟩
    · exact .inr (.inr ⟨hd.trans hf, h, h'⟩)
    · exact .inr (.inl ⟨hd.trans hf, h, h'⟩)
  · refine .inl ⟨?_, h1, h2⟩
    unfold design
    rw [he]
    rcases h : e with _ | taps
    · exact absurd h h1
    · rfl

/-- SAMPLE_RATE takes a fault, or commits the configuration of a rate that passed all three tests. -/
theorem sampleRate_cases (c : Cfg) (num : Nat) (cal tag : Byte) (rate : Word) (ch : Channel) :
    (∃ code info, sampleRate c num cal tag rate ch = ch.takeFault code tag info) ∨
    (∃ taps, rate.toNat ≠ 0 ∧
      feasible rate.toNat (c.channelBw num) (decimFactor rate.toNat (c.channelBw num)) = true ∧
      design c (channelSpec c (c.channelBw num) rate.toNat (decimFactor rate.toNat (c.channelBw num))) = some taps ∧
      sampleRate c num cal tag rate ch =
        ch.rebuild c (activeConfigFor c (c.channelBw num) rate (decimFactor rate.toNat (c.channelBw num)) taps
          (resolveImpl ch.regs.implReq cal))) := by
  unfold sampleRate
  simp only
  by_cases h0 : rate.toNat = 0
  · exact .inl ⟨_, _, by rw [if_pos h0]⟩
  · rw [if_neg h0]
    split
    · exact .inl ⟨_, _, rfl⟩
    · rename_i h1
      split
      · exact .inl ⟨_, _, rfl⟩
      · rename_i taps h2
        exact .inr ⟨taps, h0, by simpa using h1, h2, rfl⟩

end Sys2Proof.Machine
end

