-- ==== Sys2Proof/Laws/Datapath.lean ====
section
/-! SUPPORT. What the decimator, the channel filter and the demodulator return and keep (41_datapath.md). -/

namespace Sys2Proof.Machine

/-! ### Decimation -/

/-- The equation of the decimation loop for one sample. -/
theorem decimateLoop_cons (c : Cfg) (d : Nat) (taps : List F) (x : F) (xs dl : List F) (r : Nat) :
    decimateLoop c d taps (x :: xs) dl r =
      if r + 1 = d then
        (dot c taps (push dl x) :: (decimateLoop c d taps xs (push dl x) 0).1,
         (decimateLoop c d taps xs (push dl x) 0).2)
      else decimateLoop c d taps xs (push dl x) (r + 1) := rfl

/-- The decimator pushes every input sample, once, in order, whatever it returns (R162). -/
theorem decimateLoop_delay (c : Cfg) (d : Nat) (taps xs dl : List F) (r : Nat) :
    (decimateLoop c d taps xs dl r).2.1 = pushAll dl xs := by
  induction xs generalizing dl r with
  | nil => rfl
  | cons x xs ih =>
    rw [decimateLoop_cons]
    split <;> simp [ih]

/-- The remainder after a call. -/
theorem decimateLoop_remainder (c : Cfg) (d : Nat) (taps xs dl : List F) (r : Nat) (hr : r < d) :
    (decimateLoop c d taps xs dl r).2.2 = (r + xs.length) % d := by
  induction xs generalizing dl r with
  | nil => simp [decimateLoop, Nat.mod_eq_of_lt hr]
  | cons x xs ih =>
    rw [decimateLoop_cons]
    split
    · rename_i h
      rw [ih _ _ (by omega)]
      have : r + (x :: xs).length = 0 + xs.length + d := by simp; omega
      rw [this, Nat.add_mod_right]
    · rw [ih _ _ (by omega)]
      congr 1
      simp; omega

/-- The number of samples a call returns. -/
theorem decimateLoop_length (c : Cfg) (d : Nat) (taps xs dl : List F) (r : Nat) (hr : r < d) :
    (decimateLoop c d taps xs dl r).1.length = (r + xs.length) / d := by
  induction xs generalizing dl r with
  | nil => simp [decimateLoop, Nat.div_eq_of_lt hr]
  | cons x xs ih =>
    rw [decimateLoop_cons]
    split
    · rename_i h
      have : r + (x :: xs).length = 0 + xs.length + d := by simp; omega
      rw [this, Nat.add_div_right _ (by omega), List.length_cons, ih _ _ (by omega)]
    · rw [ih _ _ (by omega)]
      congr 1
      simp; omega

/-- The remainder stays below the factor. -/
theorem decimate_remainder_lt (c : Cfg) (d : Nat) (taps xs dl : List F) (r : Nat) (hr : r < d) :
    (decimate c d taps xs dl r).2.2 < d := by
  unfold decimate
  split
  · exact hr
  · rw [decimateLoop_remainder _ _ _ _ _ _ hr]; exact Nat.mod_lt _ (by omega)

/-- The remainder depends on the number of samples alone. -/
theorem decimate_remainder_eq (c : Cfg) (d : Nat) (taps taps' xs ys dl dl' : List F) (r : Nat) (hr : r < d)
    (h : xs.length = ys.length) : (decimate c d taps xs dl r).2.2 = (decimate c d taps' ys dl' r).2.2 := by
  unfold decimate
  split
  · rfl
  · rw [decimateLoop_remainder _ _ _ _ _ _ hr, decimateLoop_remainder _ _ _ _ _ _ hr, h]

/-- The delay line keeps its length. -/
@[simp] theorem decimate_delay_length (c : Cfg) (d : Nat) (taps xs dl : List F) (r : Nat) :
    (decimate c d taps xs dl r).2.1.length = dl.length := by
  unfold decimate
  split
  · rfl
  · rw [decimateLoop_delay, pushAll_length]

/-! ### The channel filter -/

theorem fir_cons (c : Cfg) (taps : List F) (x : F) (xs dl : List F) :
    fir c taps (x :: xs) dl =
      (dot c taps (push dl x) :: (fir c taps xs (push dl x)).1, (fir c taps xs (push dl x)).2) := rfl

/-- The filter returns one sample for each it is given. -/
@[simp] theorem fir_length (c : Cfg) (taps xs dl : List F) : (fir c taps xs dl).1.length = xs.length := by
  induction xs generalizing dl with
  | nil => rfl
  | cons x xs ih => simp [fir_cons, ih]

/-- The filter pushes every sample, in order. -/
theorem fir_delay (c : Cfg) (taps xs dl : List F) : (fir c taps xs dl).2 = pushAll dl xs := by
  induction xs generalizing dl with
  | nil => rfl
  | cons x xs ih => simp [fir_cons, ih]

@[simp] theorem fir_delay_length (c : Cfg) (taps xs dl : List F) : (fir c taps xs dl).2.length = dl.length := by
  rw [fir_delay, pushAll_length]

/-! ### The front end -/

section FrontEnd

variable (c : Cfg) (ch : Channel) (i q : List F)

@[simp] theorem frontEnd_cmdPort : (frontEnd c ch i q).2.cmdPort = ch.cmdPort := rfl
@[simp] theorem frontEnd_msgPort : (frontEnd c ch i q).2.msgPort = ch.msgPort := rfl
@[simp] theorem frontEnd_regs : (frontEnd c ch i q).2.regs = ch.regs := rfl
@[simp] theorem frontEnd_config : (frontEnd c ch i q).2.config = ch.config := rfl
@[simp] theorem frontEnd_squelch : (frontEnd c ch i q).2.squelch = ch.squelch := rfl
@[simp] theorem frontEnd_tone : (frontEnd c ch i q).2.tone = ch.tone := rfl
@[simp] theorem frontEnd_resampler : (frontEnd c ch i q).2.resampler = ch.resampler := rfl
@[simp] theorem frontEnd_lc : (frontEnd c ch i q).2.lc = ch.lc := rfl
@[simp] theorem frontEnd_fstat : (frontEnd c ch i q).2.fstat = ch.fstat := rfl

end FrontEnd

end Sys2Proof.Machine
end

