-- ==== Sys2Proof/Laws/Decode.lean ====
section
/-! SUPPORT. What decoding a port's stream can do, and the fields of the encoder's headers. -/

namespace Sys2Proof

/-- Every row is in the table. -/
theorem Opcode.mem_all (o : Opcode) : o ∈ Opcode.all := by cases o <;> decide

/-- A row's pattern has its opcode in bits 31..24, and its mask covers those bits. -/
theorem Opcode.pattern_code (o : Opcode) : o.pattern.extractLsb' 24 8 = o.code := by cases o <;> decide

theorem Opcode.mask_code (o : Opcode) : o.mask.extractLsb' 24 8 = 0xFF#8 := by cases o <;> decide

/-- No two rows have the same opcode. -/
theorem Opcode.code_injective (a b : Opcode) (h : a.code = b.code) : a = b := by
  revert h; cases a <;> cases b <;> decide

/-- A word that satisfies a row has the row's opcode in bits 31..24. -/
theorem Opcode.matchesWord_code (o : Opcode) (w : Word) (h : o.matchesWord w = true) :
    w.extractLsb' 24 8 = o.code := by
  have h1 : w &&& o.mask = o.pattern := by simpa [Opcode.matchesWord] using h
  have h2 : (w &&& o.mask).extractLsb' 24 8 = o.code := by rw [h1, Opcode.pattern_code]
  have h3 : (w &&& o.mask).extractLsb' 24 8 = w.extractLsb' 24 8 &&& o.mask.extractLsb' 24 8 := by
    ext i hi; simp
  have h4 : w.extractLsb' 24 8 &&& 0xFF#8 = w.extractLsb' 24 8 := by
    have : (0xFF#8 : Byte) = BitVec.allOnes 8 := by decide
    rw [this, BitVec.and_allOnes]
  rw [h3, Opcode.mask_code, h4] at h2
  exact h2

/-- The row a word selects is the one it satisfies (R93: rows are disjoint). -/
theorem opcodeOf_eq_some (o : Opcode) (w : Word) : opcodeOf w = some o ↔ o.matchesWord w = true := by
  constructor
  · intro h
    have := List.find?_some h
    simpa using this
  · intro h
    cases hq : opcodeOf w with
    | none =>
      have := List.find?_eq_none.mp hq o (Opcode.mem_all o)
      simp [h] at this
    | some o' =>
      have h' : o'.matchesWord w = true := by simpa using List.find?_some hq
      rw [Opcode.code_injective o' o]
      rw [← Opcode.matchesWord_code o' w h', ← Opcode.matchesWord_code o w h]

/-- A whole command at the front of a stream: its header selects a row, its payload is there, and what follows it is
the rest. -/
theorem decode_instr (ws rest : List Word) (i : Instr) (h : decode ws = .instr i rest) :
    ∃ w o p, ws = w :: (p ++ rest) ∧ opcodeOf w = some o ∧ p.length = payloadWords o w ∧ i = assemble o w p := by
  cases ws with
  | nil => simp [decode] at h
  | cons w tail =>
    simp only [decode] at h
    cases ho : opcodeOf w with
    | none => simp [ho] at h
    | some o =>
      simp only [ho] at h
      split at h
      · simp at h
      · rename_i hlen
        simp only [Decoded.instr.injEq] at h
        refine ⟨w, o, tail.take (payloadWords o w), ?_, ho, ?_, h.1.symm⟩
        · rw [← h.2, List.take_append_drop]
        · simp; omega

/-- The converse: a header that selects a row, and a payload of its length, are a whole command. -/
theorem decode_cons (w : Word) (o : Opcode) (p rest : List Word) (ho : opcodeOf w = some o)
    (hp : p.length = payloadWords o w) : decode (w :: (p ++ rest)) = .instr (assemble o w p) rest := by
  simp only [decode, ho]
  rw [if_neg (by simp; omega)]
  simp [← hp]

/-- An illegal header: no row, and only the header is consumed. -/
theorem decode_illegal (ws rest : List Word) (w : Word) :
    decode ws = .illegal w rest ↔ ws = w :: rest ∧ opcodeOf w = none := by
  cases ws with
  | nil => simp [decode]
  | cons w' tail =>
    simp only [decode]
    cases ho : opcodeOf w' with
    | none =>
      simp only [Decoded.illegal.injEq, List.cons.injEq]
      constructor
      · rintro ⟨rfl, rfl⟩; exact ⟨⟨rfl, rfl⟩, ho⟩
      · rintro ⟨⟨rfl, rfl⟩, -⟩; exact ⟨rfl, rfl⟩
    | some o =>
      constructor
      · intro h; simp only at h; split at h <;> simp at h
      · rintro ⟨h, h'⟩
        simp only [List.cons.injEq] at h
        rw [h.1, h'] at ho; simp at ho

/-- A channel waits: a row's header stands there with too few words after it. -/
theorem decode_incomplete (ws : List Word) (o : Opcode) (n : Nat) :
    decode ws = .incomplete o n ↔
      ∃ w tail, ws = w :: tail ∧ opcodeOf w = some o ∧ tail.length < payloadWords o w
        ∧ n = payloadWords o w - tail.length := by
  cases ws with
  | nil => simp [decode]
  | cons w tail =>
    simp only [decode, List.cons.injEq]
    cases ho : opcodeOf w with
    | none =>
      constructor
      · intro h; simp at h
      · rintro ⟨w', tail', ⟨rfl, rfl⟩, h, -⟩; simp [ho] at h
    | some o' =>
      constructor
      · intro h
        simp only at h
        split at h
        · simp only [Decoded.incomplete.injEq] at h
          obtain ⟨rfl, rfl⟩ := h
          exact ⟨w, tail, ⟨rfl, rfl⟩, ho, ‹_›, rfl⟩
        · simp at h
      · rintro ⟨w', tail', ⟨rfl, rfl⟩, h, hl, rfl⟩
        rw [ho] at h
        simp only [Option.some.injEq] at h
        subst h
        simp [hl]

/-! ### The fields of a header the encoder wrote -/

/-- The three fields of a header, bit by bit. -/
theorem getLsbD_header (a b : Byte) (d : BitVec 16) (i : Nat) :
    BitVec.getLsbD (a ++ b ++ d : BitVec 32) i
      = if i < 16 then d.getLsbD i else if i < 24 then b.getLsbD (i - 16) else a.getLsbD (i - 24) := by
  have h1 := BitVec.getLsbD_append (x := a ++ b) (y := d) (i := i)
  have h2 := BitVec.getLsbD_append (x := a) (y := b) (i := i - 16)
  refine h1.trans ?_
  rw [h2]
  by_cases h : i < 16
  · simp [h]
  · by_cases h' : i < 24
    · have : i - 16 < 8 := by omega
      simp [h, h', this]
    · have h3 : ¬ (i - 16 < 8) := by omega
      have h4 : i - 16 - 8 = i - 24 := by omega
      simp [h, h', h3, h4]

/-- A header from its three fields: bits 31..24, 23..16 and 15..0. -/
def header (a b : Byte) (d : BitVec 16) : Word := a ++ b ++ d

theorem header_bit (a b : Byte) (d : BitVec 16) (i : Nat) :
    (header a b d).getLsbD i
      = if i < 16 then d.getLsbD i else if i < 24 then b.getLsbD (i - 16) else a.getLsbD (i - 24) :=
  getLsbD_header a b d i

@[simp] theorem tagOf_header (a b : Byte) (d : BitVec 16) : tagOf (header a b d) = b := by
  unfold tagOf
  ext i hi
  have h1 : ¬ (16 + i < 16) := by omega
  have h2 : 16 + i < 24 := by omega
  have h3 : 16 + i - 16 = i := by omega
  rw [BitVec.getElem_extractLsb', header_bit, if_neg h1, if_pos h2, h3, BitVec.getLsbD_eq_getElem]

@[simp] theorem argOf_header (a b : Byte) (d : BitVec 16) : argOf (header a b d) = d := by
  unfold argOf
  ext i hi
  have h1 : 0 + i < 16 := by omega
  have h2 : 0 + i = i := by omega
  rw [BitVec.getElem_extractLsb', header_bit, if_pos h1, h2, BitVec.getLsbD_eq_getElem]

@[simp] theorem codeOf_header (a b : Byte) (d : BitVec 16) : codeOf (header a b d) = d.extractLsb' 0 8 := by
  unfold codeOf
  ext i hi
  have h1 : 0 + i < 16 := by omega
  rw [BitVec.getElem_extractLsb', BitVec.getElem_extractLsb', header_bit, if_pos h1]

@[simp] theorem bitOf_header (a b : Byte) (d : BitVec 16) : bitOf (header a b d) = d.getLsbD 0 := by
  rw [bitOf, header_bit]; rfl

@[simp] theorem highByte_header (a b : Byte) (d : BitVec 16) :
    (header a b d).extractLsb' 8 8 = d.extractLsb' 8 8 := by
  ext i hi
  have h1 : 8 + i < 16 := by omega
  rw [BitVec.getElem_extractLsb', BitVec.getElem_extractLsb', header_bit, if_pos h1]

@[simp] theorem tagBits_header (a b : Byte) (d : BitVec 16) :
    (header a b d).extractLsb' 16 2 = b.extractLsb' 0 2 := by
  ext i hi
  have h1 : ¬ (16 + i < 16) := by omega
  have h2 : 16 + i < 24 := by omega
  have h3 : 16 + i - 16 = 0 + i := by omega
  rw [BitVec.getElem_extractLsb', BitVec.getElem_extractLsb', header_bit, if_neg h1, if_pos h2, h3]

@[simp] theorem bit16_header (a b : Byte) (d : BitVec 16) : (header a b d).getLsbD 16 = b.getLsbD 0 := by
  rw [header_bit]; rfl

@[simp] theorem bit17_header (a b : Byte) (d : BitVec 16) : (header a b d).getLsbD 17 = b.getLsbD 1 := by
  rw [header_bit]; rfl

@[simp] theorem bit18_header (a b : Byte) (d : BitVec 16) : (header a b d).getLsbD 18 = b.getLsbD 2 := by
  rw [header_bit]; rfl

/-- The two bytes of a 16-bit field. -/
theorem twoBytes_high (x y : Byte) : (x ++ y : BitVec 16).extractLsb' 8 8 = x := by
  ext i hi
  have h := BitVec.getLsbD_append (x := x) (y := y) (i := 8 + i)
  have h1 : ¬ (8 + i < 8) := by omega
  have h2 : 8 + i - 8 = i := by omega
  rw [if_neg h1, h2] at h
  rw [BitVec.getElem_extractLsb', h, BitVec.getLsbD_eq_getElem]

theorem twoBytes_low (x y : Byte) : (x ++ y : BitVec 16).extractLsb' 0 8 = y := by
  ext i hi
  have h := BitVec.getLsbD_append (x := x) (y := y) (i := 0 + i)
  have h1 : 0 + i < 8 := by omega
  have h2 : 0 + i = i := by omega
  rw [if_pos h1, h2] at h
  rw [BitVec.getElem_extractLsb', h2, h, BitVec.getLsbD_eq_getElem]

/-- Masking acts on the fields one by one. -/
theorem header_and (a b a' b' : Byte) (d d' : BitVec 16) :
    header a b d &&& header a' b' d' = header (a &&& a') (b &&& b') (d &&& d') := by
  apply BitVec.eq_of_getLsbD_eq
  intro i hi
  rw [BitVec.getLsbD_and, header_bit, header_bit, header_bit]
  split
  · simp
  · split <;> simp

/-- The mask of a row over the two fields below the opcode. -/
def Opcode.maskLow : Opcode → Byte × BitVec 16
  | .iqBlock | .reply | .fault => (0#8, 0#16)
  | .setAutotrack | .setOverride => (0#8, 0xFFFE#16)
  | .calWrite | .implRequest => (0#8, 0xFF00#16)
  | .lifecycle => (0xF8#8, 0xFFFF#16)
  | .audio => (0xFF#8, 0#16)
  | .tone => (0xFC#8, 0#16)
  | .sampleRate | .reset | .getStatus | .getThreshold | .setThreshold | .getAutotrack | .getHystOpen
  | .setHystOpen | .getHystClose | .setHystClose | .getGain | .setGain | .calRead => (0#8, 0xFFFF#16)

theorem Opcode.mask_eq (o : Opcode) : o.mask = header 0xFF#8 o.maskLow.1 o.maskLow.2 := by cases o <;> decide

theorem Opcode.pattern_eq (o : Opcode) : o.pattern = header o.code 0#8 0#16 := by cases o <;> decide

/-- A header with a row's opcode, whose masked low fields are 0, selects that row. -/
theorem opcodeOf_header (o : Opcode) (b : Byte) (d : BitVec 16) (hb : b &&& o.maskLow.1 = 0#8)
    (hd : d &&& o.maskLow.2 = 0#16) : opcodeOf (header o.code b d) = some o := by
  have hall : (0xFF#8 : Byte) = BitVec.allOnes 8 := by decide
  rw [opcodeOf_eq_some, Opcode.matchesWord, beq_iff_eq, Opcode.mask_eq, Opcode.pattern_eq, header_and, hb, hd, hall,
    BitVec.and_allOnes]

theorem commandHeader_eq (o : Opcode) (tag : Byte) (arg : BitVec 16) :
    commandHeader o tag arg = header o.code tag arg := rfl

/-- Four bytes in a row are a header whose 16-bit field is the last two. -/
theorem fourBytes_eq (a tag st rop : Byte) : (a ++ tag ++ st ++ rop : Word) = header a tag (st ++ rop) := by
  apply BitVec.eq_of_getLsbD_eq
  intro i hi
  rw [header_bit]
  have h0 : (a ++ tag ++ st ++ rop : BitVec 32).getLsbD i
      = if i < 8 then rop.getLsbD i else (a ++ tag ++ st : BitVec 24).getLsbD (i - 8) :=
    BitVec.getLsbD_append (x := a ++ tag ++ st) (y := rop) (i := i)
  have h1 : (a ++ tag ++ st : BitVec 24).getLsbD (i - 8)
      = if i - 8 < 8 then st.getLsbD (i - 8) else (a ++ tag : BitVec 16).getLsbD (i - 8 - 8) :=
    BitVec.getLsbD_append (x := a ++ tag) (y := st) (i := i - 8)
  have h2 : (a ++ tag : BitVec 16).getLsbD (i - 8 - 8)
      = if i - 8 - 8 < 8 then tag.getLsbD (i - 8 - 8) else (a : BitVec 8).getLsbD (i - 8 - 8 - 8) :=
    BitVec.getLsbD_append (x := a) (y := tag) (i := i - 8 - 8)
  have h3 : (st ++ rop : BitVec 16).getLsbD i = if i < 8 then rop.getLsbD i else st.getLsbD (i - 8) :=
    BitVec.getLsbD_append (x := st) (y := rop) (i := i)
  rw [h0, h1, h2, h3]
  have e1 : i - 8 - 8 = i - 16 := by omega
  have e2 : i - 8 - 8 - 8 = i - 24 := by omega
  rw [e1] at *
  by_cases a1 : i < 8
  · have : i < 16 := by omega
    simp [a1, this]
  · by_cases a2 : i < 16
    · have : i - 8 < 8 := by omega
      simp [a1, a2, this]
    · have b2 : ¬ (i - 8 < 8) := by omega
      by_cases a3 : i < 24
      · have : i - 16 < 8 := by omega
        simp [a1, a2, a3, b2, this]
      · have : ¬ (i - 16 < 8) := by omega
        have e3 : i - 16 - 8 = i - 24 := by omega
        simp [a1, a2, a3, b2, this, e3]

theorem replyHeader_eq (tag st rop : Byte) : replyHeader tag st rop = header 0x81#8 tag (st ++ rop) :=
  fourBytes_eq _ tag st rop

theorem lifecycleHeader_eq (agc : Bool) (ev : BitVec 2) :
    lifecycleHeader agc ev = header 0x82#8 (0#5 ++ BitVec.ofBool agc ++ ev) 0#16 := by
  revert ev; cases agc <;> decide

theorem audioHeader_eq (len : BitVec 16) : audioHeader len = header 0x83#8 0#8 len := rfl

theorem toneHeader_eq (rep lost : Bool) (id : BitVec 16) :
    toneHeader rep lost id = header 0x84#8 (0#6 ++ BitVec.ofBool rep ++ BitVec.ofBool lost) id := by
  have h : (0x84#8 ++ 0#6 ++ BitVec.ofBool rep ++ BitVec.ofBool lost : BitVec 16)
      = (0x84#8 ++ (0#6 ++ BitVec.ofBool rep ++ BitVec.ofBool lost : BitVec 8) : BitVec 16) := by
    cases rep <;> cases lost <;> decide
  exact congrArg (fun (x : BitVec 16) => (x ++ id : BitVec 32)) h

theorem faultHeader_eq (tag : Byte) (code : BitVec 16) : faultHeader tag code = header 0x8F#8 tag code := rfl

end Sys2Proof
end

