-- ==== Sys2Proof/Laws/Flags.lean ====
section
/-! SUPPORT. The STATUS word bit by bit (10_state.md R33). -/

namespace Sys2Proof.Machine

/-- Every bit of the STATUS word, by its number. -/
theorem Channel.statusWord_bit (ch : Channel) (k : Nat) :
    ch.statusWord.getLsbD k =
      (if k < 1 then decide (k = 0) && ch.config.configured
       else if k < 2 then ch.mutedFlag
       else if k < 3 then ch.squelch.changed
       else if k < 4 then ch.callFlag
       else if k < 5 then ch.regs.autoTrack
       else if k < 6 then ch.regs.override
       else if k < 8 then false
       else if k < 16 then ch.fstat.getLsbD (k - 8)
       else if k < 24 then ch.implField.getLsbD (k - 16)
       else if k < 29 then ch.log2dField.getLsbD (k - 24)
       else false) := by
  unfold Channel.statusWord
  repeat rw [BitVec.getLsbD_append]
  simp only [BitVec.getLsbD_ofBool, Nat.sub_sub]
  by_cases h : k < 32
  · interval_cases k <;> simp
  · repeat rw [if_neg (by omega)]
    simp

/-- The two flags as the bits say them. -/
@[simp] theorem Channel.mutedFlag_iff (ch : Channel) : ch.mutedFlag = true ↔ ch.squelch.state = .muted := by
  simp [Channel.mutedFlag]

@[simp] theorem Channel.callFlag_iff (ch : Channel) : ch.callFlag = true ↔ ch.lc = .call := by
  simp [Channel.callFlag]

end Sys2Proof.Machine
end

