-- ==== Sys2Proof/Laws/Resampler.lean ====
section
/-! SUPPORT. What the resampler returns and keeps (44_resampler_orchestrator.md R262, R263). -/

namespace Sys2Proof.Machine

variable (c : Cfg) (l m : Nat) (taps : List F)

theorem resampleTurns_succ (dl : List F) (fuel acc : Nat) :
    resampleTurns c l m taps dl (fuel + 1) acc =
      if acc < l then
        (phaseOutput c l acc taps dl :: (resampleTurns c l m taps dl fuel (acc + m)).1,
         (resampleTurns c l m taps dl fuel (acc + m)).2)
      else ([], acc) := rfl

/-- Every output of an input's turns moves the accumulator by `RS_M`. -/
theorem resampleTurns_acc (dl : List F) (fuel acc : Nat) :
    (resampleTurns c l m taps dl fuel acc).2 = acc + (resampleTurns c l m taps dl fuel acc).1.length * m := by
  induction fuel generalizing acc with
  | zero => simp [resampleTurns]
  | succ fuel ih =>
    rw [resampleTurns_succ]
    split
    · simp only [ih, List.length_cons]
      ring
    · simp

/-- The turns end at an accumulator of at least `RS_L`, and less than `RS_L + RS_M` if they began below it. -/
theorem resampleTurns_bounds (dl : List F) (hm : 0 < m) (fuel acc : Nat) (hf : l ≤ acc + fuel) :
    l ≤ (resampleTurns c l m taps dl fuel acc).2 ∧
      (acc < l + m → (resampleTurns c l m taps dl fuel acc).2 < l + m) := by
  induction fuel generalizing acc with
  | zero => simp only [resampleTurns]; omega
  | succ fuel ih =>
    rw [resampleTurns_succ]
    split
    · have := ih (acc + m) (by omega)
      exact ⟨this.1, fun _ => this.2 (by omega)⟩
    · simp only; omega

theorem resample_cons (x : F) (xs : List F) (r : Resampler) :
    resample c l m taps (x :: xs) r =
      ((resampleTurns c l m taps (push r.dl x) l r.acc).1 ++
        (resample c l m taps xs
          { dl := push r.dl x, acc := (resampleTurns c l m taps (push r.dl x) l r.acc).2 - l }).1,
       (resample c l m taps xs
          { dl := push r.dl x, acc := (resampleTurns c l m taps (push r.dl x) l r.acc).2 - l }).2) := rfl

/-- The resampler pushes every input, in order. -/
theorem resample_delay (xs : List F) (r : Resampler) : (resample c l m taps xs r).2.dl = pushAll r.dl xs := by
  induction xs generalizing r with
  | nil => rfl
  | cons x xs ih => simp [resample_cons, ih]

@[simp] theorem resample_delay_length (xs : List F) (r : Resampler) :
    (resample c l m taps xs r).2.dl.length = r.dl.length := by rw [resample_delay, pushAll_length]

/-- The accumulator's balance: each input takes `RS_L` from it, each output gives it `RS_M`. -/
theorem resample_balance (hm : 0 < m) (xs : List F) (r : Resampler) :
    (resample c l m taps xs r).2.acc + xs.length * l = r.acc + (resample c l m taps xs r).1.length * m := by
  induction xs generalizing r with
  | nil => simp [resample]
  | cons x xs ih =>
    have h1 := resampleTurns_acc c l m taps (push r.dl x) l r.acc
    have h2 := (resampleTurns_bounds c l m taps (push r.dl x) hm l r.acc (by omega)).1
    have h3 := ih { dl := push r.dl x, acc := (resampleTurns c l m taps (push r.dl x) l r.acc).2 - l }
    rw [resample_cons]
    simp only [List.length_append, List.length_cons, Nat.add_mul] at *
    omega

/-- The accumulator stays below `RS_M`. -/
theorem resample_acc_lt (hm : 0 < m) (xs : List F) (r : Resampler) (hr : r.acc < m) :
    (resample c l m taps xs r).2.acc < m := by
  induction xs generalizing r with
  | nil => exact hr
  | cons x xs ih =>
    have h := resampleTurns_bounds c l m taps (push r.dl x) hm l r.acc (by omega)
    have h2 := h.2 (by omega)
    rw [resample_cons]
    exact ih _ (by simp only; omega)

/-- A block cut in two is resampled piece by piece. -/
theorem resample_append (xs ys : List F) (r : Resampler) :
    resample c l m taps (xs ++ ys) r =
      ((resample c l m taps xs r).1 ++ (resample c l m taps ys (resample c l m taps xs r).2).1,
       (resample c l m taps ys (resample c l m taps xs r).2).2) := by
  induction xs generalizing r with
  | nil => rfl
  | cons x xs ih => simp [resample_cons, ih]

end Sys2Proof.Machine
end

