-- ==== Sys2Proof/Laws/Squelch.lean ====
section
/-! SUPPORT. What the squelch controller can do (42_squelch.md). -/

namespace Sys2Proof.Machine

section Track

variable (c : Cfg) (p : F) (ch : Channel)

@[simp] theorem trackFloor_cmdPort : (trackFloor c p ch).cmdPort = ch.cmdPort := by unfold trackFloor; split <;> rfl
@[simp] theorem trackFloor_msgPort : (trackFloor c p ch).msgPort = ch.msgPort := by unfold trackFloor; split <;> rfl
@[simp] theorem trackFloor_config : (trackFloor c p ch).config = ch.config := by unfold trackFloor; split <;> rfl
@[simp] theorem trackFloor_dec : (trackFloor c p ch).dec = ch.dec := by unfold trackFloor; split <;> rfl
@[simp] theorem trackFloor_fir : (trackFloor c p ch).fir = ch.fir := by unfold trackFloor; split <;> rfl
@[simp] theorem trackFloor_tone : (trackFloor c p ch).tone = ch.tone := by unfold trackFloor; split <;> rfl
@[simp] theorem trackFloor_resampler : (trackFloor c p ch).resampler = ch.resampler := by
  unfold trackFloor; split <;> rfl
@[simp] theorem trackFloor_lc : (trackFloor c p ch).lc = ch.lc := by unfold trackFloor; split <;> rfl
@[simp] theorem trackFloor_fstat : (trackFloor c p ch).fstat = ch.fstat := by unfold trackFloor; split <;> rfl

/-- The tracker writes `NF` and nothing else of the squelch. -/
theorem trackFloor_squelch : ∃ nf, (trackFloor c p ch).squelch = { ch.squelch with nf := nf } := by
  unfold trackFloor; split
  · exact ⟨_, rfl⟩
  · exact ⟨ch.squelch.nf, rfl⟩

/-- The tracker writes `THRESHOLD` and no other register. -/
theorem trackFloor_regs : ∃ th, (trackFloor c p ch).regs = { ch.regs with threshold := th } := by
  unfold trackFloor; split
  · exact ⟨_, rfl⟩
  · exact ⟨ch.regs.threshold, rfl⟩

/-- Without auto-track, or while unmuted, the tracker does nothing (R194). -/
theorem trackFloor_idle (h : ch.regs.autoTrack = false ∨ ch.squelch.state = .unmuted) : trackFloor c p ch = ch := by
  unfold trackFloor
  rcases h with h | h <;> simp [h]

end Track

/-- The four things the decision of R195 can do to the squelch: open, close, or only count. -/
theorem squelchDecide_cases (c : Cfg) (r : Regs) (p : F) (q : Squelch) :
    (r.override = true ∧ q.state = .muted ∧
      squelchDecide c r p q = { q with openCnt := 0, closeCnt := 0, state := .unmuted, changed := true }) ∨
    (r.override = true ∧ q.state = .unmuted ∧ squelchDecide c r p q = { q with openCnt := 0, closeCnt := 0 }) ∨
    (r.override = false ∧ q.state = .muted ∧ (if opens c r p then q.openCnt + 1 else 0) = c.openDebounce ∧
      squelchDecide c r p q = { q with openCnt := 0, closeCnt := 0, state := .unmuted, changed := true }) ∨
    (r.override = false ∧ q.state = .muted ∧ (if opens c r p then q.openCnt + 1 else 0) ≠ c.openDebounce ∧
      squelchDecide c r p q = { q with openCnt := if opens c r p then q.openCnt + 1 else 0 }) ∨
    (r.override = false ∧ q.state = .unmuted ∧ (if closes c r p then q.closeCnt + 1 else 0) = c.closeDebounce ∧
      squelchDecide c r p q = { q with openCnt := 0, closeCnt := 0, state := .muted, changed := true }) ∨
    (r.override = false ∧ q.state = .unmuted ∧ (if closes c r p then q.closeCnt + 1 else 0) ≠ c.closeDebounce ∧
      squelchDecide c r p q = { q with closeCnt := if closes c r p then q.closeCnt + 1 else 0 }) := by
  unfold squelchDecide
  cases r.override <;> cases hq : q.state
  · by_cases h : (if opens c r p then q.openCnt + 1 else 0) = c.openDebounce <;> simp [h]
  · by_cases h : (if closes c r p then q.closeCnt + 1 else 0) = c.closeDebounce <;> simp [h]
  · simp
  · simp

section Eval

variable (c : Cfg) (a : List F) (ch : Channel)

@[simp] theorem squelchEval_cmdPort : (squelchEval c a ch).cmdPort = ch.cmdPort := by simp [squelchEval]
@[simp] theorem squelchEval_msgPort : (squelchEval c a ch).msgPort = ch.msgPort := by simp [squelchEval]
@[simp] theorem squelchEval_config : (squelchEval c a ch).config = ch.config := by simp [squelchEval]
@[simp] theorem squelchEval_dec : (squelchEval c a ch).dec = ch.dec := by simp [squelchEval]
@[simp] theorem squelchEval_fir : (squelchEval c a ch).fir = ch.fir := by simp [squelchEval]
@[simp] theorem squelchEval_tone : (squelchEval c a ch).tone = ch.tone := by simp [squelchEval]
@[simp] theorem squelchEval_resampler : (squelchEval c a ch).resampler = ch.resampler := by simp [squelchEval]
@[simp] theorem squelchEval_lc : (squelchEval c a ch).lc = ch.lc := by simp [squelchEval]
@[simp] theorem squelchEval_fstat : (squelchEval c a ch).fstat = ch.fstat := by simp [squelchEval]

/-- The evaluation writes `THRESHOLD` and no other register. -/
theorem squelchEval_regs : ∃ th, (squelchEval c a ch).regs = { ch.regs with threshold := th } := by
  simpa [squelchEval] using trackFloor_regs c (blockPower c a) ch

end Eval

end Sys2Proof.Machine
end

