-- ==== Sys2Proof/Laws/Tone.lean ====
section
/-! SUPPORT. What the tone decoder can do (43_ctcss.md). -/

namespace Sys2Proof.Machine

/-! ### The bank -/

theorem goertzelStep_snd (c : Cfg) (k q1 q2 : List F) (x : F) : (goertzelStep c k q1 q2 x).2 = q1 := rfl

/-- The bank keeps its size. -/
theorem goertzelStep_length (c : Cfg) (k q1 q2 : List F) (x : F) (n : Nat) (hk : k.length = n) (h1 : q1.length = n)
    (h2 : q2.length = n) : (goertzelStep c k q1 q2 x).1.length = n := by simp [goertzelStep, hk, h1, h2]

/-- The recursion tone by tone (R236). -/
theorem goertzelStep_get (c : Cfg) (k q1 q2 : List F) (x : F) (t : Nat) (hk : t < k.length) (h1 : t < q1.length)
    (h2 : t < q2.length) :
    memRead (goertzelStep c k q1 q2 x).1 t = goertzelNext c (memRead k t) (memRead q1 t) (memRead q2 t) x := by
  simp [goertzelStep, memRead, List.zip, hk, h1, h2]

/-- The powers tone by tone (R237). -/
theorem tonePowers_get (c : Cfg) (k q1 q2 : List F) (t : Nat) (hk : t < k.length) (h1 : t < q1.length)
    (h2 : t < q2.length) :
    memRead (tonePowers c k q1 q2) t = tonePower c (memRead k t) (memRead q1 t) (memRead q2 t) := by
  simp [tonePowers, memRead, List.zip, hk, h1, h2]

theorem tonePowers_length (c : Cfg) (k q1 q2 : List F) (n : Nat) (hk : k.length = n) (h1 : q1.length = n)
    (h2 : q2.length = n) : (tonePowers c k q1 q2).length = n := by simp [tonePowers, hk, h1, h2]

/-! ### The candidate -/

/-- The strongest tone is one of the list. -/
theorem strongest_lt (pw : List F) (h : 0 < pw.length) : strongest pw < pw.length := by
  have key : ∀ (l : List Nat) (m : Nat), (∀ t ∈ l, t < pw.length) → m < pw.length →
      l.foldl (fun m t => if fgt (memRead pw t) (memRead pw m) then t else m) m < pw.length := by
    intro l
    induction l with
    | nil => intro m _ hm; exact hm
    | cons t l ih =>
      intro m hl hm
      refine ih _ (fun u hu => hl u (List.mem_cons_of_mem _ hu)) ?_
      change (if fgt (memRead pw t) (memRead pw m) then t else m) < pw.length
      split
      · exact hl t List.mem_cons_self
      · exact hm
  exact key _ 0 (fun t ht => List.mem_range.mp ht) h

/-- Where no power is a NaN, the strongest tone is the first of greatest power (R238). -/
theorem strongest_first (pw : List F) (h0 : 0 < pw.length) (hn : ∀ t < pw.length, isNaN (memRead pw t) = false) :
    (∀ t < pw.length, fgt (memRead pw t) (memRead pw (strongest pw)) = false) ∧
    ∀ t < strongest pw, fgt (memRead pw (strongest pw)) (memRead pw t) = true := by
  have key : ∀ n, 0 < n → (∀ t < n, isNaN (memRead pw t) = false) →
      let r := (List.range n).foldl (fun m t => if fgt (memRead pw t) (memRead pw m) then t else m) 0
      r < n ∧ (∀ t < n, fgt (memRead pw t) (memRead pw r) = false) ∧
        ∀ t < r, fgt (memRead pw r) (memRead pw t) = true := by
    intro n
    induction n with
    | zero => intro h; omega
    | succ n ih =>
      intro _ hn
      rcases Nat.eq_zero_or_pos n with rfl | hp
      · simp
      obtain ⟨h1, h2, h3⟩ := ih hp (fun t ht => hn t (by omega))
      simp only [List.range_succ, List.foldl_append, List.foldl_cons, List.foldl_nil]
      generalize (List.range n).foldl (fun m t => if fgt (memRead pw t) (memRead pw m) then t else m) 0 = r at *
      by_cases hg : fgt (memRead pw n) (memRead pw r) = true
      · rw [if_pos hg]
        have hall : ∀ t < n, fgt (memRead pw n) (memRead pw t) = true := by
          intro t ht
          have hle := h2 t ht
          simp only [fgt, hn t (by omega), hn n (by omega), hn r (by omega), Bool.not_false, Bool.true_and,
            decide_eq_true_eq, decide_eq_false_iff_not] at hg hle ⊢
          omega
        refine ⟨by omega, fun t ht => ?_, hall⟩
        rcases Nat.lt_succ_iff_lt_or_eq.mp ht with ht | rfl
        · have := hall t ht
          simp only [fgt, Bool.and_eq_true, decide_eq_true_eq] at this
          simp only [fgt, Bool.and_eq_false_iff, decide_eq_false_iff_not]
          exact .inr (by omega)
        · simp
      · rw [if_neg hg]
        refine ⟨by omega, fun t ht => ?_, h3⟩
        rcases Nat.lt_succ_iff_lt_or_eq.mp ht with ht | rfl
        · exact h2 t ht
        · simpa using hg
  exact (key pw.length h0 hn).2

/-- A candidate is a tone of the list that passes both tests (R238). -/
theorem candidate_some (c : Cfg) (pw : List F) (m : Nat) (h : candidate c pw = some m) :
    m < pw.length ∧ m = strongest pw ∧ fgt (memRead pw m) (fmul c c.toneMult (othersSum c pw m)) = true
      ∧ fgt (memRead pw m) c.toneFloor = true := by
  unfold candidate at h
  split at h
  · simp at h
  · simp only at h
    split at h
    · rename_i h0 hb
      simp only [Option.some.injEq] at h
      subst h
      simp only [Bool.and_eq_true] at hb
      exact ⟨strongest_lt pw (by omega), rfl, hb.1, hb.2⟩
    · simp at h

/-! ### The debounce machine -/

/-- What the counters part does, case by case (R240). -/
theorem toneCount_same (d : ToneDecoder) (t : Nat) (h : d.cur = some t) :
    toneCount (some t) d = { d with lossCnt := 0, pend := none, matchCnt := 0 } := by simp [toneCount, h]

theorem toneCount_other (d : ToneDecoder) (t : Nat) (h : d.cur ≠ some t) :
    toneCount (some t) d =
      { d with
        pend := some t
        matchCnt := if d.pend = some t then d.matchCnt + 1 else 1
        lossCnt := if d.cur.isSome then d.lossCnt + 1 else d.lossCnt } := by simp [toneCount, h]

theorem toneCount_none (d : ToneDecoder) :
    toneCount none d =
      { d with pend := none, matchCnt := 0, lossCnt := if d.cur.isSome then d.lossCnt + 1 else d.lossCnt } := rfl

/-- The three things the action part can do: promote, drop, nothing (R240). -/
theorem toneAct_cases (c : Cfg) (ts : Word) (d : ToneDecoder) :
    (∃ t, d.pend = some t ∧ (c.matchCount : Nat) ≤ d.matchCnt ∧
      toneAct c ts d = ({ d with cur := some t, pend := none, matchCnt := 0, lossCnt := 0, lastTx := ts },
        promotionMessages d.cur t ts)) ∨
    ((d.pend = none ∨ d.matchCnt < c.matchCount) ∧ ∃ a, d.cur = some a ∧ (c.lossCount : Nat) ≤ d.lossCnt ∧
      toneAct c ts d = ({ d with cur := none, pend := none, matchCnt := 0, lossCnt := 0 },
        [Message.tone (toneId a) true false ts])) ∨
    ((d.pend = none ∨ d.matchCnt < c.matchCount) ∧ (d.cur = none ∨ d.lossCnt < c.lossCount) ∧
      toneAct c ts d = (d, [])) := by
  unfold toneAct promoted droppedTone
  by_cases hm : (c.matchCount : Nat) ≤ d.matchCnt
  · cases hp : d.pend with
    | some t => exact .inl ⟨t, rfl, hm, by simp [hm]⟩
    | none =>
      by_cases hl : (c.lossCount : Nat) ≤ d.lossCnt
      · cases hc : d.cur with
        | some a => exact .inr (.inl ⟨.inl rfl, a, rfl, hl, by simp [hm, hl]⟩)
        | none => exact .inr (.inr ⟨.inl rfl, .inl rfl, by simp [hm, hl]⟩)
      · exact .inr (.inr ⟨.inl rfl, .inr (by omega), by simp [hm, hl]⟩)
  · by_cases hl : (c.lossCount : Nat) ≤ d.lossCnt
    · cases hc : d.cur with
      | some a => exact .inr (.inl ⟨.inr (by omega), a, rfl, hl, by simp [hm, hl]⟩)
      | none => exact .inr (.inr ⟨.inr (by omega), .inl rfl, by simp [hm, hl]⟩)
    · exact .inr (.inr ⟨.inr (by omega), .inr (by omega), by simp [hm, hl]⟩)

/-- The debounce machine leaves the pre-filter, the bank and the window fill alone. -/
theorem toneFsm_frame (c : Cfg) (cand : Option Nat) (ts : Word) (d : ToneDecoder) :
    (toneFsm c cand ts d).1.dl = d.dl ∧ (toneFsm c cand ts d).1.q1 = d.q1 ∧ (toneFsm c cand ts d).1.q2 = d.q2
      ∧ (toneFsm c cand ts d).1.n = d.n := by
  have hc : (toneCount cand d).dl = d.dl ∧ (toneCount cand d).q1 = d.q1 ∧ (toneCount cand d).q2 = d.q2
      ∧ (toneCount cand d).n = d.n := by
    unfold toneCount
    split
    · split <;> exact ⟨rfl, rfl, rfl, rfl⟩
    · exact ⟨rfl, rfl, rfl, rfl⟩
  unfold toneFsm
  rcases toneAct_cases c ts (toneCount cand d) with ⟨t, -, -, h⟩ | ⟨-, a, -, -, h⟩ | ⟨-, -, h⟩ <;> rw [h] <;> exact hc

/-- The rebroadcast check writes `LAST_TX` at most. -/
theorem toneRebroadcast_frame (c : Cfg) (ts : Word) (d : ToneDecoder) :
    ∃ tx, (toneRebroadcast c ts d).1 = { d with lastTx := tx } := by
  unfold toneRebroadcast
  split
  · split
    · exact ⟨ts, rfl⟩
    · exact ⟨d.lastTx, rfl⟩
  · exact ⟨d.lastTx, rfl⟩

/-- The two things the rebroadcast check can do (R241): announce the current tone again when it is due, or nothing. -/
theorem toneRebroadcast_cases (c : Cfg) (ts : Word) (d : ToneDecoder) :
    (∃ t, d.cur = some t ∧ c.rebroadcastMs ≤ tsdiff ts d.lastTx ∧
      toneRebroadcast c ts d = ({ d with lastTx := ts }, [Message.tone (toneId t) false true ts])) ∨
    ((d.cur = none ∨ tsdiff ts d.lastTx < c.rebroadcastMs) ∧ toneRebroadcast c ts d = (d, [])) := by
  unfold toneRebroadcast
  cases hc : d.cur with
  | none => exact .inr ⟨.inl rfl, rfl⟩
  | some t =>
    by_cases h : c.rebroadcastMs ≤ tsdiff ts d.lastTx
    · exact .inl ⟨t, rfl, h, by simp [h]⟩
    · exact .inr ⟨.inr (BitVec.not_le.mp h), by simp [h]⟩

/-! ### The stage -/

/-- An invariant of the decoder that a sample's turn keeps and that does not read `LAST_TX` is kept by the stage. -/
theorem toneRun_keeps (c : Cfg) (cf : ActiveConfig) (ts : Word) (p : ToneDecoder → Prop)
    (hturn : ∀ x d, p d → p (toneTurn c cf ts x d).1) (htx : ∀ d tx, p d → p { d with lastTx := tx })
    (a : List F) (d : ToneDecoder) (h : p d) : p (toneRun c cf ts a d).1 := by
  have hs : ∀ (a : List F) (d : ToneDecoder), p d → p (toneSamples c cf ts a d).1 := by
    intro a
    induction a with
    | nil => intro d h; exact h
    | cons x xs ih => intro d h; exact ih _ (hturn x d h)
  obtain ⟨tx, e⟩ := toneRebroadcast_frame c ts (toneSamples c cf ts a d).1
  change p (toneRebroadcast c ts (toneSamples c cf ts a d).1).1
  rw [e]
  exact htx _ tx (hs a d h)

/-- The messages and the state of a block's samples, cut in two. -/
theorem toneSamples_append (c : Cfg) (cf : ActiveConfig) (ts : Word) (a b : List F) (d : ToneDecoder) :
    toneSamples c cf ts (a ++ b) d =
      ((toneSamples c cf ts b (toneSamples c cf ts a d).1).1,
       (toneSamples c cf ts a d).2 ++ (toneSamples c cf ts b (toneSamples c cf ts a d).1).2) := by
  induction a generalizing d with
  | nil => rfl
  | cons x xs ih => simp [toneSamples, ih]

section Process

variable (c : Cfg) (a : List F) (ts : Word) (ch : Channel)

@[simp] theorem toneProcess_cmdPort : (toneProcess c a ts ch).cmdPort = ch.cmdPort := rfl
@[simp] theorem toneProcess_msgPort :
    (toneProcess c a ts ch).msgPort = ch.msgPort ++ messageWords (toneRun c ch.config ts a ch.tone).2 := rfl
@[simp] theorem toneProcess_regs : (toneProcess c a ts ch).regs = ch.regs := rfl
@[simp] theorem toneProcess_config : (toneProcess c a ts ch).config = ch.config := rfl
@[simp] theorem toneProcess_dec : (toneProcess c a ts ch).dec = ch.dec := rfl
@[simp] theorem toneProcess_fir : (toneProcess c a ts ch).fir = ch.fir := rfl
@[simp] theorem toneProcess_squelch : (toneProcess c a ts ch).squelch = ch.squelch := rfl
@[simp] theorem toneProcess_tone : (toneProcess c a ts ch).tone = (toneRun c ch.config ts a ch.tone).1 := rfl
@[simp] theorem toneProcess_resampler : (toneProcess c a ts ch).resampler = ch.resampler := rfl
@[simp] theorem toneProcess_lc : (toneProcess c a ts ch).lc = ch.lc := rfl
@[simp] theorem toneProcess_fstat : (toneProcess c a ts ch).fstat = ch.fstat := rfl

end Process

end Sys2Proof.Machine
end

