-- ==== Sys2Proof/Laws/IqBlock.lean ====
section
/-! SUPPORT. What each stage of an IQ block writes, and the block as a whole, field by field
(44_resampler_orchestrator.md R270). -/

namespace Sys2Proof.Machine

/-! ### The squelch stage -/

section SquelchStage

variable (c : Cfg) (a : List F) (ch : Channel)

theorem squelchStage_nil : squelchStage c [] ch = { ch with squelch := ch.squelch.clearChanged } := rfl

theorem squelchStage_eval (h : a ≠ []) :
    squelchStage c a ch = squelchEval c a { ch with squelch := ch.squelch.clearChanged } := by simp [squelchStage, h]

@[simp] theorem squelchStage_cmdPort : (squelchStage c a ch).cmdPort = ch.cmdPort := by
  unfold squelchStage; split <;> simp
@[simp] theorem squelchStage_msgPort : (squelchStage c a ch).msgPort = ch.msgPort := by
  unfold squelchStage; split <;> simp
@[simp] theorem squelchStage_config : (squelchStage c a ch).config = ch.config := by
  unfold squelchStage; split <;> simp
@[simp] theorem squelchStage_dec : (squelchStage c a ch).dec = ch.dec := by
  unfold squelchStage; split <;> simp
@[simp] theorem squelchStage_fir : (squelchStage c a ch).fir = ch.fir := by
  unfold squelchStage; split <;> simp
@[simp] theorem squelchStage_tone : (squelchStage c a ch).tone = ch.tone := by
  unfold squelchStage; split <;> simp
@[simp] theorem squelchStage_resampler : (squelchStage c a ch).resampler = ch.resampler := by
  unfold squelchStage; split <;> simp
@[simp] theorem squelchStage_lc : (squelchStage c a ch).lc = ch.lc := by
  unfold squelchStage; split <;> simp
@[simp] theorem squelchStage_fstat : (squelchStage c a ch).fstat = ch.fstat := by
  unfold squelchStage; split <;> simp

theorem squelchStage_regs : ∃ th, (squelchStage c a ch).regs = { ch.regs with threshold := th } := by
  unfold squelchStage
  split
  · exact ⟨ch.regs.threshold, rfl⟩
  · exact squelchEval_regs c a _

end SquelchStage

/-! ### The lifecycle stage -/

section LifecycleStage

variable (cid ts : Word) (ch : Channel)

@[simp] theorem lifecycleStage_cmdPort : (lifecycleStage cid ts ch).cmdPort = ch.cmdPort := rfl
@[simp] theorem lifecycleStage_regs : (lifecycleStage cid ts ch).regs = ch.regs := rfl
@[simp] theorem lifecycleStage_config : (lifecycleStage cid ts ch).config = ch.config := rfl
@[simp] theorem lifecycleStage_dec : (lifecycleStage cid ts ch).dec = ch.dec := rfl
@[simp] theorem lifecycleStage_fir : (lifecycleStage cid ts ch).fir = ch.fir := rfl
@[simp] theorem lifecycleStage_squelch : (lifecycleStage cid ts ch).squelch = ch.squelch := rfl
@[simp] theorem lifecycleStage_tone : (lifecycleStage cid ts ch).tone = ch.tone := rfl
@[simp] theorem lifecycleStage_resampler : (lifecycleStage cid ts ch).resampler = ch.resampler := rfl
@[simp] theorem lifecycleStage_fstat : (lifecycleStage cid ts ch).fstat = ch.fstat := rfl
@[simp] theorem lifecycleStage_lc : (lifecycleStage cid ts ch).lc = lifecycleNext ch.squelch.state := rfl

/-- The message of a block's lifecycle stage. -/
def lifecycleMessage (cid ts : Word) (lc : LcState) (sq : SqState) : Message :=
  .lifecycle (lifecycleEvent lc sq) (lifecycleEvent lc sq == LcEvent.start) cid ts

@[simp] theorem lifecycleStage_msgPort :
    (lifecycleStage cid ts ch).msgPort = ch.msgPort ++ (lifecycleMessage cid ts ch.lc ch.squelch.state).words := rfl

end LifecycleStage

/-! ### The audio stage -/

section AudioStage

variable (c : Cfg) (a : List F) (ts : Word) (ch : Channel)

@[simp] theorem audioStage_cmdPort : (audioStage c a ts ch).cmdPort = ch.cmdPort := by unfold audioStage; split <;> rfl
@[simp] theorem audioStage_regs : (audioStage c a ts ch).regs = ch.regs := by unfold audioStage; split <;> rfl
@[simp] theorem audioStage_config : (audioStage c a ts ch).config = ch.config := by unfold audioStage; split <;> rfl
@[simp] theorem audioStage_dec : (audioStage c a ts ch).dec = ch.dec := by unfold audioStage; split <;> rfl
@[simp] theorem audioStage_fir : (audioStage c a ts ch).fir = ch.fir := by unfold audioStage; split <;> rfl
@[simp] theorem audioStage_squelch : (audioStage c a ts ch).squelch = ch.squelch := by unfold audioStage; split <;> rfl
@[simp] theorem audioStage_tone : (audioStage c a ts ch).tone = ch.tone := by unfold audioStage; split <;> rfl
@[simp] theorem audioStage_lc : (audioStage c a ts ch).lc = ch.lc := by unfold audioStage; split <;> rfl
@[simp] theorem audioStage_fstat : (audioStage c a ts ch).fstat = ch.fstat := by unfold audioStage; split <;> rfl

/-- While muted the stage does nothing (R264). -/
theorem audioStage_muted (h : ch.squelch.state = .muted) : audioStage c a ts ch = ch := by simp [audioStage, h]

/-- The audio messages of a block. -/
def audioOf (c : Cfg) (cf : ActiveConfig) (a : List F) (ts : Word) (r : Resampler) : SqState → List Message
  | .unmuted => audioMessages ts (resample c cf.rsL cf.rsM cf.rsTaps a r).1
  | .muted => []

/-- The resampler after a block. -/
def resamplerAfter (c : Cfg) (cf : ActiveConfig) (a : List F) (r : Resampler) : SqState → Resampler
  | .unmuted => (resample c cf.rsL cf.rsM cf.rsTaps a r).2
  | .muted => r

@[simp] theorem audioStage_msgPort :
    (audioStage c a ts ch).msgPort =
      ch.msgPort ++ messageWords (audioOf c ch.config a ts ch.resampler ch.squelch.state) := by
  unfold audioStage audioOf
  cases ch.squelch.state <;> simp

@[simp] theorem audioStage_resampler :
    (audioStage c a ts ch).resampler = resamplerAfter c ch.config a ch.resampler ch.squelch.state := by
  unfold audioStage resamplerAfter
  cases ch.squelch.state <;> rfl

end AudioStage

/-! ### The block -/

section RunBlock

variable (c : Cfg) (cid ts : Word) (i q : List F) (ch : Channel)

/-- The demodulated block of an IQ block. -/
abbrev demodulated (c : Cfg) (ch : Channel) (i q : List F) : List F := (frontEnd c ch i q).1

/-- The channel after the squelch stage of an IQ block. -/
abbrev squelched (c : Cfg) (ch : Channel) (i q : List F) : Channel :=
  squelchStage c (demodulated c ch i q) (frontEnd c ch i q).2

@[simp] theorem runBlock_cmdPort : (runBlock c cid ts i q ch).cmdPort = ch.cmdPort := by simp [runBlock]
@[simp] theorem runBlock_config : (runBlock c cid ts i q ch).config = ch.config := by simp [runBlock]
@[simp] theorem runBlock_fstat : (runBlock c cid ts i q ch).fstat = ch.fstat := by simp [runBlock]
@[simp] theorem runBlock_regs : (runBlock c cid ts i q ch).regs = (squelched c ch i q).regs := by simp [runBlock]
@[simp] theorem runBlock_dec : (runBlock c cid ts i q ch).dec = (frontEnd c ch i q).2.dec := by simp [runBlock]
@[simp] theorem runBlock_fir : (runBlock c cid ts i q ch).fir = (frontEnd c ch i q).2.fir := by simp [runBlock]
@[simp] theorem runBlock_squelch : (runBlock c cid ts i q ch).squelch = (squelched c ch i q).squelch := by
  simp [runBlock]
@[simp] theorem runBlock_lc : (runBlock c cid ts i q ch).lc = lifecycleNext (squelched c ch i q).squelch.state := by
  simp [runBlock]
@[simp] theorem runBlock_tone :
    (runBlock c cid ts i q ch).tone = (toneRun c ch.config ts (demodulated c ch i q) ch.tone).1 := by simp [runBlock]
@[simp] theorem runBlock_resampler :
    (runBlock c cid ts i q ch).resampler =
      resamplerAfter c ch.config (demodulated c ch i q) ch.resampler (squelched c ch i q).squelch.state := by
  simp [runBlock]

/-- The messages of a block: the lifecycle event, the audio, the tones. -/
theorem runBlock_msgPort :
    (runBlock c cid ts i q ch).msgPort =
      ch.msgPort ++ messageWords
        (lifecycleMessage cid ts ch.lc (squelched c ch i q).squelch.state ::
          (audioOf c ch.config (demodulated c ch i q) ts ch.resampler (squelched c ch i q).squelch.state ++
            (toneRun c ch.config ts (demodulated c ch i q) ch.tone).2)) := by
  simp [runBlock, messageWords]

end RunBlock

/-! ### IQ_BLOCK -/

/-- The four things IQ_BLOCK can do. -/
theorem iqBlock_cases (c : Cfg) (num : Nat) (tag : Byte) (ts : Word) (i q : List F) (ch : Channel) :
    (i.length = 0 ∧ iqBlock c num tag ts i q ch = ch.takeFault .badArgument tag 0#32) ∨
    (i.length ≠ 0 ∧ ch.config.configured = false ∧
      iqBlock c num tag ts i q ch = ch.takeFault .precondNotConfigured tag 0#32) ∨
    (i.length ≠ 0 ∧ ch.config.configured = true ∧ laneOk ch.config.implActive (decimatedLength ch i.length) = false ∧
      iqBlock c num tag ts i q ch =
        ch.takeFault .precondLane tag (BitVec.ofNat 32 (decimatedLength ch i.length))) ∨
    (i.length ≠ 0 ∧ ch.config.configured = true ∧ laneOk ch.config.implActive (decimatedLength ch i.length) = true ∧
      iqBlock c num tag ts i q ch = runBlock c (c.channelId num) ts i q ch) := by
  unfold iqBlock
  by_cases h : i.length = 0
  · simp [h]
  · cases hc : ch.config.configured
    · simp [h]
    · cases hl : laneOk ch.config.implActive (decimatedLength ch i.length) <;> simp [h, hl]

end Sys2Proof.Machine
end

