-- ==== Sys2Proof/Laws/PerInstr.lean ====
section
/-! SUPPORT. Facts stated of every instruction, one lemma per constructor. -/

namespace Sys2Proof.Laws

/-! ### The first encoded word selects the instruction's own row (30_encoding.md R93) -/

/-- The header an instruction is encoded with selects its row and no other. -/
def HeaderSelectsRow.Statement (i : Instr) : Prop := (encode i).head?.bind opcodeOf = some (rowOf i)

theorem HeaderSelectsRow.sampleRate (tag : Byte) (rate : Word) :
    HeaderSelectsRow.Statement (.sampleRate tag rate) := opcodeOf_header .sampleRate tag _ (BitVec.and_zero) (by decide)

theorem HeaderSelectsRow.iqBlock (tag : Byte) (ts : Word) (i q : List F) :
    HeaderSelectsRow.Statement (.iqBlock tag ts i q) := opcodeOf_header .iqBlock tag _ (BitVec.and_zero) (BitVec.and_zero)

theorem HeaderSelectsRow.reset (tag : Byte) :
    HeaderSelectsRow.Statement (.reset tag) := opcodeOf_header .reset tag _ (BitVec.and_zero) (by decide)

theorem HeaderSelectsRow.getStatus (tag : Byte) :
    HeaderSelectsRow.Statement (.getStatus tag) := opcodeOf_header .getStatus tag _ (BitVec.and_zero) (by decide)

theorem HeaderSelectsRow.getThreshold (tag : Byte) :
    HeaderSelectsRow.Statement (.getThreshold tag) := opcodeOf_header .getThreshold tag _ (BitVec.and_zero) (by decide)

theorem HeaderSelectsRow.setThreshold (tag : Byte) (value : F) :
    HeaderSelectsRow.Statement (.setThreshold tag value) := opcodeOf_header .setThreshold tag _ (BitVec.and_zero) (by decide)

theorem HeaderSelectsRow.getAutotrack (tag : Byte) :
    HeaderSelectsRow.Statement (.getAutotrack tag) := opcodeOf_header .getAutotrack tag _ (BitVec.and_zero) (by decide)

theorem HeaderSelectsRow.setAutotrack (tag : Byte) (b : Bool) :
    HeaderSelectsRow.Statement (.setAutotrack tag b) := opcodeOf_header .setAutotrack tag _ (BitVec.and_zero) (by cases b <;> decide)

theorem HeaderSelectsRow.getHystOpen (tag : Byte) :
    HeaderSelectsRow.Statement (.getHystOpen tag) := opcodeOf_header .getHystOpen tag _ (BitVec.and_zero) (by decide)

theorem HeaderSelectsRow.setHystOpen (tag : Byte) (value : F) :
    HeaderSelectsRow.Statement (.setHystOpen tag value) := opcodeOf_header .setHystOpen tag _ (BitVec.and_zero) (by decide)

theorem HeaderSelectsRow.getHystClose (tag : Byte) :
    HeaderSelectsRow.Statement (.getHystClose tag) := opcodeOf_header .getHystClose tag _ (BitVec.and_zero) (by decide)

theorem HeaderSelectsRow.setHystClose (tag : Byte) (value : F) :
    HeaderSelectsRow.Statement (.setHystClose tag value) := opcodeOf_header .setHystClose tag _ (BitVec.and_zero) (by decide)

theorem HeaderSelectsRow.setOverride (tag : Byte) (b : Bool) :
    HeaderSelectsRow.Statement (.setOverride tag b) := opcodeOf_header .setOverride tag _ (BitVec.and_zero) (by cases b <;> decide)

theorem HeaderSelectsRow.getGain (tag : Byte) :
    HeaderSelectsRow.Statement (.getGain tag) := opcodeOf_header .getGain tag _ (BitVec.and_zero) (by decide)

theorem HeaderSelectsRow.setGain (tag : Byte) (value : F) :
    HeaderSelectsRow.Statement (.setGain tag value) := opcodeOf_header .setGain tag _ (BitVec.and_zero) (by decide)

theorem HeaderSelectsRow.calWrite (tag : Byte) (code : Byte) :
    HeaderSelectsRow.Statement (.calWrite tag code) := opcodeOf_header .calWrite tag _ (BitVec.and_zero) (by revert code; decide)

theorem HeaderSelectsRow.calRead (tag : Byte) :
    HeaderSelectsRow.Statement (.calRead tag) := opcodeOf_header .calRead tag _ (BitVec.and_zero) (by decide)

theorem HeaderSelectsRow.implRequest (tag : Byte) (code : Byte) :
    HeaderSelectsRow.Statement (.implRequest tag code) := opcodeOf_header .implRequest tag _ (BitVec.and_zero) (by revert code; decide)

theorem HeaderSelectsRow.reply (tag st rop : Byte) :
    HeaderSelectsRow.Statement (.reply tag st rop) := by
  change opcodeOf (replyHeader tag st rop) = _
  rw [replyHeader_eq]
  exact opcodeOf_header .reply tag (st ++ rop) (BitVec.and_zero) (BitVec.and_zero)

theorem HeaderSelectsRow.lifecycle (agc : Bool) (ev : BitVec 2) :
    HeaderSelectsRow.Statement (.lifecycle agc ev) := by
  change opcodeOf (lifecycleHeader agc ev) = _
  rw [lifecycleHeader_eq]
  exact opcodeOf_header .lifecycle _ 0#16 (by revert ev; cases agc <;> decide) (by decide)

theorem HeaderSelectsRow.audio (len : BitVec 16) :
    HeaderSelectsRow.Statement (.audio len) := opcodeOf_header .audio 0#8 len (by decide) (BitVec.and_zero)

theorem HeaderSelectsRow.tone (rep lost : Bool) (id : BitVec 16) :
    HeaderSelectsRow.Statement (.tone rep lost id) := by
  change opcodeOf (toneHeader rep lost id) = _
  rw [toneHeader_eq]
  exact opcodeOf_header .tone _ id (by cases rep <;> cases lost <;> decide) (BitVec.and_zero)

theorem HeaderSelectsRow.fault (tag : Byte) (code : BitVec 16) :
    HeaderSelectsRow.Statement (.fault tag code) := opcodeOf_header .fault tag code (BitVec.and_zero) (BitVec.and_zero)

end Sys2Proof.Laws
end

