-- ==== Sys2Proof/Laws/Step.lean ====
section
/-! SUPPORT. What an instruction and a step can do, said once: an instruction changes the acting channel and perhaps
`CAL_SEL`, and nothing else; a step is one instruction of one channel that could move. -/

namespace Sys2Proof.Machine

/-! ### One instruction -/

/-- The effect of an instruction on the record of the acting channel, `cal` being the value of `CAL_SEL`. -/
def channelEffect (c : Cfg) (num : Nat) (cal : Byte) (i : Instr) (ch : Channel) : Channel :=
  match i with
  | .sampleRate tag rate => sampleRate c num cal tag rate ch
  | .iqBlock tag ts xi xq => iqBlock c num tag ts xi xq ch
  | .reset _ => resetChannel ch
  | .getStatus tag => ch.answer .getStatus tag ch.statusWord
  | .getThreshold tag => ch.answer .getThreshold tag ch.regs.threshold
  | .setThreshold tag v => (ch.withRegs (fun r => { r with threshold := v })).answer .setThreshold tag v
  | .getAutotrack tag => ch.answer .getAutotrack tag (bitWord ch.regs.autoTrack)
  | .setAutotrack tag b => (ch.withRegs (fun r => { r with autoTrack := b })).answer .setAutotrack tag (bitWord b)
  | .getHystOpen tag => ch.answer .getHystOpen tag ch.regs.hystOpen
  | .setHystOpen tag v => (ch.withRegs (fun r => { r with hystOpen := v })).answer .setHystOpen tag v
  | .getHystClose tag => ch.answer .getHystClose tag ch.regs.hystClose
  | .setHystClose tag v => (ch.withRegs (fun r => { r with hystClose := v })).answer .setHystClose tag v
  | .setOverride tag b => (ch.withRegs (fun r => { r with override := b })).answer .setOverride tag (bitWord b)
  | .getGain tag => ch.answer .getGain tag ch.regs.gain
  | .setGain tag v => (ch.withRegs (fun r => { r with gain := v })).answer .setGain tag v
  | .calWrite tag code =>
    if !calCodeOk c code then ch.takeFault .badArgument tag (byteWord code)
    else if cal = 0#8 then ch.answer .calWrite tag (byteWord code)
    else ch.emit (.reply tag .lost (Opcode.code .calWrite) (byteWord cal))
  | .calRead tag => ch.answer .calRead tag (byteWord cal)
  | .implRequest tag code => implRequest c tag code ch
  | .reply tag st rop => ch.takeFault .illegalCommand tag (replyHeader tag st rop)
  | .lifecycle agc ev => ch.takeFault .illegalCommand (commandTag (.lifecycle agc ev)) (lifecycleHeader agc ev)
  | .audio len => ch.takeFault .illegalCommand (commandTag (.audio len)) (audioHeader len)
  | .tone rep lost id => ch.takeFault .illegalCommand (commandTag (.tone rep lost id)) (toneHeader rep lost id)
  | .fault tag code => ch.takeFault .illegalCommand tag (faultHeader tag code)

/-- The value of `CAL_SEL` after an instruction. -/
def calAfter (c : Cfg) (cal : Byte) (i : Instr) : Byte :=
  match i with
  | .calWrite _ code => if calCodeOk c code && cal == 0#8 then code else cal
  | _ => cal

@[simp] theorem tagOf_replyHeader (tag st rop : Byte) : tagOf (replyHeader tag st rop) = tag := by
  rw [replyHeader_eq, tagOf_header]

@[simp] theorem tagOf_faultHeader (tag : Byte) (code : BitVec 16) : tagOf (faultHeader tag code) = tag := by
  rw [faultHeader_eq, tagOf_header]

/-- Every instruction answers a next state: the acting channel's effect, the new `CAL_SEL`, all else as it was. -/
theorem exec_eq (i : Instr) (s : State) :
    exec i s = .next { s with active := channelEffect Config.cfg s.activeNum s.calSel i s.active,
                              calSel := calAfter Config.cfg s.calSel i } := by
  cases i with
  | calWrite tag code =>
    simp only [exec, execCalWrite, calWrite, channelEffect, calAfter, State.onActive]
    cases calCodeOk Config.cfg code <;> by_cases h : s.calSel = 0#8 <;> simp [h]
  | reply tag st rop => simp [exec, execReply, channelEffect, calAfter, State.takeIllegal, State.onActive]
  | fault tag code => simp [exec, execFault, channelEffect, calAfter, State.takeIllegal, State.onActive]
  | _ => rfl

/-- A value of `CAL_SEL` other than UNCALIBRATED stays (10_state.md R32 "written once"). -/
theorem calAfter_keeps (c : Cfg) (cal : Byte) (i : Instr) (h : cal ≠ 0#8) : calAfter c cal i = cal := by
  unfold calAfter; split <;> simp [h]

/-! ### Decoded instructions are well-formed -/

theorem decode_wellFormed (ws rest : List Word) (i : Instr) (h : decode ws = .instr i rest) : i.WellFormed := by
  obtain ⟨w, o, p, -, -, hp, rfl⟩ := decode_instr ws rest i h
  cases o <;> simp only [assemble, Instr.WellFormed, Instr.wellFormed]
  simp only [payloadWords] at hp
  have h16 : (argOf w).toNat < 65536 := (argOf w).isLt
  simp [Instr.SameLength, Instr.LenFits]
  omega

/-! ### Whose turn it is -/

/-- Settling keeps every channel and `CAL_SEL`, and ends at a channel that can move. -/
theorem State.settle_some (s s' : State) (h : s.settle = some s') :
    s'.channels = s.channels ∧ s'.calSel = s.calSel ∧ s'.active.enabled = true := by
  unfold State.settle at h
  split at h
  · cases h; exact ⟨rfl, rfl, by assumption⟩
  · split at h
    · rename_i j hj
      cases h
      have he := List.find?_some hj
      simp only [State.enabledAt] at he
      split at he
      · rename_i ch hch
        rw [State.focus_active s j ch hch]
        exact ⟨State.focus_channels s j, State.focus_calSel s j, he⟩
      · simp at he
    · simp at h

theorem State.settle_enabled (s : State) (h : s.active.enabled = true) : s.settle = some s := by
  simp [State.settle, h]

/-- No channel can settle exactly when none can move. -/
theorem State.settle_none (s : State) : s.settle = none ↔ ∀ ch ∈ s.channels, ch.enabled = false := by
  unfold State.settle
  by_cases ha : s.active.enabled = true
  · simp only [ha, if_true]
    constructor
    · intro h; simp at h
    · intro h
      have := h s.active (by simp [State.channels])
      simp [ha] at this
  · simp only [ha]
    have key : s.turnOrder.find? s.enabledAt = none ↔ ∀ ch ∈ s.channels, ch.enabled = false := by
      rw [List.find?_eq_none]
      constructor
      · intro h ch hch
        obtain ⟨j, hj⟩ := List.mem_iff_getElem?.mp hch
        have hlt : j < s.channels.length := (List.getElem?_eq_some_iff.mp hj).1
        by_cases hja : j = s.activeNum
        · subst hja
          rw [State.channels_active] at hj
          cases hj
          simpa using ha
        · have hmem : j ∈ s.turnOrder := by
            simp only [State.turnOrder, List.mem_append, List.mem_map, List.mem_range]
            simp only [State.channels, List.length_append, List.length_cons, State.activeNum] at hlt hja
            rcases Nat.lt_or_ge j s.left.length with hl | hl
            · exact .inr hl
            · exact .inl ⟨j - (s.left.length + 1), by omega, by omega⟩
          have := h j hmem
          simpa [State.enabledAt, hj] using this
      · intro h j _
        simp only [State.enabledAt]
        split
        · rename_i ch hch
          have := h ch (List.mem_of_getElem? hch)
          simp [this]
        · simp
    cases hf : s.turnOrder.find? s.enabledAt with
    | none => exact ⟨fun _ => key.mp hf, fun _ => rfl⟩
    | some j =>
      simp only [Bool.false_eq_true, if_false, reduceCtorEq, false_iff]
      intro h
      rw [key.mpr h] at hf
      simp at hf

/-! ### One step -/

/-- A step that answers a next state executed one instruction, or one illegal header, of a channel that could move. -/
theorem step_next (s t : State) (h : step s = .next t) :
    ∃ s', s.settle = some s' ∧
      ((∃ i rest u, decode s'.active.cmdPort = .instr i rest ∧ exec i (s'.consume rest) = .next u
          ∧ t = u.reschedule Config.cfg)
       ∨ (∃ w rest, decode s'.active.cmdPort = .illegal w rest
          ∧ t = ((s'.consume rest).takeIllegal w).reschedule Config.cfg)) := by
  unfold step fetch at h
  cases hs : s.settle with
  | none => simp [hs] at h
  | some s' =>
    refine ⟨s', rfl, ?_⟩
    simp only [hs] at h
    cases hd : decode s'.active.cmdPort with
    | empty => simp [hd] at h
    | incomplete o n => simp [hd] at h
    | instr i rest =>
      simp only [hd, exec_eq, afterCommand, Host.Outcome.next.injEq] at h
      exact .inl ⟨i, rest, _, rfl, exec_eq i _, h.symm⟩
    | illegal w rest =>
      simp only [hd, afterCommand, Host.Outcome.next.injEq] at h
      exact .inr ⟨w, rest, rfl, h.symm⟩

/-- An invariant of every channel is kept by every step if taking words from the command port keeps it, taking
ILLEGAL_COMMAND keeps it, and every well-formed instruction's effect keeps it. `q` is what may be assumed of `CAL_SEL`. -/
theorem step_each (p : Nat → Channel → Prop) (q : Byte → Prop)
    (hport : ∀ num ch rest, p num ch → p num { ch with cmdPort := rest })
    (hill : ∀ num ch w, p num ch → p num (ch.takeFault .illegalCommand (tagOf w) w))
    (heff : ∀ num cal i ch, i.WellFormed → q cal → p num ch → p num (channelEffect Config.cfg num cal i ch))
    (s t : State) (hq : q s.calSel) (hs : s.Each p) (h : step s = .next t) : t.Each p := by
  obtain ⟨s', hset, hstep⟩ := step_next s t h
  obtain ⟨hch, hcal, -⟩ := State.settle_some s s' hset
  have hs' : s'.Each p := fun j ch hj => hs j ch (by rw [← hch]; exact hj)
  have hact : p s'.activeNum s'.active := hs' _ _ (State.channels_active s')
  have lift : ∀ (f : Channel → Channel) (u : State), u.channels = (s'.onActive f).channels →
      p s'.activeNum (f s'.active) → u.Each p := by
    intro f u hu hf j ch hj
    rw [hu, State.channels_onActive] at hj
    split at hj
    · rename_i hja; cases hj; rw [hja]; exact hf
    · exact hs' j ch hj
  rcases hstep with ⟨i, rest, u, hd, hu, rfl⟩ | ⟨w, rest, -, rfl⟩
  · rw [exec_eq] at hu
    cases hu
    refine lift (fun ch => channelEffect Config.cfg s'.activeNum s'.calSel i { ch with cmdPort := rest }) _ ?_ ?_
    · rw [State.reschedule_channels]; rfl
    · exact heff _ _ i _ (decode_wellFormed _ _ _ hd) (by rw [hcal]; exact hq) (hport _ _ rest hact)
  · refine lift (fun ch => ({ ch with cmdPort := rest } : Channel).takeFault .illegalCommand (tagOf w) w) _ ?_ ?_
    · rw [State.reschedule_channels]; rfl
    · exact hill _ _ _ (hport _ _ rest hact)

/-- What a step does to `CAL_SEL`. -/
theorem step_calSel (s t : State) (h : step s = .next t) :
    t.calSel = s.calSel ∨ ∃ i, t.calSel = calAfter Config.cfg s.calSel i := by
  obtain ⟨s', hset, hstep⟩ := step_next s t h
  obtain ⟨-, hcal, -⟩ := State.settle_some s s' hset
  rcases hstep with ⟨i, rest, u, -, hu, rfl⟩ | ⟨w, rest, -, rfl⟩
  · rw [exec_eq] at hu
    cases hu
    exact .inr ⟨i, by simp [hcal]⟩
  · exact .inl (by simp [hcal])

end Sys2Proof.Machine
end

