-- ==== Sys2Proof/Tests/Slice0.lean ====
section
/-! SUPPORT. Tests of the model's own: ill-formed terms, decoding of words written out from 30_encoding.md, single steps
whose expected results are the vectors of 95_test_vectors.md and the worked values of the rules, and for each
obligation with hypotheses a witness that meets them. -/

namespace Sys2Proof.Tests

set_option Elab.async false

open Sys2Proof Sys2Proof.Machine

/-! ### The test configuration `Cfg_T` (95_test_vectors.md section 0) -/

/-- The fields `Cfg_T` does not name have any value. -/
def base : Cfg := default

/-- `TrackRef` (42_squelch.md R194): the first power, then halfway to each further one. -/
def trackRef : Option F → F → F
  | none, p => p
  | some nf, p => fadd base nf (fmul base 0x3F000000#32 (fsub base p nf))

/-- `Cfg_T` with the bandwidth of a vector. Its three tone coefficients are given by position. -/
def cfgT (bw : ℕ+) : Cfg :=
  { base with
    nchan := 1
    channelBw := fun _ => bw
    channelId := fun _ => 9#32
    lanes := [2, 4, 8, 16]
    equiripple := fun _ => some [0x3F800000#32]
    fallback := fun _ => some [0x3F800000#32]
    decimTaps := fun _ d _ =>
      { first := fdiv base 0x3F800000#32 (ofNatF d)
        rest := List.replicate (d - 1) (fdiv base 0x3F800000#32 (ofNatF d)) }
    toneLpfTaps := fun _ _ => { first := 0x3F800000#32, rest := [] }
    resampTaps := fun l _ => { first := 0x3F800000#32, rest := List.replicate (l - 1) 0x3F800000#32 }
    track := trackRef
    autoOffset := 0x40C00000#32
    openDebounce := 2
    closeDebounce := 3
    tones := [4, 6, 3]
    goertzelCoeff := fun f _ _ => if f = 4 then 0#32 else if f = 6 then 0x3F800000#32 else 0xBF800000#32
    toneMult := 0x40000000#32
    toneFloor := 0x3F800000#32
    matchCount := 2
    lossCount := 2
    rebroadcastMs := 1000#32
    thresholdReset := 0x41200000#32
    hystOpenReset := 0x40400000#32
    hystCloseReset := 0x40C00000#32
    gainReset := 0x3F800000#32 }

/-- A channel of `Cfg_T` after hardware reset. -/
def fresh : Channel := Channel.reset (cfgT 15000)

/-- A system of one channel. -/
def alone (ch : Channel) : State := { calSel := 0#8, left := [], active := ch, right := [], tick := 0 }

/-- The acting channel of an outcome. -/
def acting : StepResult → Channel
  | .next s => s.active
  | .fault _ | .refused _ => fresh

/-- A channel with identity filters and factor `d`, configured with variant `impl`, in `Cfg_T`'s registers. -/
def configured (d : Nat) (impl : Byte) : Channel :=
  { fresh with
    config :=
      { fresh.config with
        configured := true
        fsIn := 50000#32
        decimD := d
        implActive := impl
        chTaps := [0x3F800000#32]
        decTaps := List.replicate d (fdiv base 0x3F800000#32 (ofNatF d))
        toneTaps := [0x3F800000#32]
        rsTaps := [0x3F800000#32]
        coeff := []
        toneWin := 25000 }
    dec := { iDl := zeros d, qDl := zeros d, iR := 0, qR := 0 }
    fir := { iDl := [0#32], qDl := [0#32] }
    tone := { fresh.tone with dl := [0#32], q1 := [], q2 := [] }
    resampler := { dl := [0#32], acc := 0 } }

/-- The same channel within a call. -/
def inCall (d : Nat) : Channel :=
  { configured d 1#8 with lc := .call, squelch := { Squelch.reset with state := .unmuted } }

/-- The samples 1.0 and 10.0. -/
def one : F := 0x3F800000#32
def ten : F := 0x41200000#32

/-- A block of `n` samples `x` on the I branch, 0.0 on the Q branch. -/
def block (n : Nat) (x : F) : Instr := .iqBlock 0#8 20#32 (List.replicate n x) (List.replicate n 0#32)

/-! ### Ill-formed terms are refused (WellFormed) -/

theorem test_refuses_unequal_branches : ¬ (Instr.iqBlock 0#8 0#32 [one] []).WellFormed := by decide

theorem block_wellFormed (n : Nat) (ts : Word) (x : F) :
    (Instr.iqBlock 0#8 ts (List.replicate n x) (List.replicate n x)).WellFormed ↔ n < 2 ^ 16 := by
  simp [Instr.WellFormed, Instr.wellFormed, Instr.LenFits, Instr.SameLength]

theorem test_refuses_block_of_65536 :
    ¬ (Instr.iqBlock 0#8 0#32 (List.replicate 65536 one) (List.replicate 65536 one)).WellFormed :=
  by rw [block_wellFormed]; decide

theorem test_accepts_block_of_65535 :
    (Instr.iqBlock 0#8 0#32 (List.replicate 65535 one) (List.replicate 65535 one)).WellFormed :=
  by rw [block_wellFormed]; decide

/-! ### Words written out from 30_encoding.md R93, R98 to R102: header fields `OPC TAG ARG`, then the payload -/

theorem test_decode_sampleRate :
    decode [0b00000001_00000100_0000000000000000#32, 0x0000752F#32, 5#32] = .instr (.sampleRate 4#8 29999#32) [5#32] := by
  decide
theorem test_decode_iqBlock :
    decode [0b00000010_10000001_0000000000000010#32, 7#32, 1#32, 2#32, 3#32, 4#32]
      = .instr (.iqBlock 0x81#8 7#32 [1#32, 2#32] [3#32, 4#32]) [] := by decide
theorem test_decode_reset : decode [0b00000011_00000101_0000000000000000#32] = .instr (.reset 5#8) [] := by decide
theorem test_decode_getStatus :
    decode [0b00000100_11111111_0000000000000000#32] = .instr (.getStatus 0xFF#8) [] := by decide
theorem test_decode_getThreshold :
    decode [0b00010000_00000001_0000000000000000#32] = .instr (.getThreshold 1#8) [] := by decide
theorem test_decode_setThreshold :
    decode [0b00010001_00000010_0000000000000000#32, ten] = .instr (.setThreshold 2#8 ten) [] := by decide
theorem test_decode_getAutotrack :
    decode [0b00010010_00000011_0000000000000000#32] = .instr (.getAutotrack 3#8) [] := by decide
theorem test_decode_setAutotrack :
    decode [0b00010011_00000100_0000000000000001#32] = .instr (.setAutotrack 4#8 true) [] := by decide
theorem test_decode_setAutotrack_clear :
    decode [0b00010011_00000100_0000000000000000#32] = .instr (.setAutotrack 4#8 false) [] := by decide
theorem test_decode_getHystOpen :
    decode [0b00010100_00000101_0000000000000000#32] = .instr (.getHystOpen 5#8) [] := by decide
theorem test_decode_setHystOpen :
    decode [0b00010101_00000110_0000000000000000#32, one] = .instr (.setHystOpen 6#8 one) [] := by decide
theorem test_decode_getHystClose :
    decode [0b00010110_00000111_0000000000000000#32] = .instr (.getHystClose 7#8) [] := by decide
theorem test_decode_setHystClose :
    decode [0b00010111_00001000_0000000000000000#32, one] = .instr (.setHystClose 8#8 one) [] := by decide
theorem test_decode_setOverride :
    decode [0b00011001_00001001_0000000000000001#32] = .instr (.setOverride 9#8 true) [] := by decide
theorem test_decode_getGain :
    decode [0b00011010_00001010_0000000000000000#32] = .instr (.getGain 10#8) [] := by decide
theorem test_decode_setGain :
    decode [0b00011011_00001011_0000000000000000#32, one] = .instr (.setGain 11#8 one) [] := by decide
theorem test_decode_calWrite :
    decode [0b00100000_00001100_00000000_00010000#32] = .instr (.calWrite 12#8 16#8) [] := by decide
theorem test_decode_calRead :
    decode [0b00100001_00001101_0000000000000000#32] = .instr (.calRead 13#8) [] := by decide
theorem test_decode_implRequest :
    decode [0b00100010_00001110_00000000_00000010#32] = .instr (.implRequest 14#8 2#8) [] := by decide
theorem test_decode_reply :
    decode [0b10000001_00000001_00000000_00010001#32] = .instr (.reply 1#8 0#8 0x11#8) [] := by decide
theorem test_decode_lifecycle :
    decode [0b10000010_00000_1_01_0000000000000000#32] = .instr (.lifecycle true 1#2) [] := by decide
theorem test_decode_audio :
    decode [0b10000011_00000000_0000000000000001#32] = .instr (.audio 1#16) [] := by decide
theorem test_decode_tone :
    decode [0b10000100_000000_1_0_0000000000001100#32] = .instr (.tone true false 12#16) [] := by decide
theorem test_decode_fault :
    decode [0b10001111_00000000_0000000000000100#32] = .instr (.fault 0#8 4#16) [] := by decide
/-- A fixed field that is not zero, and opcodes of no row (R96 classes 1 and 3). -/
theorem test_decode_illegal :
    [0x10000001#32, 0x13000002#32, 0x20000100#32, 0x18000000#32, 0x00000000#32].map (fun w => decode [w, 1#32])
      = [.illegal 0x10000001#32 [1#32], .illegal 0x13000002#32 [1#32], .illegal 0x20000100#32 [1#32],
         .illegal 0x18000000#32 [1#32], .illegal 0x00000000#32 [1#32]] := by decide
theorem test_decode_waits : decode [0x02000002#32, 7#32, 1#32] = .incomplete .iqBlock 3 := by decide
theorem test_decode_empty : decode [] = .empty := by decide

/-! ### Binary32 (00_scope.md R10): values known from the format's definition -/

/-- 1 + 2^-24 ties to even, 1 + 3·2^-24 rounds up; the sum of the largest finite value and itself is infinite. -/
theorem test_fadd_rounds :
    [fadd base one 0x33800000#32, fadd base 0x3F800001#32 0x33800000#32, fadd base 0x7F7FFFFF#32 0x7F7FFFFF#32]
      = [0x3F800000#32, 0x3F800002#32, 0x7F800000#32] := by decide +kernel
/-- The product of two subnormals is zero; half the least subnormal ties to zero; a negative zero. -/
theorem test_fmul_subnormal :
    [fmul base 0x00000001#32 0x00000001#32, fmul base 0x00000001#32 0x3F000000#32, fmul base 0x80000000#32 one]
      = [0#32, 0#32, 0x80000000#32] := by decide +kernel
theorem test_fdiv_third : fdiv base one 0x40400000#32 = 0x3EAAAAAB#32 := by decide +kernel
theorem test_fsqrt_two : fsqrt base 0x40000000#32 = 0x3FB504F3#32 := by decide +kernel
/-- The three laws of `db`. -/
theorem test_db_laws : [0#32, one, 0x42C80000#32, 0x49742400#32].map (db base)
    = [0xFF800000#32, 0#32, 0x41A00000#32, 0x42700000#32] := by decide +kernel

/-! ### Single steps (95_test_vectors.md; the vector of each is named) -/

/-- Program P1 step 6: 50000 Hz at 15000 Hz of bandwidth with `CAL_SEL` 4. -/
theorem test_sampleRate_commits :
    (let cf := (sampleRate (cfgT 15000) 0 4#8 0#8 50000#32 fresh).config
     (cf.configured, cf.decimD, cf.implActive, cf.rsL, cf.rsM, cf.toneWin)) = (true, 1, 4#8, 4, 25, 25000) := by
  decide +kernel
/-- Program P1 step 4: 29999 Hz is rejected with code 1. -/
theorem test_sampleRate_insufficient :
    (sampleRate (cfgT 15000) 0 0#8 4#8 0x752F#32 fresh).msgPort = [0x8F040001#32, 0x0000752F#32] := by decide +kernel
/-- Program P1 step 5. -/
theorem test_getStatus :
    (acting (exec (.getStatus 5#8) (alone { fresh with fstat := 1#8 }))).msgPort
      = [0x81050004#32, 0x00000102#32] := by decide +kernel
/-- Program P1 step 10: variant 4, `FSTAT` 5, configured and muted. -/
theorem test_getStatus_configured :
    (acting (exec (.getStatus 9#8) (alone { configured 1 4#8 with fstat := 5#8 }))).msgPort
      = [0x81090004#32, 0x00040503#32] := by decide +kernel
/-- Program P1 steps 2 and 3: the second CAL_WRITE finds the first one's code. -/
theorem test_calWrite_wins :
    (calWrite (cfgT 15000) 2#8 4#8 (alone fresh)).active.msgPort = [0x81020020#32, 4#32] := by decide +kernel
theorem test_calWrite_loses :
    (calWrite (cfgT 15000) 3#8 1#8 { alone fresh with calSel := 4#8 }).active.msgPort
      = [0x81030120#32, 4#32] := by decide +kernel
/-- Program P1 step 1. -/
theorem test_calRead : (acting (exec (.calRead 1#8) (alone fresh))).msgPort = [0x81010021#32, 0#32] := by decide +kernel
/-- Program P1 step 9, and a code of no lane (R135). -/
theorem test_implRequest : (implRequest (cfgT 15000) 8#8 1#8 fresh).msgPort = [0x81080022#32, 1#32] := by decide +kernel
theorem test_implRequest_bad : (implRequest (cfgT 15000) 8#8 3#8 fresh).msgPort = [0x8F080006#32, 3#32] := by
  decide +kernel
/-- R200 to R210: the answer carries the register, or the value stored. -/
theorem test_getThreshold :
    (acting (exec (.getThreshold 1#8) (alone fresh))).msgPort = [0x81010010#32, 0x41200000#32] := by decide +kernel
theorem test_setThreshold :
    (acting (exec (.setThreshold 1#8 0x7FC00001#32) (alone fresh))).regs.threshold = 0x7FC00001#32 := by decide +kernel
theorem test_getAutotrack :
    (acting (exec (.getAutotrack 1#8) (alone fresh))).msgPort = [0x81010012#32, 0#32] := by decide +kernel
theorem test_setAutotrack :
    (acting (exec (.setAutotrack 1#8 true) (alone fresh))).msgPort = [0x81010013#32, 1#32] := by decide +kernel
theorem test_getHystOpen :
    (acting (exec (.getHystOpen 1#8) (alone fresh))).msgPort = [0x81010014#32, 0x40400000#32] := by decide +kernel
theorem test_setHystOpen :
    (acting (exec (.setHystOpen 1#8 one) (alone fresh))).regs = { fresh.regs with hystOpen := one } := by decide +kernel
theorem test_getHystClose :
    (acting (exec (.getHystClose 1#8) (alone fresh))).msgPort = [0x81010016#32, 0x40C00000#32] := by decide +kernel
theorem test_setHystClose :
    (acting (exec (.setHystClose 1#8 one) (alone fresh))).regs = { fresh.regs with hystClose := one } := by decide +kernel
theorem test_setOverride :
    (acting (exec (.setOverride 1#8 true) (alone fresh))).squelch.state = .muted := by decide +kernel
theorem test_getGain :
    (acting (exec (.getGain 1#8) (alone fresh))).msgPort = [0x8101001A#32, 0x3F800000#32] := by decide +kernel
theorem test_setGain :
    (acting (exec (.setGain 1#8 ten) (alone fresh))).regs = { fresh.regs with gain := ten } := by decide +kernel
/-- RESET ends a call in silence and keeps the gain. -/
theorem test_reset :
    (let ch := acting (exec (.reset 0#8) (alone (inCall 1)))
     (ch.lc, ch.squelch.state, ch.msgPort, ch.regs.gain)) = (.idle, .muted, [], one) := by decide +kernel
/-- The five message headers on the command port (R96 class 1): code 5, the tag field, the word. -/
theorem test_messageHeaders :
    [Instr.reply 1#8 0#8 0x11#8, .lifecycle true 1#2, .audio 1#16, .tone true false 12#16, .fault 3#8 4#16].map
      (fun i => (acting (exec i (alone fresh))).msgPort)
    = [[0x8F010005#32, 0x81010011#32], [0x8F050005#32, 0x82050000#32], [0x8F000005#32, 0x83000001#32],
       [0x8F020005#32, 0x8402000C#32], [0x8F030005#32, 0x8F030004#32]] := by decide +kernel
/-- Program P2 steps 4 and 11 (factor 4, rate 8000): a call begins, with one audio sample; a call ends. -/
theorem test_iqBlock_start :
    (iqBlock (cfgT 4000) 0 0#8 1#32 (List.replicate 6 ten) (List.replicate 6 0#32)
      { configured 4 1#8 with
        dec := { iDl := List.replicate 4 ten, qDl := zeros 4, iR := 0, qR := 0 }
        squelch := { Squelch.reset with openCnt := 1 } }).msgPort
    = [0x82050000#32, 9#32, 1#32, 0x83000001#32, 1#32, ten] := by decide +kernel
theorem test_iqBlock_end :
    (let ch := iqBlock (cfgT 4000) 0 0#8 7#32 (List.replicate 8 one) (List.replicate 8 0#32)
      { inCall 4 with squelch := { Squelch.reset with state := .unmuted, closeCnt := 2 } }
     (ch.msgPort, ch.squelch.state, ch.squelch.changed)) = ([0x82030000#32, 9#32, 7#32], .muted, true) := by
  decide +kernel
/-- A step of the system: the illegal header alone is consumed (R96 class 1). -/
theorem test_step_illegal :
    (let ch := acting (step (alone { fresh with cmdPort := [0x10020001#32, 5#32] }))
     (ch.cmdPort, ch.msgPort, ch.fstat)) = ([5#32], [0x8F020005#32, 0x10020001#32], 0x10#8) := by decide +kernel
/-- The word of a table row, placed where the next step takes it, is what runs. -/
theorem test_withFetchWord :
    (acting (step ((alone fresh).withFetchWord 32 0x1A010000))).msgPort = [0x8101001A#32, 0x3F800000#32] := by
  decide +kernel
/-- The cut of R100 at a size that fits a test: pieces of two, from five samples. -/
theorem test_pieces : piecesOf 5 2 [1#32, 2#32, 3#32, 4#32, 5#32] = [[1#32, 2#32], [3#32, 4#32], [5#32]] := by decide

/-! ### Witnesses: for each obligation with hypotheses, a concrete input that meets them all -/

/-- A one-channel system with words on its port. -/
def sent (ch : Channel) (ws : List Word) : State := alone { ch with cmdPort := ws }

theorem each_alone (p : Nat → Channel → Prop) (ch : Channel) (h : p 0 ch) : (alone ch).Each p := by
  intro j ch' hj
  match j, hj with
  | 0, hj =>
    simp only [alone, State.channels, List.nil_append, List.getElem?_cons_zero, Option.some.injEq] at hj
    exact hj ▸ h
  | j + 1, hj => simp [alone, State.channels] at hj

theorem test_witness_DecodeOfEncodeIsTheInstruction :
    (Instr.iqBlock 0xFF#8 7#32 [one, ten] [ten, one]).WellFormed ∧ (Instr.iqBlock 0#8 0#32 [] []).WellFormed
      ∧ (Instr.implRequest 0#8 0xFF#8).WellFormed := by decide

theorem test_witness_DecodedWordsAreTheEncoding :
    decode [0x02000001#32, 7#32, one, ten, 5#32] = .instr (.iqBlock 0#8 7#32 [one] [ten]) [5#32] := by decide

theorem test_witness_FramingIsStableUnderLaterWords :
    decode [0x03000000#32] = .instr (.reset 0#8) [] ∧ decode [0x00000000#32] = .illegal 0#32 [] ∧
    decode [0x02000001#32] = .incomplete .iqBlock 3 ∧ [7#32, one].length < 3 ∧ [7#32, one, ten].length = 3 := by decide

theorem test_witness_OtherHeadersTakeIllegalCommand :
    (sent fresh [0x10000001#32, 5#32]).active.cmdPort = 0x10000001#32 :: [5#32] ∧
    (∀ o : Opcode, o.code.toNat < 0x80 → 0x10000001#32 &&& o.mask ≠ o.pattern) ∧
    (sent fresh [0x81010011#32]).active.cmdPort = 0x81010011#32 :: [] ∧
    (∀ o : Opcode, o.code.toNat < 0x80 → 0x81010011#32 &&& o.mask ≠ o.pattern) := by
  refine ⟨rfl, ?_, rfl, ?_⟩ <;> intro o <;> cases o <;> decide

theorem test_witness_MessageWordsParseBack :
    (∀ ts samples, Message.audio 1000#32 [ten] = .audio ts samples → samples.length ≤ 65535) ∧
    (∀ ts samples, Message.audio 0#32 (List.replicate 65535 one) = .audio ts samples → samples.length ≤ 65535) := by
  constructor <;> intro ts samples h <;> cases h
  · decide
  · rw [List.length_replicate]

theorem test_witness_StepRunsTheDecodedCommand :
    decode (sent fresh [0x04070000#32, 5#32]).active.cmdPort = .instr (.getStatus 7#8) [5#32] := by decide

theorem test_witness_StepStopsExactlyWhenNoChannelCanMove :
    (∃ ch ∈ (sent fresh [0x04070000#32]).channels, ch.enabled = true) ∧ (∀ ch ∈ (alone fresh).channels, ch.cmdPort = []) ∧
    (∀ ch ∈ (sent fresh [0x01000000#32]).channels, ch.enabled = false) ∧
    (∃ ch ∈ (sent fresh [0x01000000#32]).channels, ch.cmdPort ≠ []) := by decide +kernel

/-- A step that runs an instruction, and one that runs an illegal header. -/
theorem test_witness_OneStepIsOneCommandOfOneChannel :
    (∃ t, step (sent fresh [0x1A010000#32]) = .next t) ∧ ∃ t, step (sent fresh [0x1A010001#32]) = .next t :=
  ⟨⟨_, rfl⟩, ⟨_, rfl⟩⟩

/-- Two systems that agree on the acting channel and `CAL_SEL` and on nothing else. -/
theorem test_witness_ChannelsAreIsolated :
    let s₁ := sent fresh [5#32]
    let s₂ : State := { s₁ with right := [fresh], tick := 9 }
    s₁.active = s₂.active ∧ s₁.activeNum = s₂.activeNum ∧ s₁.calSel = s₂.calSel ∧
      (∃ t, exec (.getGain 1#8) s₁ = .next t) ∧ ∃ t, exec (.getGain 1#8) s₂ = .next t :=
  ⟨rfl, rfl, rfl, ⟨_, rfl⟩, ⟨_, rfl⟩⟩

theorem test_witness_PortOrderIsExecutionOrder :
    let is : List Instr := [.getGain 1#8, .setGain 2#8 ten]
    let s := sent fresh [0x1A010000#32, 0x1B020000#32, ten, 5#32]
    (∀ i ∈ is, i.WellFormed) ∧ s.left = [] ∧ s.right = [] ∧ s.active.cmdPort = is.flatMap encode ++ [5#32] := by
  decide +kernel

/-- Unconfigured, and configured with the least and the greatest factor. -/
theorem test_witness_StatusWordHasItsFields :
    (alone fresh).active.config.configured = false ∧
    (alone (configured 1 1#8)).active.config.configured = true ∧
    (alone (configured 1 1#8)).active.config.decimD = 2 ^ 0 ∧
    (let ch := { fresh with config := { fresh.config with configured := true, decimD := 2 ^ 30 } }
     (alone ch).active.config.configured = true ∧ (alone ch).active.config.decimD = 2 ^ 30) := by decide +kernel

theorem test_witness_CalWriteComparesAndSets :
    calCodeOk Config.cfg 0#8 = false ∧ calCodeOk Config.cfg 1#8 = true ∧ calCodeOk (cfgT 15000) 2#8 = true ∧
    calCodeOk (cfgT 15000) 255#8 = false ∧ (alone fresh).calSel = 0#8 ∧ ({ alone fresh with calSel := 4#8 } : State).calSel ≠ 0#8 :=
  ⟨rfl, rfl, by decide +kernel, by decide +kernel, rfl, by decide⟩

theorem test_witness_CalSelIsWrittenOnce :
    (∃ t, exec (.calWrite 0#8 1#8) (alone fresh) = .next t ∧ t.calSel ≠ (alone fresh).calSel) ∧
    (∃ t, stepMany 1 { sent fresh [0x20000001#32] with calSel := 4#8 } = .next t) ∧
    ({ sent fresh [0x20000001#32] with calSel := 4#8 } : State).calSel ≠ 0#8 :=
  ⟨⟨_, rfl, by decide +kernel⟩, ⟨_, rfl⟩, by decide⟩

theorem test_witness_ImplRequestStoresTheCode :
    implCodeOk Config.cfg 0#8 = true ∧ implCodeOk Config.cfg 1#8 = true ∧ implCodeOk (cfgT 15000) 16#8 = true ∧
    implCodeOk (cfgT 15000) 3#8 = false :=
  ⟨rfl, rfl, by decide +kernel, by decide +kernel⟩

theorem test_witness_DecimationFactorIsTheLargestPowerOfTwo :
    (4294967295 < 2 ^ 32 ∧ 0 < 1 ∧ 2 * 1 * 2 ^ 30 ≤ 4294967295) ∧ (0 < 2 ^ 32 ∧ 0 < 15000) ∧
    (30000 < 2 ^ 32 ∧ 2 * 15000 * 2 ^ 0 ≤ 30000) := by decide

/-- At twice the bandwidth, and just below it. -/
theorem test_witness_RateIsAcceptedFromTwiceTheBandwidth :
    (30000#32 ≠ 0#32 ∧ 2 * ((cfgT 15000).channelBw 0 : Nat) ≤ (30000#32).toNat ∧
      ∀ spec, design (cfgT 15000) spec ≠ none) ∧
    29999#32 ≠ 0#32 ∧ (29999#32).toNat < 2 * ((cfgT 15000).channelBw 0 : Nat) := by
  refine ⟨⟨by decide, by decide, fun spec => ?_⟩, by decide, by decide⟩
  simp [design, cfgT, usableTaps]

/-- The three tests, each path of the design, and its failure. -/
theorem test_witness_SampleRateTestsThenCommits :
    (sampleRate (cfgT 15000) 0 0#8 0#8 30000#32 fresh).config.configured = true ∧
    (sampleRate (cfgT 15000) 0 0#8 0#8 29999#32 fresh).fstat = 1#8 ∧
    (sampleRate (cfgT 15000) 0 0#8 0#8 0#32 fresh).fstat = 0x20#8 ∧
    (sampleRate { cfgT 15000 with equiripple := fun _ => some [], fallback := fun _ => none }
      0 0#8 0#8 30000#32 fresh).fstat = 2#8 ∧
    (sampleRate { cfgT 15000 with equiripple := fun _ => some [ten] } 0 0#8 0#8 30000#32 fresh).config.chTaps = [ten] ∧
    (sampleRate { cfgT 15000 with equiripple := fun _ => some [], fallback := fun _ => some [ten, one] }
      0 0#8 0#8 30000#32 fresh).config.chTaps = [ten, one] := by decide +kernel

theorem test_witness_ResamplingRatioIsInLowestTerms : 0 < 1 ∧ 0 < 1 ∧ 0 < 4294967295 ∧ 0 < 2 ^ 30 := by decide

theorem test_witness_OnlySampleRateChangesTheConfiguration :
    (∃ t, exec (.reset 0#8) (alone (configured 1 1#8)) = .next t) ∧ (∀ tag rate, Instr.reset 0#8 ≠ .sampleRate tag rate) ∧
    (∃ t, exec (.sampleRate 0#8 0#32) (alone (configured 1 1#8)) = .next t) ∧
    faultOf Config.cfg (alone (configured 1 1#8)) (.sampleRate 0#8 0#32) ≠ none :=
  ⟨⟨_, rfl⟩, by simp, ⟨_, rfl⟩, by simp [faultOf, sampleRateFault]⟩

theorem test_witness_WorkedValuesAgree :
    (cfgT 15000).channelBw 0 = 15000 ∧ (List.replicate 25 one).length = 25 := by decide

/-- No sample; an unconfigured channel; one output on variant 2. -/
theorem test_witness_IqBlockFaultsInOrder :
    ([] : List F).length = 0 ∧ ([one].length ≠ 0 ∧ (alone fresh).active.config.configured = false) ∧
    (let ch := (alone (configured 1 2#8)).active
     [one].length ≠ 0 ∧ ch.config.configured = true ∧ ch.config.implActive ≠ 1#8 ∧
     (ch.dec.iR + [one].length) / ch.config.decimD % ch.config.implActive.toNat ≠ 0) := by decide +kernel

/-- The hypotheses of the statements on a completed block, on variant 1 and on variant 2 with two outputs. -/
theorem test_witness_IqBlockRunsItsStagesInOrder :
    (let ch := (alone (configured 1 1#8)).active
     [one].length = [ten].length ∧ [one].length ≠ 0 ∧ ch.config.configured = true ∧ ch.config.implActive = 1#8) ∧
    (let ch := (alone (configured 1 2#8)).active
     [one, one].length = [ten, ten].length ∧ [one, one].length ≠ 0 ∧ ch.config.configured = true ∧
     (ch.dec.iR + [one, one].length) / ch.config.decimD % ch.config.implActive.toNat = 0) := by decide +kernel

/-- A channel in `OVERRIDE`: its next block unmutes it. -/
def forced (ch : Channel) : Channel := { ch with regs := { ch.regs with override := true } }

/-- A channel in a call that one more low block ends, whatever `CLOSE_DEBOUNCE` is. -/
def ending : Channel :=
  { inCall 1 with squelch := { Squelch.reset with state := .unmuted, closeCnt := (Config.closeDebounce : Nat) - 1 } }

/-- The block of one zero sample, and the power it has. -/
theorem ending_closes : (squelchStage Config.cfg [0#32] ending).squelch.state = .muted := by
  have hp : blockPower Config.cfg [0#32] = 0xFF800000#32 := by
    simp only [blockPower, sumSquares, List.foldl, List.length]
    simp (disch := decide +kernel) only [fadd_finite Config.cfg base, fmul_finite Config.cfg base,
      fdiv_finite Config.cfg base, db_stated Config.cfg base]
    decide +kernel
  have hc : closes Config.cfg ending.regs 0xFF800000#32 = true := by
    have : fsub Config.cfg ending.regs.threshold ending.regs.hystClose = 0x40800000#32 := by rfl
    rw [closes, this]; decide +kernel
  have hn : (Config.closeDebounce : Nat) - 1 + 1 = Config.closeDebounce := Nat.sub_add_cancel Config.closeDebounce.pos
  have hi : trackFloor Config.cfg 0xFF800000#32 { ending with squelch := ending.squelch.clearChanged }
      = { ending with squelch := ending.squelch.clearChanged } := rfl
  rw [squelchStage_eval _ _ _ (by simp), squelchEval, hp]
  simp only [hi, squelchDecide]
  have ho : ending.regs.override = false := rfl
  have hs : ending.squelch.clearChanged.state = .unmuted := rfl
  have hcnt : ending.squelch.clearChanged.closeCnt = (Config.closeDebounce : Nat) - 1 := rfl
  simp only [ho, hs, hcnt, hc, if_true, hn, Bool.false_eq_true, if_false]
  exact congrArg Squelch.state (if_pos rfl)

/-- The four events: IDLE on a fresh channel, START and CONTINUATION by `OVERRIDE`, END on `ending`. -/
theorem test_witness_BlockMessagesFollowTheLifecycleTable :
    (squelchStage (cfgT 15000) [one] (configured 1 1#8)).squelch.state = .muted ∧ (configured 1 1#8).lc = .idle ∧
    (acting (exec (block 1 one) (alone (forced (configured 1 1#8))))).squelch.state = .unmuted ∧
    (forced (configured 1 1#8)).lc = .idle ∧
    (acting (exec (block 1 one) (alone (forced (inCall 1))))).squelch.state = .unmuted ∧ (forced (inCall 1)).lc = .call ∧
    (squelchStage Config.cfg [0#32] ending).squelch.state = .muted ∧ ending.lc = .call :=
  ⟨by decide +kernel, rfl, by decide +kernel, rfl, by decide +kernel, rfl, ending_closes, rfl⟩

/-- One sample for a factor of 4, and one sample more than the last that is absorbed needs. -/
theorem test_witness_EmptyDecimatedBlockIsAbsorbed :
    (let ch := (alone (configured 4 1#8)).active
     [one].length = [ten].length ∧ [one].length ≠ 0 ∧ ch.config.configured = true ∧
     ch.dec.iR + [one].length < ch.config.decimD) ∧
    (configured 4 1#8).BranchesInStep ∧ (configured 4 1#8).CallMatchesSquelch ∧
    (inCall 4).BranchesInStep ∧ (inCall 4).CallMatchesSquelch :=
  ⟨by decide +kernel, ⟨rfl, by decide +kernel⟩, by simp [Channel.CallMatchesSquelch, configured, fresh, Channel.reset,
    Squelch.reset], ⟨rfl, by decide +kernel⟩, by simp [Channel.CallMatchesSquelch, inCall]⟩

theorem test_witness_DecimatorOutputsDoNotDependOnBlocks :
    (0 < 1) ∧ (0 < 2 ∧ 2 ≠ 1 ∧ 0 < [one, ten, one].length / 2) ∧ (3 < 4) ∧
    [[one], [], [ten, one]].flatten = [one, ten, one] := by decide

theorem test_witness_ChannelFilterIsAConvolution :
    [one, ten].length = [ten, one].length ∧ 0 < [one].length := by decide

theorem test_witness_DemodulatorIsElementwiseForEveryVariant :
    [one].length = [ten].length ∧ (configured 2 1#8).BranchesInStep := ⟨rfl, ⟨rfl, by decide +kernel⟩⟩

/-- A tie between 2^23 and 2^23 + 1 units, the least value above zero, and both sides of the overflow threshold: half an
ulp above the largest finite value, and one unit less. -/
theorem test_witness_RoundingIsToNearestEven :
    (0 < 2 ∧ roundMag (2 ^ 24 + 1) 2 = 2 ^ 23 ∧ 2 ^ 23 < infMag ∧ 2 ^ 23 + 1 < infMag) ∧
    (0 < 2 ∧ roundMag 1 2 = 0 ∧ 0 < infMag ∧ 1 < infMag) ∧
    (0 < 1 ∧ roundMag ((2 ^ 25 - 1) * 2 ^ 252) 1 = infMag ∧ roundMag ((2 ^ 25 - 1) * 2 ^ 252 - 1) 1 = infMag - 1) := by
  decide +kernel

/-- Three low blocks at `CLOSE_DEBOUNCE` 3; a low block and one that is not. -/
theorem test_witness_MutingTakesTheFullCloseDebounce :
    let c := cfgT 15000
    let ch := inCall 1
    let low := fun a => flt (blockPower c a) (fsub c ch.regs.threshold ch.regs.hystClose)
    ch.regs.override = false ∧ ch.squelch.state = .unmuted ∧ ch.squelch.closeCnt = 0 ∧
    (∀ n < 3, (squelchBlocks c ([[one], [one], [one]].take n) ch).squelch.state = .unmuted) ∧
    (squelchBlocks c [[one], [one], [one]] ch).squelch.state = .muted ∧
    [[one], [one], [one]].length = c.closeDebounce ∧ (∀ a ∈ [[one], [one], [one]], low a = true) ∧
    2 ≤ (c.closeDebounce : Nat) ∧ low [ten] = false := by decide +kernel

/-- A tracked channel after S14's block: the estimate is 0 dB, the threshold 6 dB. -/
def tracked : Channel :=
  squelchEval (cfgT 15000) [one]
    { configured 1 1#8 with regs := { fresh.regs with autoTrack := true } }

/-- Vectors S14, S15 and S16, of one sample each: the threshold, and the counter it gives. -/
theorem test_tracked_threshold :
    [tracked, squelchBlocks (cfgT 15000) [[ten]] tracked, squelchBlocks (cfgT 15000) [[ten], [ten]] tracked].map
      (fun ch => (ch.squelch.nf, ch.regs.threshold, ch.squelch.openCnt, ch.squelch.state))
    = [(some 0#32, 0x40C00000#32, 0, .muted), (some 0x41200000#32, 0x41800000#32, 1, .muted),
       (some 0x41700000#32, 0x41A80000#32, 0, .muted)] := by decide +kernel

/-- Not tracked, two blocks of 20 dB, and one followed by a block of 0 dB. Tracked, a block of 20 dB and one of 40 dB,
each above the level its own power moves; and S15 followed by S16. -/
theorem test_witness_UnmutingTakesTheFullOpenDebounce :
    let c := cfgT 15000
    let high := fun (ch : Channel) (a : List F) =>
      fgt (blockPower c a) (fadd c
        (if ch.regs.autoTrack then fadd c (c.track ch.squelch.nf (blockPower c a)) c.autoOffset else ch.regs.threshold)
        ch.regs.hystOpen)
    let ready := fun (ch : Channel) =>
      ch.regs.override = false ∧ ch.squelch.state = .muted ∧ ch.squelch.openCnt = 0
    let opened := fun (ch : Channel) (a b : List F) =>
      high ch a = true ∧ (squelchEval c a ch).squelch.state = .muted ∧ high (squelchEval c a ch) b = true ∧
      (squelchBlocks c [a, b] ch).squelch.state = .unmuted ∧ [a, b].length = c.openDebounce
    (ready (configured 1 1#8) ∧ opened (configured 1 1#8) [ten] [ten] ∧
      high (squelchEval c [ten] (configured 1 1#8)) [one] = false) ∧
    (ready tracked ∧ tracked.regs.autoTrack = true ∧ opened tracked [ten] [0x42C80000#32] ∧
      high (squelchEval c [ten] tracked) [ten] = false) ∧ 2 ≤ (c.openDebounce : Nat) := by decide +kernel

theorem test_witness_OverrideUnmutesAtTheNextBlock :
    (let ch := (alone (forced (configured 1 1#8))).active
     [one].length = [ten].length ∧ ch.config.configured = true ∧ ch.config.implActive = 1#8 ∧
     0 < (ch.dec.iR + [one].length) / ch.config.decimD ∧ ch.regs.override = true) ∧
    (forced (configured 1 1#8)).BranchesInStep ∧ (forced (configured 1 1#8)).CallMatchesSquelch :=
  ⟨by decide +kernel, ⟨rfl, by decide +kernel⟩, by simp [Channel.CallMatchesSquelch, forced, configured, fresh,
    Channel.reset, Squelch.reset]⟩

theorem test_witness_TrackerMovesTheThresholdOnlyWhileMuted :
    (let ch := { fresh with regs := { fresh.regs with autoTrack := true } }
     ch.regs.autoTrack = true ∧ ch.squelch.state = .muted ∧ ch.regs.override = false) ∧
    fresh.regs.autoTrack = false ∧ (inCall 1).squelch.state = .unmuted := by decide +kernel

/-- The power of a NaN sample, stage by stage. -/
theorem test_witness_NanNeverDecides_power : isNaN (blockPower (cfgT 15000) [0x7FC00000#32]) = true := by
  have h1 : sumSquares (cfgT 15000) [0x7FC00000#32] = 0x7FC00000#32 := by decide +kernel
  have h2 : fdiv (cfgT 15000) 0x7FC00000#32 (ofNatF 1) = 0x7FC00000#32 := by decide +kernel
  have h3 : isNaN (db (cfgT 15000) 0x7FC00000#32) = true := by decide +kernel
  rw [blockPower, List.length_singleton, h1, h2, h3]

/-- A NaN sample, and an untracked threshold that is NaN, in both states of the mute flag. -/
theorem test_witness_NanNeverDecides :
    (∃ x ∈ [one, 0x7FC00000#32], isNaN x = true) ∧ fresh.regs.override = false ∧
    (let ch := { fresh with regs := { fresh.regs with threshold := 0x7F800001#32 } }
     ch.regs.override = false ∧ ch.regs.autoTrack = false ∧ isNaN ch.regs.threshold = true ∧ ch.squelch.state = .muted) ∧
    (let ch := { inCall 1 with regs := { fresh.regs with threshold := 0x7F800001#32 } }
     ch.regs.override = false ∧ ch.squelch.state = .unmuted ∧ isNaN ch.regs.threshold = true) :=
  ⟨⟨0x7FC00000#32, by simp, by decide⟩, by decide +kernel⟩

theorem test_witness_WorkedSquelchTraceAgrees :
    ((cfgT 15000).openDebounce : Nat) = 2 ∧ ((cfgT 15000).closeDebounce : Nat) = 3 ∧
    fresh.regs.threshold = 0x41200000#32 ∧ fresh.regs.hystOpen = 0x40400000#32 ∧ fresh.regs.hystClose = 0x40C00000#32 ∧
    fresh.regs.autoTrack = false ∧ fresh.regs.override = false ∧ fresh.squelch = Squelch.reset := by decide +kernel

/-- A decoder of one tone: two samples short of its window, and one short. -/
theorem test_witness_WindowIsEvaluatedFromItsOwnSamples :
    let cf : ActiveConfig := { fresh.config with coeff := [one], toneTaps := [one], toneWin := 3 }
    let d : ToneDecoder := { fresh.tone with dl := [0#32], q1 := [0#32], q2 := [0#32], n := 1 }
    d.q1.length = cf.coeff.length ∧ d.q2.length = cf.coeff.length ∧ d.n + [one].length < cf.toneWin ∧
    [one, ten] ≠ [] ∧ d.n + [one, ten].length = cf.toneWin := by decide +kernel

/-- A tone, none (its power is below twice the others'), and none (its power is the floor's). -/
theorem test_witness_CandidateIsTheFirstStrongestTone :
    [[one, ten, one], [ten, one, ten], [0#32, one, 0#32]].map (candidate (cfgT 15000)) = [some 1, none, none] := by
  decide +kernel

/-- A decoder whose current tone is 1. -/
def holding : ToneDecoder := { fresh.tone with cur := some 1 }

/-- The displacement of tone 1 by tone 0 (43_ctcss.md R240): lost and detected at the second window. -/
theorem test_tone_displaced :
    (toneWindows (cfgT 15000) [(some 0, 5#32), (some 0, 6#32)] holding).2
      = [.tone 1#16 true false 6#32, .tone 0#16 false false 6#32] := by decide +kernel

/-- No tone current; one current, with two others that could displace it; one current and due for its rebroadcast, at
the interval itself; one a millisecond too early. -/
theorem test_witness_ToneDetectionAndLossTakeTwoWindows :
    ((cfgT 15000).matchCount : Nat) = 2 ∧ ((cfgT 15000).lossCount : Nat) = 2 ∧
    fresh.tone.cur = none ∧ fresh.tone.pend = none ∧
    holding.cur = some 1 ∧ holding.pend = none ∧ holding.lossCnt = 0 ∧ 0 ≠ 1 ∧ 2 ≠ 1 ∧ 2 ≠ 0 ∧
    (let run := toneSamples (cfgT 15000) fresh.config 1000#32 [] holding
     run.1.cur = some 1 ∧ (cfgT 15000).rebroadcastMs ≤ 1000#32 - run.1.lastTx) ∧
    (toneSamples (cfgT 15000) fresh.config 1000#32 [] fresh.tone).1.cur = none ∧
    999#32 - (toneSamples (cfgT 15000) fresh.config 999#32 [] holding).1.lastTx < (cfgT 15000).rebroadcastMs := by
  decide +kernel

/-- An empty accumulator, and the greatest one. -/
theorem test_witness_ResamplerSampleCount :
    0 < 3 ∧ ({ dl := [], acc := 0 } : Resampler).acc < 3 ∧ ({ dl := [], acc := 2 } : Resampler).acc < 3 := by decide

theorem test_witness_ResamplerOutputsArePolyphaseSums :
    0 < 2 ∧ 0 < 3 ∧
    0 < (resample base 2 3 [one, one] [one, ten] { dl := List.replicate (ceildiv 2 2) 0#32, acc := 0 }).1.length := by
  decide +kernel

theorem test_witness_FaultingCommandsChangeOnlyFstat :
    faultOf Config.cfg (alone fresh) (.iqBlock 0#8 0#32 [] []) = some (.badArgument, 0#32) ∧
    faultOf Config.cfg (alone fresh) (.iqBlock 0#8 0#32 [one] [one]) = some (.precondNotConfigured, 0#32) ∧
    faultOf Config.cfg (alone (configured 1 2#8)) (.iqBlock 0#8 0#32 [one] [one]) = some (.precondLane, 1#32) ∧
    faultOf Config.cfg (alone fresh) (.getGain 0#8) = none ∧ ∃ t, exec (.getGain 0#8) (alone fresh) = .next t :=
  ⟨rfl, rfl, rfl, rfl, ⟨_, rfl⟩⟩

theorem test_witness_EveryRequestIsAnsweredOnce :
    (∃ t, exec (.fault 0#8 4#16) (alone fresh) = .next t) ∧
    faultOf Config.cfg (alone fresh) (.fault 0#8 4#16) = some (.illegalCommand, 0x8F000004#32) ∧
    (∃ t, exec (.getGain 0#8) (alone fresh) = .next t) ∧ faultOf Config.cfg (alone fresh) (.getGain 0#8) = none ∧
    isRequest (.getGain 0#8) = true ∧ (∃ t, exec (.reset 0#8) (alone fresh) = .next t) ∧
    faultOf Config.cfg (alone fresh) (.reset 0#8) = none ∧ isRequest (.reset 0#8) = false :=
  ⟨⟨_, rfl⟩, rfl, ⟨_, rfl⟩, rfl, rfl, ⟨_, rfl⟩, rfl, rfl⟩

/-- A run of two steps that sets bit 4 and then bit 5 of a channel that had bit 0. -/
theorem test_witness_FstatBitsAreSticky :
    (sent { fresh with fstat := 1#8 } [0x10000001#32, 0x20000000#32]).Each (fun _ ch => ch.FstatLegal) ∧
    ∃ t, stepMany 2 (sent { fresh with fstat := 1#8 } [0x10000001#32, 0x20000000#32]) = .next t :=
  ⟨each_alone _ _ rfl, ⟨_, rfl⟩⟩

theorem test_witness_MessageStreamTracksTheChannel :
    let is : List Instr := [.setOverride 0#8 true, block 1 one, block 1 one]
    (∀ i ∈ is, notReset i = true) ∧ ∃ t, execAll is (alone (configured 1 1#8)) = .next t :=
  ⟨by decide +kernel, ⟨_, rfl⟩⟩

/-- A channel after reset that is sent GET_STATUS meets every invariant, and its step answers a next state. -/
theorem test_witness_invariants :
    let ch : Channel := { Channel.reset Config.cfg with cmdPort := [0x04070000#32] }
    (∃ t, step (alone ch) = .next t) ∧
    (alone ch).Each (fun _ ch => ch.BranchesInStep ∧ ch.CallMatchesSquelch) ∧
    (alone ch).Each (fun _ ch => ch.CountersBounded Config.cfg) ∧
    (alone ch).Each (fun num ch => ch.config.configured = true → ch.ConfigFromRate Config.cfg num) ∧
    (alone ch).Each (fun _ ch => ch.MemoriesSized Config.cfg ∧ ch.TonesListed Config.cfg) ∧
    (alone ch).CalSelLegal Config.cfg ∧ (alone ch).Each (fun _ ch => ch.CodesLegal Config.cfg) := by
  refine ⟨⟨_, rfl⟩, each_alone _ _ ⟨⟨rfl, Nat.zero_lt_one⟩, by simp [Channel.CallMatchesSquelch, Channel.reset,
    Squelch.reset]⟩, each_alone _ _ ⟨Config.openDebounce.pos, Config.closeDebounce.pos, Nat.zero_lt_one, Nat.zero_lt_one,
    Nat.zero_lt_two, Nat.zero_lt_two, fun _ => rfl, fun _ => rfl⟩, each_alone _ _ (by simp [Channel.reset,
    ActiveConfig.reset]), each_alone _ _ ⟨?_, by simp [Channel.TonesListed, Channel.reset]⟩, .inl rfl,
    each_alone _ _ ⟨rfl, rfl⟩⟩
  constructor <;> simp [Channel.reset, ActiveConfig.reset, ceildiv]

/-- The same for a channel that a rate has configured, in `Cfg_T`: its configuration is the one of its rate. -/
theorem test_witness_ConfigurationStaysTheOneOfItsRate :
    (sampleRate (cfgT 15000) 0 0#8 0#8 120000#32 fresh).config.configured = true ∧
    (sampleRate (cfgT 15000) 0 0#8 0#8 120000#32 fresh).ConfigFromRate (cfgT 15000) 0 :=
  ⟨by decide +kernel, ⟨⟨2, by decide +kernel⟩, by decide +kernel, by decide +kernel, by rfl, by decide +kernel⟩⟩

end Sys2Proof.Tests
end

section
/-! Rounding: the exact value lies between two neighbouring magnitudes, and `roundMag` takes the nearer. -/

namespace Sys2Proof.Machine

/-- The units of a magnitude pattern, for every natural: `units` without the word it is packed in. -/
def magUnits (m : Nat) : Nat :=
  if m / 2 ^ 23 = 0 then m % 2 ^ 23 else (m % 2 ^ 23 + 2 ^ 23) * 2 ^ (m / 2 ^ 23 - 1)

theorem units_mkF (m : Nat) (h : m < 2 ^ 31) : units (mkF false m) = magUnits m := by
  have hmag : fMag (mkF false m) = m := by simp [fMag, mkF]; omega
  simp only [units, hmag, magUnits, Nat.shiftLeft_eq]

/-- A significand of at most `2^24` at exponent `e`; below `2^23` the value is subnormal and `e` is 0. The upper end
`2^24` is the first magnitude of the next binade. -/
theorem magUnits_scaled (e k : Nat) (hk : k ≤ 2 ^ 24) (hnormal : e = 0 ∨ 2 ^ 23 ≤ k) :
    magUnits (e * 2 ^ 23 + k) = k * 2 ^ e := by
  unfold magUnits
  by_cases hsub : k < 2 ^ 23
  · obtain rfl : e = 0 := by omega
    rw [if_pos (by omega)]
    omega
  · rcases Nat.lt_or_ge k (2 ^ 24) with htop | htop
    · have hexp : (e * 2 ^ 23 + k) / 2 ^ 23 = e + 1 := by omega
      have hfrac : (e * 2 ^ 23 + k) % 2 ^ 23 + 2 ^ 23 = k := by omega
      rw [hexp, hfrac, if_neg (by omega), Nat.add_sub_cancel]
    · obtain rfl : k = 2 ^ 24 := by omega
      have hexp : (e * 2 ^ 23 + 2 ^ 24) / 2 ^ 23 = e + 2 := by omega
      have hfrac : (e * 2 ^ 23 + 2 ^ 24) % 2 ^ 23 + 2 ^ 23 = 2 ^ 23 := by omega
      rw [hexp, hfrac, if_neg (by omega), Nat.add_succ_sub_one, pow_succ]
      ring

/-- Every magnitude has an exponent and a significand below `2^24`. -/
theorem exists_scaled (m : Nat) : ∃ e k, m = e * 2 ^ 23 + k ∧ k < 2 ^ 24 ∧ (e = 0 ∨ 2 ^ 23 ≤ k) :=
  ⟨m / 2 ^ 23 - 1, m - (m / 2 ^ 23 - 1) * 2 ^ 23, by omega, by omega, by omega⟩

theorem magUnits_strictMono : StrictMono magUnits := by
  refine strictMono_nat_of_lt_succ fun m => ?_
  obtain ⟨e, k, rfl, hk, hnormal⟩ := exists_scaled m
  rw [Nat.add_assoc, magUnits_scaled e k hk.le hnormal, magUnits_scaled e (k + 1) (by omega) (by omega)]
  exact Nat.mul_lt_mul_of_pos_right (Nat.lt_succ_self k) (Nat.two_pow_pos e)

theorem magUnits_mul_lt (d : Nat) (hd : 0 < d) {a b : Nat} (h : a < b) : magUnits a * d < magUnits b * d :=
  Nat.mul_lt_mul_of_pos_right (magUnits_strictMono h) hd

theorem magUnits_mul_le (d : Nat) {a b : Nat} (h : a ≤ b) : magUnits a * d ≤ magUnits b * d :=
  Nat.mul_le_mul_right d (magUnits_strictMono.monotone h)

/-- The exponent `roundMag` picks: the quotient's leading 24 bits are left over it. -/
theorem significand_bounds (q : Nat) :
    q / 2 ^ (q.log2 - 23) < 2 ^ 24 ∧ (q.log2 - 23 = 0 ∨ 2 ^ 23 ≤ q / 2 ^ (q.log2 - 23)) := by
  rcases Nat.eq_zero_or_pos q with rfl | hq
  · simp
  have hlo : 2 ^ q.log2 ≤ q := Nat.log2_self_le hq.ne'
  have hhi : q < 2 ^ (q.log2 + 1) := Nat.lt_log2_self
  constructor
  · rw [Nat.div_lt_iff_lt_mul (Nat.two_pow_pos _), ← pow_add]
    exact hhi.trans_le (Nat.pow_le_pow_right two_pos (by omega))
  · rcases Nat.lt_or_ge q.log2 24 with h | h
    · exact .inl (by omega)
    · refine .inr ?_
      rw [Nat.le_div_iff_mul_le (Nat.two_pow_pos _), ← pow_add]
      exact (Nat.pow_le_pow_right two_pos (by omega)).trans hlo

/-- What rounding does: `n / d` lies from a magnitude `x` to below the next, and the result is the one of the two that
the midpoint and, on it, the parity of `x` say; no result is above infinity's. -/
theorem roundMag_cases (n d : Nat) (hd : 0 < d) :
    ∃ x, magUnits x * d ≤ n ∧ n < magUnits (x + 1) * d ∧
      ((roundMag n d = min x infMag ∧
          (2 * n < magUnits x * d + magUnits (x + 1) * d ∨
            2 * n = magUnits x * d + magUnits (x + 1) * d ∧ x % 2 = 0)) ∨
       (roundMag n d = min (x + 1) infMag ∧
          (magUnits x * d + magUnits (x + 1) * d < 2 * n ∨
            2 * n = magUnits x * d + magUnits (x + 1) * d ∧ x % 2 = 1))) := by
  obtain ⟨hm, hnormal⟩ := significand_bounds (n / d)
  rw [Nat.div_div_eq_div_mul] at hm hnormal
  unfold roundMag
  simp only [Nat.shiftLeft_eq]
  generalize (n / d).log2 - 23 = e at hm hnormal ⊢
  have hstep : 0 < d * 2 ^ e := Nat.mul_pos hd (Nat.two_pow_pos e)
  have hsplit := Nat.div_add_mod' n (d * 2 ^ e)
  have hrem := Nat.mod_lt n hstep
  generalize n / (d * 2 ^ e) = m at hm hnormal hsplit ⊢
  generalize n % (d * 2 ^ e) = r at hsplit hrem ⊢
  have hlow : magUnits (e * 2 ^ 23 + m) * d = m * (d * 2 ^ e) := by
    rw [magUnits_scaled e m hm.le hnormal]; ring
  have hhigh : magUnits (e * 2 ^ 23 + m + 1) * d = m * (d * 2 ^ e) + d * 2 ^ e := by
    rw [Nat.add_assoc, magUnits_scaled e (m + 1) (by omega) (by omega)]; ring
  refine ⟨e * 2 ^ 23 + m, by omega, by omega, ?_⟩
  rw [hlow, hhigh]
  generalize m * (d * 2 ^ e) = base at hsplit ⊢
  generalize d * 2 ^ e = step at hrem ⊢
  by_cases hup : step < 2 * r ∨ 2 * r = step ∧ m % 2 = 1
  · refine .inr ⟨?_, by omega⟩
    rw [if_pos (by simpa using hup), Nat.add_assoc]
  · refine .inl ⟨?_, by omega⟩
    rw [if_neg (by simpa using hup)]

/-! ### Overflow -/

/-- The largest finite magnitude: all 24 bits of the significand set, at exponent 253 over the units. -/
def maxFinite : Nat := 253 * 2 ^ 23 + (2 ^ 24 - 1)

theorem infMag_eq_succ : infMag = maxFinite + 1 := rfl

theorem maxFinite_odd : maxFinite % 2 = 1 := rfl

/-- Half an ulp above the largest finite value, in units: the midpoint between it and the next magnitude. -/
theorem overflow_midpoint : 2 * ((2 ^ 25 - 1) * 2 ^ 252) = magUnits maxFinite + magUnits (maxFinite + 1) := by
  have hmax : magUnits maxFinite = (2 ^ 24 - 1) * 2 ^ 253 := magUnits_scaled 253 (2 ^ 24 - 1) (by omega) (by omega)
  have hnext : magUnits (maxFinite + 1) = 2 ^ 24 * 2 ^ 253 := magUnits_scaled 253 (2 ^ 24) le_rfl (by omega)
  rw [hmax, hnext]
  norm_num

theorem roundMag_le_infMag (n d : Nat) : roundMag n d ≤ infMag := Nat.min_le_right _ _

/-- Overflow starts at the midpoint between the largest finite value, which is odd, and the next. -/
theorem roundMag_eq_infMag_iff (n d : Nat) (hd : 0 < d) :
    roundMag n d = infMag ↔ (2 ^ 25 - 1) * 2 ^ 252 * d ≤ n := by
  obtain ⟨x, hlow, hhigh, hround⟩ := roundMag_cases n d hd
  have hodd := maxFinite_odd
  have hmid : 2 * ((2 ^ 25 - 1) * 2 ^ 252 * d) = magUnits maxFinite * d + magUnits (maxFinite + 1) * d := by
    rw [← Nat.add_mul, ← overflow_midpoint, ← Nat.mul_assoc]
  have hlast := magUnits_mul_lt d hd (Nat.lt_add_one maxFinite)
  rw [infMag_eq_succ] at hround ⊢
  generalize (2 ^ 25 - 1) * 2 ^ 252 * d = threshold at hmid ⊢
  generalize maxFinite = top at *
  rcases Nat.lt_trichotomy x top with hx | rfl | hx
  · have := magUnits_mul_le d (show x + 1 ≤ top from hx)
    omega
  · omega
  · have := magUnits_mul_le d (show top + 1 ≤ x from hx)
    omega

/-! ### The distance from the exact value -/

/-- The distance from `n / d` to a magnitude, times `d`. -/
def roundErr (n d m : Nat) : Nat := (((magUnits m * d : Nat) : Int) - (n : Int)).natAbs

/-- A finite result is at least as near as any other magnitude, and even if another is equally near. -/
theorem roundErr_roundMag_le (n d w : Nat) (hd : 0 < d) (hfin : roundMag n d < infMag) :
    roundErr n d (roundMag n d) ≤ roundErr n d w ∧
      (roundErr n d (roundMag n d) = roundErr n d w → w ≠ roundMag n d → roundMag n d % 2 = 0) := by
  obtain ⟨x, hlow, hhigh, hround⟩ := roundMag_cases n d hd
  unfold roundErr
  rcases hround with ⟨hv, hside⟩ | ⟨hv, hside⟩
  · obtain hv : roundMag n d = x := by omega
    rw [hv]
    rcases Nat.lt_trichotomy w x with hw | rfl | hw
    · have := magUnits_mul_lt d hd hw; omega
    · exact ⟨le_rfl, fun _ h => absurd rfl h⟩
    · rcases Nat.eq_or_lt_of_le (show x + 1 ≤ w from hw) with rfl | hw
      · omega
      · have := magUnits_mul_lt d hd hw; omega
  · obtain hv : roundMag n d = x + 1 := by omega
    rw [hv]
    rcases Nat.lt_trichotomy w (x + 1) with hw | rfl | hw
    · rcases Nat.eq_or_lt_of_le (Nat.le_of_lt_succ hw) with rfl | hw
      · omega
      · have := magUnits_mul_lt d hd hw; omega
    · exact ⟨le_rfl, fun _ h => absurd rfl h⟩
    · have := magUnits_mul_lt d hd hw; omega

/-- Settles O35, from the two neighbours of the exact value and the midpoint between them. -/
theorem roundingIsToNearestEven : Obligations.RoundingIsToNearestEven := by
  intro n d hd
  refine ⟨roundMag_le_infMag n d, roundMag_eq_infMag_iff n d hd, ?_⟩
  rintro v w rfl hv hw err
  have hword : infMag < 2 ^ 31 := by decide
  have herr : ∀ m < infMag, err m = roundErr n d m := fun m hm => by
    simp only [err, roundErr, units_mkF m (hm.trans hword)]
  rw [herr _ hv, herr w hw]
  exact roundErr_roundMag_le n d w hd hv

end Sys2Proof.Machine
end

section
/-! A decoded command's words are its encoding: the encoder puts the fields back where the decoder found them. -/

namespace Sys2Proof

/-! ### A word from its fields -/

/-- A word is the header of its own three fields. -/
theorem header_fields (w : Word) : header (w.extractLsb' 24 8) (tagOf w) (argOf w) = w := by
  apply BitVec.eq_of_getLsbD_eq
  intro i hi
  rw [header_bit, tagOf, argOf]
  by_cases h16 : i < 16
  · simp [h16]
  · by_cases h24 : i < 24
    · have htag : i - 16 < 8 := by omega
      have hbit : 16 + (i - 16) = i := by omega
      simp [h16, h24, htag, hbit]
    · have hcode : i - 24 < 8 := by omega
      have hbit : 24 + (i - 24) = i := by omega
      simp [h16, h24, hcode, hbit]

/-- The header of a row, from its tag and its 16-bit field; the bits the row's mask names are 0. -/
theorem Opcode.matchesWord_fields (o : Opcode) (w : Word) (h : o.matchesWord w = true) :
    w = header o.code (tagOf w) (argOf w) ∧ tagOf w &&& o.maskLow.1 = 0#8 ∧ argOf w &&& o.maskLow.2 = 0#16 := by
  have hw : w = header o.code (tagOf w) (argOf w) := by
    rw [← o.matchesWord_code w h, header_fields]
  have hmask : header (o.code &&& 0xFF#8) (tagOf w &&& o.maskLow.1) (argOf w &&& o.maskLow.2)
      = header o.code 0#8 0#16 := by
    rw [← header_and, ← hw, ← o.mask_eq, ← o.pattern_eq]
    simpa [Opcode.matchesWord] using h
  exact ⟨hw, by simpa using congrArg tagOf hmask, by simpa using congrArg argOf hmask⟩

/-! ### A field under a row's mask -/

theorem eq_zero_of_and_ffff (d : BitVec 16) (h : d &&& 0xFFFF#16 = 0#16) : d = 0#16 := by
  have hall : (0xFFFF#16 : BitVec 16) = BitVec.allOnes 16 := by decide
  rwa [hall, BitVec.and_allOnes] at h

theorem getLsbD_of_and_eq_zero (d mask : BitVec 16) (i : Nat) (h : d &&& mask = 0#16) (hm : mask.getLsbD i = true) :
    d.getLsbD i = false := by
  simpa [hm] using congrArg (BitVec.getLsbD · i) h

/-- A field of 16 bits is its low part of `m` bits below `n` zeros, when its mask names the bits from `m` on. -/
theorem lowField_eq (n m : Nat) (hnm : n + m = 16) (low : BitVec m) (mask d : BitVec 16) (h : d &&& mask = 0#16)
    (hmask : ∀ i < 16, m ≤ i → mask.getLsbD i = true) (hlow : ∀ i < m, low.getLsbD i = d.getLsbD i) :
    (0#n ++ low).cast hnm = d := by
  apply BitVec.eq_of_getLsbD_eq
  intro i hi
  rw [BitVec.getLsbD_cast, BitVec.getLsbD_append]
  split
  · exact hlow i ‹_›
  · rw [getLsbD_of_and_eq_zero d mask i h (hmask i hi (by omega))]
    simp

theorem bitField_eq (d : BitVec 16) (h : d &&& 0xFFFE#16 = 0#16) : 0#15 ++ BitVec.ofBool (d.getLsbD 0) = d :=
  lowField_eq 15 1 rfl (BitVec.ofBool (d.getLsbD 0)) 0xFFFE#16 d h (by decide) fun i hi => by
    obtain rfl : i = 0 := by omega
    simp

theorem codeField_eq (d : BitVec 16) (h : d &&& 0xFF00#16 = 0#16) : 0#8 ++ d.extractLsb' 0 8 = d :=
  lowField_eq 8 8 rfl (d.extractLsb' 0 8) 0xFF00#16 d h (by decide) fun i hi => by simp [hi]

theorem twoBytes_eq (d : BitVec 16) : d.extractLsb' 8 8 ++ d.extractLsb' 0 8 = d := by
  apply BitVec.eq_of_getLsbD_eq
  intro i hi
  rw [BitVec.getLsbD_append]
  by_cases h8 : i < 8
  · simp [h8]
  · have hhigh : i - 8 < 8 := by omega
    have hbit : 8 + (i - 8) = i := by omega
    simp [h8, hhigh, hbit]

theorem lifecycleTag_eq : ∀ b : Byte, b &&& 0xF8#8 = 0#8 →
    0#5 ++ BitVec.ofBool (b.getLsbD 2) ++ b.extractLsb' 0 2 = b := by
  decide

theorem toneTag_eq : ∀ b : Byte, b &&& 0xFC#8 = 0#8 →
    0#6 ++ BitVec.ofBool (b.getLsbD 1) ++ BitVec.ofBool (b.getLsbD 0) = b := by
  decide

theorem eq_zero_of_and_ff (b : Byte) (h : b &&& 0xFF#8 = 0#8) : b = 0#8 := by
  have hall : (0xFF#8 : Byte) = BitVec.allOnes 8 := by decide
  rwa [hall, BitVec.and_allOnes] at h

/-- The payload of an IQ_BLOCK: the timestamp, then the two arrays of `n` samples. -/
theorem iqPayload_eq (n : Nat) (p : List Word) (h : p.length = 2 * n + 1) :
    payloadWord p 0 :: ((p.drop 1).take n ++ (p.drop (1 + n)).take n) = p := by
  cases p with
  | nil => simp at h
  | cons ts p =>
    simp only [List.length_cons] at h
    have hlast : (p.drop n).take n = p.drop n := List.take_of_length_le (by simp; omega)
    simp [payloadWord, Nat.add_comm 1 n, hlast]

/-- The payload of a command that carries one value. -/
theorem valuePayload_eq (p : List Word) (h : p.length = 1) : [payloadWord p 0] = p := by
  obtain ⟨x, rfl⟩ := List.length_eq_one_iff.mp h
  rfl

/-- The encoding of the command a header and its payload stand for is that header and that payload. -/
theorem encode_assemble (o : Opcode) (w : Word) (p : List Word) (ho : opcodeOf w = some o)
    (hp : p.length = payloadWords o w) : encode (assemble o w p) = w :: p := by
  obtain ⟨hw, htag, harg⟩ := o.matchesWord_fields w ((opcodeOf_eq_some o w).mp ho)
  generalize tagOf w = tag at hw htag
  generalize argOf w = arg at hw harg
  subst hw
  cases o with
  | reset | getStatus | getThreshold | getAutotrack | getHystOpen | getHystClose | getGain | calRead =>
    obtain rfl := eq_zero_of_and_ffff arg harg
    obtain rfl := List.length_eq_zero_iff.mp hp
    simp [assemble, encode, commandHeader_eq]
  | sampleRate | setThreshold | setHystOpen | setHystClose | setGain =>
    obtain rfl := eq_zero_of_and_ffff arg harg
    simp [assemble, encode, commandHeader_eq, valuePayload_eq p hp]
  | setAutotrack | setOverride =>
    obtain rfl := List.length_eq_zero_iff.mp hp
    simp only [assemble, encode, commandHeader_eq, tagOf_header, bitOf_header, bitField_eq arg harg]
  | calWrite | implRequest =>
    obtain rfl := List.length_eq_zero_iff.mp hp
    simp [assemble, encode, commandHeader_eq, codeField_eq arg harg]
  | iqBlock =>
    simp only [payloadWords, argOf_header] at hp
    have hlen : ((p.drop 1).take arg.toNat).length = arg.toNat := by simp; omega
    simp only [assemble, encode, tagOf_header, argOf_header, commandHeader_eq, hlen, iqPayload_eq arg.toNat p hp,
      BitVec.ofNat_toNat, BitVec.setWidth_eq]
  | reply =>
    obtain rfl := List.length_eq_zero_iff.mp hp
    simp [assemble, encode, replyHeader_eq, twoBytes_eq, Opcode.code]
  | lifecycle =>
    obtain rfl := eq_zero_of_and_ffff arg harg
    obtain rfl := List.length_eq_zero_iff.mp hp
    simp only [assemble, encode, lifecycleHeader_eq, bit18_header, tagBits_header, lifecycleTag_eq tag htag,
      Opcode.code]
  | audio =>
    obtain rfl := eq_zero_of_and_ff tag htag
    obtain rfl := List.length_eq_zero_iff.mp hp
    simp [assemble, encode, audioHeader_eq, Opcode.code]
  | tone =>
    obtain rfl := List.length_eq_zero_iff.mp hp
    simp only [assemble, encode, toneHeader_eq, bit16_header, bit17_header, argOf_header, toneTag_eq tag htag,
      Opcode.code]
  | fault =>
    obtain rfl := List.length_eq_zero_iff.mp hp
    simp [assemble, encode, faultHeader_eq, Opcode.code]

/-- Words that decode to an instruction are its encoding and what follows it. -/
theorem decode_instr_encode (ws rest : List Word) (i : Instr) (h : decode ws = .instr i rest) :
    ws = encode i ++ rest := by
  obtain ⟨w, o, p, hws, ho, hp, hi⟩ := decode_instr ws rest i h
  rw [hi, encode_assemble o w p ho hp, hws, List.cons_append]

end Sys2Proof
end

section
/-! O10: what a step does to the list of channels. -/

namespace Sys2Proof.Machine

/-- No command writes the command port: its words were taken before it runs. -/
theorem channelEffect_cmdPort (c : Cfg) (num : Nat) (cal : Byte) (i : Instr) (ch : Channel) :
    (channelEffect c num cal i ch).cmdPort = ch.cmdPort := by
  cases i with
  | sampleRate tag rate =>
    rcases sampleRate_cases c num cal tag rate ch with ⟨code, info, h⟩ | ⟨taps, -, -, -, h⟩
    · simp [channelEffect, h]
    · simp [channelEffect, h]
  | iqBlock tag ts xi xq =>
    rcases iqBlock_cases c num tag ts xi xq ch with ⟨-, h⟩ | ⟨-, -, h⟩ | ⟨-, -, -, h⟩ | ⟨-, -, -, h⟩ <;>
      simp [channelEffect, h]
  | implRequest tag code => simp only [channelEffect, implRequest]; split <;> rfl
  | calWrite tag code =>
    simp only [channelEffect]
    split
    · rfl
    · split <;> rfl
  | _ => rfl

/-- An effect on the acting channel replaces its record in the list of channels. -/
theorem State.channels_of_active (s u : State) (hl : u.left = s.left) (hr : u.right = s.right) :
    u.channels = s.channels.set s.activeNum u.active := by
  simp [State.channels, State.activeNum, hl, hr]

/-- Settles O10: the step's effect is on the channel the turn settles at, after its words were taken. -/
theorem oneStepIsOneCommandOfOneChannel : Obligations.OneStepIsOneCommandOfOneChannel := by
  intro s t h
  obtain ⟨s', hset, hstep⟩ := step_next s t h
  obtain ⟨hch, -, -⟩ := s.settle_some s' hset
  have hact : s.channels[s'.activeNum]? = some s'.active := by rw [← hch]; exact s'.channels_active
  rcases hstep with ⟨i, rest, u, hd, hu, rfl⟩ | ⟨w, rest, hd, rfl⟩
  · rw [exec_eq] at hu
    cases hu
    have hport := channelEffect_cmdPort Config.cfg s'.activeNum s'.calSel i { s'.active with cmdPort := rest }
    refine ⟨s'.activeNum, s'.active, _, rest, hact, ?_, hport, .inl ⟨i, hd, decode_instr_encode _ _ _ hd⟩⟩
    rw [State.reschedule_channels, ← hch]
    exact s'.channels_of_active _ rfl rfl
  · refine ⟨s'.activeNum, s'.active, ((s'.consume rest).takeIllegal w).active, rest, hact, ?_, rfl,
      .inr ⟨w, hd, ((decode_illegal _ _ _).mp hd).1⟩⟩
    rw [State.reschedule_channels, ← hch]
    exact s'.channels_of_active _ rfl rfl

end Sys2Proof.Machine
end

section
/-! O8: a step of a channel with a whole command is `exec` of it. -/

namespace Sys2Proof.Machine

/-- A channel with a whole command at the front of its port can move. -/
theorem Channel.enabled_of_decode_instr (ch : Channel) (i : Instr) (rest : List Word)
    (h : decode ch.cmdPort = .instr i rest) : ch.enabled = true := by
  simp [Channel.enabled, h]

/-- A whole command in the acting channel's port is what is fetched: the turn stays with that channel. -/
theorem fetch_of_decode_instr (s : State) (i : Instr) (rest : List Word)
    (h : decode s.active.cmdPort = .instr i rest) : fetch s = .command i (s.consume rest) := by
  have hturn : s.settle = some s := s.settle_enabled (s.active.enabled_of_decode_instr i rest h)
  simp [fetch, hturn, h]

theorem step_of_decode_instr (s : State) (i : Instr) (rest : List Word)
    (h : decode s.active.cmdPort = .instr i rest) :
    step s = afterCommand Config.cfg (exec i (s.consume rest)) := by
  simp only [step, fetch_of_decode_instr s i rest h]

/-- Settles O8: the acting channel's command is the one fetched, and its words are taken before it runs. -/
theorem stepRunsTheDecodedCommand : Obligations.StepRunsTheDecodedCommand :=
  fun s i rest h => step_of_decode_instr s i rest h

end Sys2Proof.Machine
end

section
/-! O40: NaN through the block power, the squelch's decision and the candidate. -/

namespace Sys2Proof.Machine

/-! ### The block power -/

theorem isNaN_db (c : Cfg) (p : F) (h : isNaN p = true) : isNaN (db c p) = true := by
  have hz : isZero p = false := by
    simp only [isNaN, decide_eq_true_eq] at h
    simp only [isZero, beq_eq_false_iff_ne]
    omega
  simp [db, hz, h]

/-- A fold whose steps keep a NaN ends in one, if it begins with one or one of its elements makes one. -/
theorem isNaN_foldl {α : Type} (f : F → α → F) (hkeep : ∀ s x, isNaN s = true → isNaN (f s x) = true) (l : List α)
    (s : F) (h : isNaN s = true ∨ ∃ x ∈ l, ∀ s, isNaN (f s x) = true) : isNaN (l.foldl f s) = true := by
  induction l generalizing s with
  | nil => simpa using h
  | cons y l ih =>
    refine ih (f s y) ?_
    rcases h with hs | ⟨x, hx, hmake⟩
    · exact .inl (hkeep s y hs)
    · rcases List.mem_cons.mp hx with rfl | hx
      · exact .inl (hmake s)
      · exact .inr ⟨x, hx, hmake⟩

theorem isNaN_blockPower (c : Cfg) (a : List F) (h : ∃ x ∈ a, isNaN x = true) : isNaN (blockPower c a) = true := by
  obtain ⟨x, hx, hn⟩ := h
  have hsum : isNaN (sumSquares c a) = true :=
    isNaN_foldl _ (fun s y hs => isNaN_fadd c s _ (.inl hs)) a 0#32
      (.inr ⟨x, hx, fun s => isNaN_fadd c s _ (.inr (isNaN_fmul c x x (.inl hn)))⟩)
  exact isNaN_db c _ (isNaN_fdiv c _ _ (.inl hsum))

/-! ### The squelch's decision -/

theorem opens_nan (c : Cfg) (r : Regs) (p : F) (h : isNaN p = true ∨ isNaN r.threshold = true) :
    opens c r p = false := by
  rcases h with h | h
  · exact fgt_nan_left p _ h
  · exact fgt_nan_right p _ (isNaN_fadd c r.threshold r.hystOpen (.inl h))

theorem closes_nan (c : Cfg) (r : Regs) (p : F) (h : isNaN p = true ∨ isNaN r.threshold = true) :
    closes c r p = false := by
  rcases h with h | h
  · exact fgt_nan_right _ p h
  · exact fgt_nan_left _ p (isNaN_fsub c r.threshold r.hystClose (.inl h))

/-- The counter on the mute flag's side, cleared: what R195 does to a block that does not qualify. -/
def Squelch.clearCounter (q : Squelch) : Squelch :=
  match q.state with
  | .muted => { q with openCnt := 0 }
  | .unmuted => { q with closeCnt := 0 }

theorem Squelch.clearCounter_state (q : Squelch) : q.clearCounter.state = q.state := by
  unfold clearCounter; split <;> rfl

theorem Squelch.clearCounter_changed (q : Squelch) : q.clearCounter.changed = q.changed := by
  unfold clearCounter; split <;> rfl

theorem Squelch.clearCounter_openCnt (q : Squelch) (h : q.state = .muted) : q.clearCounter.openCnt = 0 := by
  simp [clearCounter, h]

theorem Squelch.clearCounter_closeCnt (q : Squelch) (h : q.state = .unmuted) : q.clearCounter.closeCnt = 0 := by
  simp [clearCounter, h]

/-- A block that qualifies for neither decision only clears the counter, since no debounce is 0. -/
theorem squelchDecide_of_not_qualified (c : Cfg) (r : Regs) (p : F) (q : Squelch) (hov : r.override = false)
    (ho : opens c r p = false) (hc : closes c r p = false) : squelchDecide c r p q = q.clearCounter := by
  have hopen := c.openDebounce.pos
  have hclose := c.closeDebounce.pos
  cases hq : q.state
  case muted => simp [squelchDecide, hov, hq, ho, hopen.ne, Squelch.clearCounter]
  case unmuted => simp [squelchDecide, hov, hq, hc, hclose.ne, Squelch.clearCounter]

/-- With a NaN power, or a NaN threshold that the tracker does not write, the decision is on a NaN power or a NaN
threshold. -/
theorem trackFloor_nan (c : Cfg) (p : F) (ch : Channel)
    (h : isNaN p = true ∨
      ((ch.regs.autoTrack = false ∨ ch.squelch.state = .unmuted) ∧ isNaN ch.regs.threshold = true)) :
    isNaN p = true ∨ isNaN (trackFloor c p ch).regs.threshold = true := by
  rcases h with h | ⟨hidle, h⟩
  · exact .inl h
  · exact .inr (by rw [trackFloor_idle c p ch hidle]; exact h)

/-- An evaluation on NaN clears one counter, and writes the estimate `NF` if it tracks. -/
theorem squelchEval_nan (c : Cfg) (a : List F) (ch : Channel) (hov : ch.regs.override = false)
    (h : isNaN (blockPower c a) = true ∨
      ((ch.regs.autoTrack = false ∨ ch.squelch.state = .unmuted) ∧ isNaN ch.regs.threshold = true)) :
    ∃ nf, (squelchEval c a ch).squelch = Squelch.clearCounter { ch.squelch with nf := nf } := by
  have hnan := trackFloor_nan c (blockPower c a) ch h
  obtain ⟨th, hregs⟩ := trackFloor_regs c (blockPower c a) ch
  obtain ⟨nf, hsq⟩ := trackFloor_squelch c (blockPower c a) ch
  have hov' : (trackFloor c (blockPower c a) ch).regs.override = false := by rw [hregs]; exact hov
  refine ⟨nf, ?_⟩
  rw [← hsq]
  exact squelchDecide_of_not_qualified c _ _ _ hov' (opens_nan c _ _ hnan) (closes_nan c _ _ hnan)

/-! ### The candidate -/

/-- A NaN among the powers other than that of tone `m` makes their sum a NaN. -/
theorem isNaN_othersSum (c : Cfg) (pw : List F) (m t : Nat) (ht : t < pw.length) (hm : t ≠ m)
    (hn : isNaN (memRead pw t) = true) : isNaN (othersSum c pw m) = true := by
  refine isNaN_foldl _ (fun s u hs => ?_) (List.range pw.length) 0#32 (.inr ⟨t, List.mem_range.mpr ht, fun s => ?_⟩)
  · split
    · exact hs
    · exact isNaN_fadd c s _ (.inl hs)
  · rw [if_neg hm]
    exact isNaN_fadd c s _ (.inr hn)

/-- The strongest tone is no candidate: its own power is the NaN, or the sum of the others is. -/
theorem candidate_nan (c : Cfg) (pw : List F) (h : ∃ x ∈ pw, isNaN x = true) : candidate c pw = none := by
  obtain ⟨x, hx, hn⟩ := h
  obtain ⟨t, ht, rfl⟩ := List.getElem_of_mem hx
  have hread : isNaN (memRead pw t) = true := by simpa [memRead, ht] using hn
  cases hc : candidate c pw with
  | none => rfl
  | some m =>
    obtain ⟨-, -, hratio, -⟩ := candidate_some c pw m hc
    by_cases htm : t = m
    · rw [← htm, fgt_nan_left _ _ hread] at hratio
      simp at hratio
    · rw [fgt_nan_right _ _ (isNaN_fmul c _ _ (.inr (isNaN_othersSum c pw m t ht htm hread)))] at hratio
      simp at hratio

/-- Settles O40, by the power of a NaN sample, the decision on a NaN and the candidate among NaN powers. -/
theorem nanNeverDecides : Obligations.NanNeverDecides := by
  refine ⟨isNaN_blockPower, fun c a ch hov h => ?_, candidate_nan⟩
  obtain ⟨nf, hsq⟩ := squelchEval_nan c a ch hov h
  rw [hsq]
  exact ⟨Squelch.clearCounter_state _, Squelch.clearCounter_changed _,
    fun h => Squelch.clearCounter_openCnt _ h, fun h => Squelch.clearCounter_closeCnt _ h⟩

end Sys2Proof.Machine
end

section
/-! What a command, and then a step, can do to a channel: it leaves the configuration and the working state alone,
commits the configuration of a rate, runs a block, or resets the channel. -/

namespace Sys2Proof.Machine

/-! ### Commands that leave the working state alone -/

/-- From the first record to the second only the ports, the control registers and `FSTAT` change; `IMPL_REQ` stays or
gets a legal code, and `FSTAT` stays or gains the bit of a fault. -/
inductive Quiet (c : Cfg) (ch : Channel) : Channel → Prop
  | intro (cmd msg : List Word) (r : Regs) (f : Byte)
      (implReq : r.implReq = ch.regs.implReq ∨ implCodeOk c r.implReq = true)
      (fstat : f = ch.fstat ∨ ∃ code, f = ch.fstat ||| fstatBit code) :
      Quiet c ch { ch with cmdPort := cmd, msgPort := msg, regs := r, fstat := f }

theorem Quiet.setCmdPort (c : Cfg) (ch : Channel) (rest : List Word) : Quiet c ch { ch with cmdPort := rest } :=
  .intro rest ch.msgPort ch.regs ch.fstat (.inl rfl) (.inl rfl)

theorem Quiet.takeFault (c : Cfg) (ch : Channel) (code : FaultCode) (tag : Byte) (info : Word) :
    Quiet c ch (ch.takeFault code tag info) :=
  .intro ch.cmdPort _ ch.regs _ (.inl rfl) (.inr ⟨code, rfl⟩)

theorem Quiet.emit (c : Cfg) (ch : Channel) (m : Message) : Quiet c ch (ch.emit m) :=
  .intro ch.cmdPort _ ch.regs ch.fstat (.inl rfl) (.inl rfl)

/-- A register write that is answered, if it writes `IMPL_REQ` at most with a legal code. -/
theorem Quiet.withRegs_emit (c : Cfg) (ch : Channel) (f : Regs → Regs) (m : Message)
    (h : (f ch.regs).implReq = ch.regs.implReq ∨ implCodeOk c (f ch.regs).implReq = true) :
    Quiet c ch ((ch.withRegs f).emit m) :=
  .intro ch.cmdPort _ (f ch.regs) ch.fstat h (.inl rfl)

theorem Quiet.config {c : Cfg} {ch ch' : Channel} (h : Quiet c ch ch') : ch'.config = ch.config := by
  cases h; rfl

theorem Quiet.implRequest (c : Cfg) (tag code : Byte) (ch : Channel) : Quiet c ch (implRequest c tag code ch) := by
  unfold Machine.implRequest
  split
  case isTrue => exact .takeFault c ch .badArgument tag _
  case isFalse hok => exact .withRegs_emit c ch (fun r => { r with implReq := code }) _ (.inr (by simpa using hok))

/-- CAL_WRITE faults, or emits one of its two replies. -/
theorem Quiet.calWrite (c : Cfg) (num : Nat) (cal tag code : Byte) (ch : Channel) :
    Quiet c ch (channelEffect c num cal (.calWrite tag code) ch) := by
  simp only [channelEffect]
  split
  · exact .takeFault c ch .badArgument tag _
  · split
    · exact .emit c ch _
    · exact .emit c ch _

/-! ### What a command can do -/

/-- `taps` is the channel filter of a rate that passes the three tests of SAMPLE_RATE (R130). -/
structure RateAccepted (c : Cfg) (num : Nat) (rate : Word) (taps : List F) : Prop where
  positive : rate.toNat ≠ 0
  feasible : feasible rate.toNat (c.channelBw num) (decimFactor rate.toNat (c.channelBw num)) = true
  designed : design c (channelSpec c (c.channelBw num) rate.toNat (decimFactor rate.toNat (c.channelBw num)))
    = some taps

/-- The configuration an accepted rate is committed as, with `impl` the resolved variant. -/
def committedConfig (c : Cfg) (num : Nat) (rate : Word) (taps : List F) (impl : Byte) : ActiveConfig :=
  activeConfigFor c (c.channelBw num) rate (decimFactor rate.toNat (c.channelBw num)) taps impl

/-- The four things a command can do to the acting channel. -/
theorem channelEffect_cases (c : Cfg) (num : Nat) (cal : Byte) (i : Instr) (ch : Channel) :
    Quiet c ch (channelEffect c num cal i ch) ∨
    (∃ tag rate taps, i = .sampleRate tag rate ∧ RateAccepted c num rate taps ∧
      channelEffect c num cal i ch =
        ch.rebuild c (committedConfig c num rate taps (resolveImpl ch.regs.implReq cal))) ∨
    (∃ tag ts xi xq, i = .iqBlock tag ts xi xq ∧
      channelEffect c num cal i ch = runBlock c (c.channelId num) ts xi xq ch) ∨
    (∃ tag, i = .reset tag ∧ channelEffect c num cal i ch = resetChannel ch) := by
  cases i with
  | sampleRate tag rate =>
    rcases sampleRate_cases c num cal tag rate ch with ⟨code, info, h⟩ | ⟨taps, hpos, hfeas, hdes, h⟩
    · exact .inl (by rw [channelEffect, h]; exact .takeFault c ch code tag info)
    · exact .inr (.inl ⟨tag, rate, taps, rfl, ⟨hpos, hfeas, hdes⟩, h⟩)
  | iqBlock tag ts xi xq =>
    rcases iqBlock_cases c num tag ts xi xq ch with ⟨-, h⟩ | ⟨-, -, h⟩ | ⟨-, -, -, h⟩ | ⟨-, -, -, h⟩
    · exact .inl (by rw [channelEffect, h]; exact .takeFault c ch _ tag _)
    · exact .inl (by rw [channelEffect, h]; exact .takeFault c ch _ tag _)
    · exact .inl (by rw [channelEffect, h]; exact .takeFault c ch _ tag _)
    · exact .inr (.inr (.inl ⟨tag, ts, xi, xq, rfl, h⟩))
  | reset tag => exact .inr (.inr (.inr ⟨tag, rfl, rfl⟩))
  | calWrite tag code => exact .inl (.calWrite c num cal tag code ch)
  | implRequest tag code => exact .inl (.implRequest c tag code ch)
  | getStatus | getThreshold | getAutotrack | getHystOpen | getHystClose | getGain | calRead =>
    exact .inl (.emit c ch _)
  | setThreshold | setAutotrack | setHystOpen | setHystClose | setOverride | setGain =>
    exact .inl (.withRegs_emit c ch _ _ (.inl rfl))
  | reply | lifecycle | audio | tone | fault => exact .inl (.takeFault c ch _ _ _)

/-! ### Invariants of every channel -/

/-- An invariant of every channel is kept by every step if each of the four things a command can do keeps it. `q` is
what may be assumed of `CAL_SEL`. -/
theorem step_each_of_effects (p : Nat → Channel → Prop) (q : Byte → Prop)
    (hquiet : ∀ num ch ch', Quiet Config.cfg ch ch' → p num ch → p num ch')
    (hrate : ∀ num cal rate taps ch, q cal → RateAccepted Config.cfg num rate taps → p num ch →
      p num (ch.rebuild Config.cfg (committedConfig Config.cfg num rate taps (resolveImpl ch.regs.implReq cal))))
    (hblock : ∀ num ts i q ch, i.length = q.length → p num ch →
      p num (runBlock Config.cfg (Config.cfg.channelId num) ts i q ch))
    (hreset : ∀ num ch, p num ch → p num (resetChannel ch))
    (s t : State) (hq : q s.calSel) (hs : s.Each p) (h : step s = .next t) : t.Each p := by
  refine step_each p q (fun num ch rest => hquiet num ch _ (.setCmdPort Config.cfg ch rest))
    (fun num ch w => hquiet num ch _ (.takeFault Config.cfg ch _ _ w)) ?_ s t hq hs h
  intro num cal i ch hwf hcal hp
  rcases channelEffect_cases Config.cfg num cal i ch with he | ⟨tag, rate, taps, -, hacc, he⟩ |
    ⟨tag, ts, xi, xq, rfl, he⟩ | ⟨tag, -, he⟩
  · exact hquiet num ch _ he hp
  · exact he ▸ hrate num cal rate taps ch hcal hacc hp
  · have hlen : xi.length = xq.length := by
      simp only [Instr.WellFormed, Instr.wellFormed, Bool.and_eq_true, decide_eq_true_eq] at hwf
      exact hwf.1
    exact he ▸ hblock num ts xi xq ch hlen hp
  · exact he ▸ hreset num ch hp

/-- What every step keeps, every run keeps. -/
theorem stepMany_keeps (P : State → Prop) (hstep : ∀ s t, P s → step s = .next t → P t) (n : Nat) (s t : State)
    (hs : P s) (h : stepMany n s = .next t) : P t := by
  induction n generalizing s with
  | zero => cases h; exact hs
  | succ n ih =>
    rw [stepMany] at h
    cases hstep' : step s with
    | next u => exact ih u (hstep s u hs hstep') (by simpa only [hstep'] using h)
    | fault | refused => simp [hstep'] at h

end Sys2Proof.Machine
end

section
/-! What an accepted rate computes: the decimation factor of R125 and the bounds that follow from feasibility. -/

namespace Sys2Proof.Machine

theorem decimLoop_succ (fuel fs bw d : Nat) :
    decimLoop (fuel + 1) fs bw d = if 4 * bw * d ≤ fs then decimLoop fuel fs bw (2 * d) else d := rfl

theorem decimLoop_eq_mul_two_pow (fuel fs bw d : Nat) : ∃ n, decimLoop fuel fs bw d = d * 2 ^ n := by
  induction fuel generalizing d with
  | zero => exact ⟨0, by simp [decimLoop]⟩
  | succ fuel ih =>
    rw [decimLoop_succ]
    split
    · obtain ⟨n, hn⟩ := ih (2 * d)
      exact ⟨n + 1, by rw [hn]; ring⟩
    · exact ⟨0, by simp⟩

/-- With turns enough to double `d` past `fs`, the loop ends because its guard fails. -/
theorem lt_decimLoop (fuel fs bw d : Nat) (h : fs < 4 * bw * (d * 2 ^ fuel)) :
    fs < 4 * bw * decimLoop fuel fs bw d := by
  induction fuel generalizing d with
  | zero => simpa [decimLoop] using h
  | succ fuel ih =>
    rw [decimLoop_succ]
    split
    · exact ih (2 * d) (by convert h using 2; ring)
    · omega

theorem decimFactor_powerOfTwo (fs bw : Nat) : ∃ n, decimFactor fs bw = 2 ^ n := by
  obtain ⟨n, hn⟩ := decimLoop_eq_mul_two_pow 32 fs bw 1
  exact ⟨n, by rw [decimFactor, hn, one_mul]⟩

theorem decimFactor_pos (fs bw : Nat) : 0 < decimFactor fs bw := by
  obtain ⟨n, hn⟩ := decimFactor_powerOfTwo fs bw
  rw [hn]
  exact Nat.two_pow_pos n

/-- A 32-bit rate is below four times the bandwidth after at most 32 doublings. -/
theorem lt_decimFactor (rate : Word) (bw : ℕ+) : rate.toNat < 4 * (bw : Nat) * decimFactor rate.toNat bw := by
  refine lt_decimLoop 32 rate.toNat bw 1 ?_
  have hrate : rate.toNat < 2 ^ 32 := rate.isLt
  have hbw : 0 < (bw : Nat) := bw.pos
  omega

section Accepted

variable {c : Cfg} {num : Nat} {rate : Word} {taps : List F}

theorem RateAccepted.bandwidth_le (h : RateAccepted c num rate taps) :
    2 * (c.channelBw num : Nat) * decimFactor rate.toNat (c.channelBw num) ≤ rate.toNat := by
  simpa [Machine.feasible] using h.feasible

/-- A feasible rate gives at least one sample in half a second of twice the bandwidth. -/
theorem RateAccepted.toneWindow_pos (h : RateAccepted c num rate taps) :
    0 < toneWindow rate.toNat (decimFactor rate.toNat (c.channelBw num)) := by
  have hle := h.bandwidth_le
  have hbw : 1 ≤ (c.channelBw num : Nat) := (c.channelBw num).pos
  have hd := decimFactor_pos rate.toNat (c.channelBw num)
  generalize decimFactor rate.toNat (c.channelBw num) = d at *
  have htwo : 2 * d ≤ rate.toNat :=
    (Nat.mul_le_mul_right d (by omega : 2 ≤ 2 * (c.channelBw num : Nat))).trans hle
  exact Nat.div_pos (by simp only [Config.toneWinMs]; omega) (by omega)

theorem RateAccepted.resampM_pos (h : RateAccepted c num rate taps) (d : Nat) : 0 < resampM rate.toNat d := by
  have hpos : 0 < rate.toNat := Nat.pos_of_ne_zero h.positive
  exact Nat.div_pos (Nat.gcd_le_right _ hpos) (Nat.gcd_pos_of_pos_right _ hpos)

end Accepted

end Sys2Proof.Machine
end

section
/-! O54: the remainders of both branches, and the lifecycle against the mute flag. -/

namespace Sys2Proof.Machine

@[simp] theorem frontEnd_dec (c : Cfg) (ch : Channel) (i q : List F) :
    (frontEnd c ch i q).2.dec =
      { iDl := (decimate c ch.config.decimD ch.config.decTaps i ch.dec.iDl ch.dec.iR).2.1
        qDl := (decimate c ch.config.decimD ch.config.decTaps q ch.dec.qDl ch.dec.qR).2.1
        iR := (decimate c ch.config.decimD ch.config.decTaps i ch.dec.iDl ch.dec.iR).2.2
        qR := (decimate c ch.config.decimD ch.config.decTaps q ch.dec.qDl ch.dec.qR).2.2 } := rfl

theorem Quiet.branchesInStep {c : Cfg} {ch ch' : Channel} (h : Quiet c ch ch') (hb : ch.BranchesInStep) :
    ch'.BranchesInStep := by
  cases h; exact ⟨hb.sameRemainder, hb.belowFactor⟩

theorem Quiet.callMatchesSquelch {c : Cfg} {ch ch' : Channel} (h : Quiet c ch ch') (hc : ch.CallMatchesSquelch) :
    ch'.CallMatchesSquelch := by
  cases h; exact hc

theorem rebuild_branchesInStep (c : Cfg) (num : Nat) (rate : Word) (taps : List F) (impl : Byte) (ch : Channel) :
    (ch.rebuild c (committedConfig c num rate taps impl)).BranchesInStep :=
  ⟨rfl, decimFactor_pos _ _⟩

/-- Two branches that start at one remainder and take the same number of samples end at one remainder. -/
theorem runBlock_branchesInStep (c : Cfg) (cid ts : Word) (i q : List F) (ch : Channel) (hlen : i.length = q.length)
    (hb : ch.BranchesInStep) : (runBlock c cid ts i q ch).BranchesInStep := by
  constructor
  case sameRemainder =>
    simp only [runBlock_dec, frontEnd_dec, ← hb.sameRemainder]
    exact decimate_remainder_eq c _ _ _ i q _ _ _ hb.belowFactor hlen
  case belowFactor =>
    simp only [runBlock_dec, runBlock_config, frontEnd_dec]
    exact decimate_remainder_lt c _ _ i _ _ hb.belowFactor

theorem lifecycleNext_eq_call (sq : SqState) : lifecycleNext sq = .call ↔ sq = .unmuted := by
  cases sq <;> simp [lifecycleNext]

/-- The lifecycle state is written from the mute flag of the same block (R273). -/
theorem runBlock_callMatchesSquelch (c : Cfg) (cid ts : Word) (i q : List F) (ch : Channel) :
    (runBlock c cid ts i q ch).CallMatchesSquelch := by
  rw [Channel.CallMatchesSquelch, runBlock_lc, runBlock_squelch]
  exact lifecycleNext_eq_call _

/-- Settles O54, by the four things a command can do to a channel. -/
theorem branchesAndCallsStayInStep : Obligations.BranchesAndCallsStayInStep := by
  intro s t hs h
  refine step_each_of_effects _ (fun _ => True) ?quiet ?rate ?block ?reset s t trivial hs h
  case quiet => exact fun _ _ _ hq ⟨hb, hc⟩ => ⟨hq.branchesInStep hb, hq.callMatchesSquelch hc⟩
  case rate => exact fun _ _ _ _ _ _ _ ⟨_, hc⟩ => ⟨rebuild_branchesInStep _ _ _ _ _ _, hc⟩
  case block =>
    exact fun _ _ _ _ _ hlen ⟨hb, _⟩ => ⟨runBlock_branchesInStep _ _ _ _ _ _ hlen hb, runBlock_callMatchesSquelch ..⟩
  case reset =>
    exact fun _ _ ⟨hb, _⟩ =>
      ⟨⟨rfl, Nat.zero_lt_of_lt hb.belowFactor⟩, by simp [Channel.CallMatchesSquelch, Squelch.reset]⟩

end Sys2Proof.Machine
end

section
/-! O55: the counters of the squelch, of the tone decoder and of the resampler. -/

namespace Sys2Proof.Machine

/-! ### The squelch -/

/-- The debounce counters of the squelch are below their bounds. -/
structure Squelch.CountsBelow (c : Cfg) (q : Squelch) : Prop where
  openCnt : q.openCnt < c.openDebounce
  closeCnt : q.closeCnt < c.closeDebounce

theorem Squelch.reset_countsBelow (c : Cfg) : Squelch.reset.CountsBelow c :=
  ⟨c.openDebounce.pos, c.closeDebounce.pos⟩

/-- A debounce count is cleared or one more than before, and a count that reaches its bound is written as 0. -/
theorem debounce_lt {qualifies : Bool} {cnt : Nat} {bound : ℕ+} (h : cnt < bound)
    (hne : (if qualifies then cnt + 1 else 0) ≠ (bound : Nat)) :
    (if qualifies then cnt + 1 else 0) < (bound : Nat) := by
  have hle : (if qualifies then cnt + 1 else 0) ≤ cnt + 1 := by split <;> omega
  omega

theorem squelchDecide_countsBelow (c : Cfg) (r : Regs) (p : F) (q : Squelch) (h : q.CountsBelow c) :
    (squelchDecide c r p q).CountsBelow c := by
  have hopen := c.openDebounce.pos
  have hclose := c.closeDebounce.pos
  rcases squelchDecide_cases c r p q with ⟨-, -, e⟩ | ⟨-, -, e⟩ | ⟨-, -, -, e⟩ | ⟨-, -, hne, e⟩ | ⟨-, -, -, e⟩ |
    ⟨-, -, hne, e⟩ <;> rw [e]
  · exact ⟨hopen, hclose⟩
  · exact ⟨hopen, hclose⟩
  · exact ⟨hopen, hclose⟩
  · exact ⟨debounce_lt h.openCnt hne, h.closeCnt⟩
  · exact ⟨hopen, hclose⟩
  · exact ⟨h.openCnt, debounce_lt h.closeCnt hne⟩

theorem squelchEval_countsBelow (c : Cfg) (a : List F) (ch : Channel) (h : ch.squelch.CountsBelow c) :
    (squelchEval c a ch).squelch.CountsBelow c := by
  obtain ⟨nf, e⟩ := trackFloor_squelch c (blockPower c a) ch
  refine squelchDecide_countsBelow c _ _ _ ?_
  rw [e]
  exact ⟨h.openCnt, h.closeCnt⟩

theorem squelchStage_countsBelow (c : Cfg) (a : List F) (ch : Channel) (h : ch.squelch.CountsBelow c) :
    (squelchStage c a ch).squelch.CountsBelow c := by
  have hclear : ch.squelch.clearChanged.CountsBelow c := ⟨h.openCnt, h.closeCnt⟩
  by_cases ha : a = []
  · rw [ha, squelchStage_nil]; exact hclear
  · rw [squelchStage_eval c a ch ha]; exact squelchEval_countsBelow c a _ hclear

/-! ### The tone decoder -/

/-- Neither tone counter runs without the tone it counts for. -/
structure ToneDecoder.NoStrayCount (d : ToneDecoder) : Prop where
  noPending : d.pend = none → d.matchCnt = 0
  noCurrent : d.cur = none → d.lossCnt = 0

/-- The tone counters are below their bounds, and neither runs without its tone. -/
structure ToneDecoder.Debounced (c : Cfg) (d : ToneDecoder) : Prop extends d.NoStrayCount where
  matchCnt : d.matchCnt < c.matchCount
  lossCnt : d.lossCnt < c.lossCount

/-- The tone counters and the window fill are below their bounds. -/
structure ToneDecoder.CountsBelow (c : Cfg) (win : Nat) (d : ToneDecoder) : Prop extends d.Debounced c where
  window : d.n < win

theorem ToneDecoder.countsBelow_of_zero (c : Cfg) (win : Nat) (d : ToneDecoder) (hn : d.n = 0) (hm : d.matchCnt = 0)
    (hl : d.lossCnt = 0) (hwin : 0 < win) : d.CountsBelow c win :=
  ⟨⟨⟨fun _ => hm, fun _ => hl⟩, hm ▸ c.matchCount.pos, hl ▸ c.lossCount.pos⟩, hn ▸ hwin⟩

theorem toneCount_noStrayCount (cand : Option Nat) (d : ToneDecoder) (h : d.NoStrayCount) :
    (toneCount cand d).NoStrayCount := by
  have hloss : d.cur = none → (if d.cur.isSome then d.lossCnt + 1 else d.lossCnt) = 0 := by
    intro hcur
    simp [hcur, h.noCurrent hcur]
  cases cand with
  | none => rw [toneCount_none]; exact ⟨fun _ => rfl, hloss⟩
  | some t =>
    by_cases hcur : d.cur = some t
    · rw [toneCount_same d t hcur]; exact ⟨fun _ => rfl, fun _ => rfl⟩
    · rw [toneCount_other d t hcur]; exact ⟨fun hp => by simp at hp, hloss⟩

/-- A counter at its bound makes the action part promote or drop, which clears both counters. -/
theorem toneAct_debounced (c : Cfg) (ts : Word) (d : ToneDecoder) (h : d.NoStrayCount) :
    (toneAct c ts d).1.Debounced c := by
  have hm := c.matchCount.pos
  have hl := c.lossCount.pos
  rcases toneAct_cases c ts d with ⟨t, -, -, e⟩ | ⟨-, a, -, -, e⟩ | ⟨hmatch, hloss, e⟩ <;> rw [e]
  · exact ⟨⟨fun _ => rfl, fun _ => rfl⟩, hm, hl⟩
  · exact ⟨⟨fun _ => rfl, fun _ => rfl⟩, hm, hl⟩
  · exact ⟨h, hmatch.elim (fun hp => h.noPending hp ▸ hm) id, hloss.elim (fun hc => h.noCurrent hc ▸ hl) id⟩

theorem toneFsm_debounced (c : Cfg) (cand : Option Nat) (ts : Word) (d : ToneDecoder) (h : d.NoStrayCount) :
    (toneFsm c cand ts d).1.Debounced c :=
  toneAct_debounced c ts _ (toneCount_noStrayCount cand d h)

/-- The two things a sample's turn can do: complete the window, or only fill it by one. -/
theorem toneTurn_cases (c : Cfg) (cf : ActiveConfig) (ts : Word) (x : F) (d : ToneDecoder) :
    (d.n + 1 = cf.toneWin ∧ toneTurn c cf ts x d = toneWindowEnd c cf ts (toneSample c cf x d)) ∨
    (d.n + 1 ≠ cf.toneWin ∧ toneTurn c cf ts x d = (toneSample c cf x d, [])) := by
  have hfill : (toneSample c cf x d).n = d.n + 1 := rfl
  by_cases h : d.n + 1 = cf.toneWin
  · exact .inl ⟨h, by simp [toneTurn, hfill, h]⟩
  · exact .inr ⟨h, by simp [toneTurn, hfill, h]⟩

theorem toneTurn_countsBelow (c : Cfg) (cf : ActiveConfig) (ts : Word) (x : F) (d : ToneDecoder)
    (h : d.CountsBelow c cf.toneWin) : (toneTurn c cf ts x d).1.CountsBelow c cf.toneWin := by
  rcases toneTurn_cases c cf ts x d with ⟨hfull, e⟩ | ⟨hroom, e⟩ <;> rw [e]
  · refine ⟨toneFsm_debounced c _ ts _ ⟨h.noPending, h.noCurrent⟩, ?_⟩
    rw [toneWindowEnd, (toneFsm_frame c _ ts _).2.2.2]
    exact Nat.zero_lt_of_lt h.window
  · exact ⟨⟨⟨h.noPending, h.noCurrent⟩, h.matchCnt, h.lossCnt⟩, Nat.lt_of_le_of_ne h.window hroom⟩

theorem toneRun_countsBelow (c : Cfg) (cf : ActiveConfig) (ts : Word) (a : List F) (d : ToneDecoder)
    (h : d.CountsBelow c cf.toneWin) : (toneRun c cf ts a d).1.CountsBelow c cf.toneWin :=
  toneRun_keeps c cf ts (ToneDecoder.CountsBelow c cf.toneWin) (toneTurn_countsBelow c cf ts)
    (fun _ _ h => ⟨⟨⟨h.noPending, h.noCurrent⟩, h.matchCnt, h.lossCnt⟩, h.window⟩) a d h

/-! ### The resampler -/

theorem resamplerAfter_acc_lt (c : Cfg) (cf : ActiveConfig) (a : List F) (r : Resampler) (sq : SqState)
    (h : r.acc < cf.rsM) : (resamplerAfter c cf a r sq).acc < cf.rsM := by
  cases sq with
  | muted => exact h
  | unmuted => exact resample_acc_lt c cf.rsL cf.rsM cf.rsTaps (Nat.zero_lt_of_lt h) a r h

/-! ### The channel -/

theorem Channel.countersBounded_iff (c : Cfg) (ch : Channel) :
    ch.CountersBounded c ↔
      ch.squelch.CountsBelow c ∧ ch.tone.CountsBelow c ch.config.toneWin ∧ ch.resampler.acc < ch.config.rsM :=
  ⟨fun h => ⟨⟨h.openCnt, h.closeCnt⟩, ⟨⟨⟨h.noPending, h.noCurrent⟩, h.matchCnt, h.lossCnt⟩, h.window⟩, h.accumulator⟩,
   fun ⟨hsq, htone, hacc⟩ => ⟨hsq.openCnt, hsq.closeCnt, htone.window, hacc, htone.matchCnt, htone.lossCnt,
     htone.noPending, htone.noCurrent⟩⟩

theorem Quiet.countersBounded {c : Cfg} {ch ch' : Channel} (h : Quiet c ch ch') (hb : ch.CountersBounded c) :
    ch'.CountersBounded c := by
  rw [Channel.countersBounded_iff] at hb ⊢
  cases h; exact hb

/-- An accepted rate starts an empty window and an empty accumulator, each of positive length. -/
theorem rebuild_countersBounded (c : Cfg) (num : Nat) (rate : Word) (taps : List F) (impl : Byte) (ch : Channel)
    (hacc : RateAccepted c num rate taps) (h : ch.CountersBounded c) :
    (ch.rebuild c (committedConfig c num rate taps impl)).CountersBounded c :=
  { h with window := hacc.toneWindow_pos, accumulator := hacc.resampM_pos _ }

theorem runBlock_countersBounded (c : Cfg) (cid ts : Word) (i q : List F) (ch : Channel) (h : ch.CountersBounded c) :
    (runBlock c cid ts i q ch).CountersBounded c := by
  rw [Channel.countersBounded_iff] at h ⊢
  obtain ⟨hsq, htone, hacc⟩ := h
  simp only [runBlock_squelch, runBlock_tone, runBlock_resampler, runBlock_config]
  exact ⟨squelchStage_countsBelow c _ _ hsq, toneRun_countsBelow c _ ts _ _ htone,
    resamplerAfter_acc_lt c _ _ _ _ hacc⟩

theorem resetChannel_countersBounded (c : Cfg) (ch : Channel) (h : ch.CountersBounded c) :
    (resetChannel ch).CountersBounded c :=
  (Channel.countersBounded_iff c _).mpr ⟨Squelch.reset_countsBelow c,
    ToneDecoder.countsBelow_of_zero c _ _ rfl rfl rfl (Nat.zero_lt_of_lt h.window), Nat.zero_lt_of_lt h.accumulator⟩

/-- Settles O55, by the four things a command can do to a channel. -/
theorem countersStayBelowTheirBounds : Obligations.CountersStayBelowTheirBounds := by
  intro s t hs h
  refine step_each_of_effects _ (fun _ => True) ?quiet ?rate ?block ?reset s t trivial hs h
  case quiet => exact fun _ _ _ hq => hq.countersBounded
  case rate => exact fun _ _ _ _ _ _ hacc => rebuild_countersBounded _ _ _ _ _ _ hacc
  case block => exact fun _ _ _ _ _ _ => runBlock_countersBounded _ _ _ _ _ _
  case reset => exact fun _ => resetChannel_countersBounded _

end Sys2Proof.Machine
end

section
/-! O56: the active configuration is written by an accepted rate alone, as that rate computes it. -/

namespace Sys2Proof.Machine

/-- A property of the configuration alone, as one of the channel. -/
theorem Channel.ConfigFromRate.of_config_eq {c : Cfg} {num : Nat} {ch ch' : Channel} (e : ch'.config = ch.config)
    (h : ch.ConfigFromRate c num) : ch'.ConfigFromRate c num := by
  obtain ⟨hpow, hfeas, hlargest, htaps, hrest⟩ := h
  constructor <;> rw [e] <;> assumption

theorem rebuild_configFromRate (c : Cfg) (num : Nat) (rate : Word) (taps : List F) (impl : Byte) (ch : Channel)
    (h : RateAccepted c num rate taps) :
    (ch.rebuild c (committedConfig c num rate taps impl)).ConfigFromRate c num where
  powerOfTwo := decimFactor_powerOfTwo _ _
  feasible := h.bandwidth_le
  largest := lt_decimFactor rate (c.channelBw num)
  chTaps := h.designed
  rest := rfl

/-- Settles O56: an accepted rate commits its own configuration, and nothing else writes one. -/
theorem configurationStaysTheOneOfItsRate : Obligations.ConfigurationStaysTheOneOfItsRate := by
  intro s t hs h
  have keep : ∀ (num : Nat) (ch ch' : Channel), ch'.config = ch.config →
      (ch.config.configured = true → ch.ConfigFromRate Config.cfg num) →
      ch'.config.configured = true → ch'.ConfigFromRate Config.cfg num :=
    fun _ _ _ e hp hc => (hp (e ▸ hc)).of_config_eq e
  refine step_each_of_effects _ (fun _ => True) ?quiet ?rate ?block ?reset s t trivial hs h
  case quiet => exact fun num ch ch' hq => keep num ch ch' hq.config
  case rate => exact fun _ _ _ _ _ _ hacc _ _ => rebuild_configFromRate _ _ _ _ _ _ hacc
  case block => exact fun num _ _ _ ch _ => keep num ch _ (runBlock_config ..)
  case reset => exact fun num ch => keep num ch _ (resetChannel_config ch)

end Sys2Proof.Machine
end

section
/-! O57: the memories keep the lengths of their taps and of the tone list, and tones are of the list. -/

namespace Sys2Proof.Machine

@[simp] theorem frontEnd_fir (c : Cfg) (ch : Channel) (i q : List F) :
    (frontEnd c ch i q).2.fir =
      { iDl := (fir c ch.config.chTaps
          (decimate c ch.config.decimD ch.config.decTaps i ch.dec.iDl ch.dec.iR).1 ch.fir.iDl).2
        qDl := (fir c ch.config.chTaps
          (decimate c ch.config.decimD ch.config.decTaps q ch.dec.qDl ch.dec.qR).1 ch.fir.qDl).2 } := rfl

@[simp] theorem toneCoeffs_length (c : Cfg) (fs d : Nat) : (toneCoeffs c fs d).length = c.nt := by
  simp [toneCoeffs, Cfg.nt]

/-! ### The tone decoder -/

/-- The current and the pending tone, where there are any, are below `nt`. -/
structure ToneDecoder.Listed (nt : Nat) (d : ToneDecoder) : Prop where
  cur : ∀ t, d.cur = some t → t < nt
  pend : ∀ t, d.pend = some t → t < nt

theorem toneCount_listed (nt : Nat) (cand : Option Nat) (d : ToneDecoder) (hcand : ∀ t, cand = some t → t < nt)
    (h : d.Listed nt) : (toneCount cand d).Listed nt := by
  cases cand with
  | none => rw [toneCount_none]; exact ⟨h.cur, nofun⟩
  | some t =>
    by_cases hcur : d.cur = some t
    · rw [toneCount_same d t hcur]; exact ⟨h.cur, nofun⟩
    · rw [toneCount_other d t hcur]; exact ⟨h.cur, hcand⟩

/-- A promoted tone was pending. -/
theorem toneAct_listed (c : Cfg) (nt : Nat) (ts : Word) (d : ToneDecoder) (h : d.Listed nt) :
    (toneAct c ts d).1.Listed nt := by
  rcases toneAct_cases c ts d with ⟨t, hp, -, e⟩ | ⟨-, a, -, -, e⟩ | ⟨-, -, e⟩ <;> rw [e]
  · exact ⟨fun u hu => h.pend u (hp.trans hu), nofun⟩
  · exact ⟨nofun, nofun⟩
  · exact h

/-- The pre-filter has `taps` words, the bank `nt` registers of each kind, and the tones are below `nt`. -/
structure ToneDecoder.Sized (taps nt : Nat) (d : ToneDecoder) : Prop extends d.Listed nt where
  dl : d.dl.length = taps
  q1 : d.q1.length = nt
  q2 : d.q2.length = nt

theorem toneFsm_sized (c : Cfg) (cand : Option Nat) (ts : Word) (taps nt : Nat) (d : ToneDecoder)
    (hcand : ∀ t, cand = some t → t < nt) (h : d.Sized taps nt) : (toneFsm c cand ts d).1.Sized taps nt := by
  obtain ⟨hdl, hq1, hq2, -⟩ := toneFsm_frame c cand ts d
  exact ⟨toneAct_listed c nt ts _ (toneCount_listed nt cand d hcand h.toListed),
    hdl ▸ h.dl, hq1 ▸ h.q1, hq2 ▸ h.q2⟩

section Sized

variable (c : Cfg) (cf : ActiveConfig) (ts : Word) (taps nt : Nat) (hk : cf.coeff.length = nt)
include hk

theorem toneSample_sized (x : F) (d : ToneDecoder) (h : d.Sized taps nt) : (toneSample c cf x d).Sized taps nt :=
  ⟨⟨h.cur, h.pend⟩, (push_length _ _).trans h.dl, goertzelStep_length c _ _ _ _ nt hk h.q1 h.q2, h.q1⟩

/-- The candidate is one of the powers, and there are as many powers as tones. -/
theorem candidate_tonePowers_lt (d : ToneDecoder) (h : d.Sized taps nt) (t : Nat)
    (hc : candidate c (tonePowers c cf.coeff d.q1 d.q2) = some t) : t < nt :=
  tonePowers_length c cf.coeff d.q1 d.q2 nt hk h.q1 h.q2 ▸ (candidate_some c _ t hc).1

/-- The window's end zeroes the bank at its length and hands the candidate to the debounce machine. -/
theorem toneWindowEnd_sized (d : ToneDecoder) (h : d.Sized taps nt) : (toneWindowEnd c cf ts d).1.Sized taps nt :=
  toneFsm_sized c _ ts taps nt _ (candidate_tonePowers_lt c cf taps nt hk d h)
    ⟨⟨h.cur, h.pend⟩, h.dl, (clearMem_length _).trans h.q1, (clearMem_length _).trans h.q2⟩

theorem toneTurn_sized (x : F) (d : ToneDecoder) (h : d.Sized taps nt) : (toneTurn c cf ts x d).1.Sized taps nt := by
  have hsample := toneSample_sized c cf taps nt hk x d h
  rcases toneTurn_cases c cf ts x d with ⟨-, e⟩ | ⟨-, e⟩ <;> rw [e]
  · exact toneWindowEnd_sized c cf ts taps nt hk _ hsample
  · exact hsample

theorem toneRun_sized (a : List F) (d : ToneDecoder) (h : d.Sized taps nt) : (toneRun c cf ts a d).1.Sized taps nt :=
  toneRun_keeps c cf ts (ToneDecoder.Sized taps nt) (toneTurn_sized c cf ts taps nt hk)
    (fun _ _ h => ⟨⟨h.cur, h.pend⟩, h.dl, h.q1, h.q2⟩) a d h

end Sized

/-! ### The channel -/

theorem resamplerAfter_length (c : Cfg) (cf : ActiveConfig) (a : List F) (r : Resampler) (sq : SqState) :
    (resamplerAfter c cf a r sq).dl.length = r.dl.length := by
  cases sq with
  | muted => rfl
  | unmuted => exact resample_delay_length ..

/-- The tone decoder of a channel whose memories have their lengths. -/
theorem Channel.MemoriesSized.toneDecoder {c : Cfg} {ch : Channel} (h : ch.MemoriesSized c) (ht : ch.TonesListed c) :
    ch.tone.Sized ch.config.toneTaps.length c.nt :=
  ⟨⟨ht.1, ht.2⟩, h.tone, h.q1, h.q2⟩

theorem Quiet.memoriesSized {c : Cfg} {ch ch' : Channel} (h : Quiet c ch ch') (hm : ch.MemoriesSized c) :
    ch'.MemoriesSized c := by
  cases h; exact { hm with }

theorem Quiet.tonesListed {c : Cfg} {ch ch' : Channel} (h : Quiet c ch ch') (ht : ch.TonesListed c) :
    ch'.TonesListed c := by
  cases h; exact ht

/-- Rebuilt memories are zeroed at the lengths the new configuration gives them. -/
theorem rebuild_memoriesSized (c : Cfg) (num : Nat) (rate : Word) (taps : List F) (impl : Byte) (ch : Channel) :
    (ch.rebuild c (committedConfig c num rate taps impl)).MemoriesSized c where
  decI := zeros_length _
  decQ := zeros_length _
  firI := zeros_length _
  firQ := zeros_length _
  tone := zeros_length _
  resampler := zeros_length _
  coeff := toneCoeffs_length c _ _
  q1 := zeros_length _
  q2 := zeros_length _

theorem runBlock_memoriesSized_tonesListed (c : Cfg) (cid ts : Word) (i q : List F) (ch : Channel)
    (h : ch.MemoriesSized c) (ht : ch.TonesListed c) :
    (runBlock c cid ts i q ch).MemoriesSized c ∧ (runBlock c cid ts i q ch).TonesListed c := by
  have htone := toneRun_sized c ch.config ts _ c.nt h.coeff (demodulated c ch i q) ch.tone (h.toneDecoder ht)
  constructor
  · constructor <;> simp only [runBlock_config, runBlock_dec, runBlock_fir, runBlock_tone, runBlock_resampler,
      frontEnd_dec, frontEnd_fir, decimate_delay_length, fir_delay_length, resamplerAfter_length]
    exacts [h.decI, h.decQ, h.firI, h.firQ, htone.dl, h.resampler, h.coeff, htone.q1, htone.q2]
  · rw [Channel.TonesListed, runBlock_tone]
    exact ⟨htone.cur, htone.pend⟩

theorem resetChannel_memoriesSized (c : Cfg) (ch : Channel) (h : ch.MemoriesSized c) :
    (resetChannel ch).MemoriesSized c := by
  constructor <;> simp only [resetChannel_config, resetChannel_dec, resetChannel_fir, resetChannel_tone,
    resetChannel_resampler, clearMem_length]
  exacts [h.decI, h.decQ, h.firI, h.firQ, h.tone, h.resampler, h.coeff, h.q1, h.q2]

/-- Settles O57, by the four things a command can do to a channel. -/
theorem memoriesKeepTheirLengths : Obligations.MemoriesKeepTheirLengths := by
  intro s t hs h
  refine step_each_of_effects _ (fun _ => True) ?quiet ?rate ?block ?reset s t trivial hs h
  case quiet => exact fun _ _ _ hq ⟨hm, ht⟩ => ⟨hq.memoriesSized hm, hq.tonesListed ht⟩
  case rate => exact fun _ _ _ _ _ _ _ ⟨_, ht⟩ => ⟨rebuild_memoriesSized _ _ _ _ _ _, ht⟩
  case block => exact fun _ _ _ _ _ _ ⟨hm, ht⟩ => runBlock_memoriesSized_tonesListed _ _ _ _ _ _ hm ht
  case reset => exact fun _ _ ⟨hm, _⟩ => ⟨resetChannel_memoriesSized _ _ hm, nofun, nofun⟩

end Sys2Proof.Machine
end

section
/-! O58: the selection codes. -/

namespace Sys2Proof.Machine

theorem calCodeOk_of_implCodeOk (c : Cfg) (code : Byte) (h : implCodeOk c code = true) (h0 : code ≠ 0#8) :
    calCodeOk c code = true := by
  simpa [implCodeOk, calCodeOk, h0] using h

/-- A legal request, or else a legal `CAL_SEL`, or else 1 (R124). -/
theorem resolveImpl_ok (c : Cfg) (req cal : Byte) (hreq : implCodeOk c req = true)
    (hcal : cal = 0#8 ∨ calCodeOk c cal = true) : calCodeOk c (resolveImpl req cal) = true := by
  unfold resolveImpl
  split
  case isTrue h => exact calCodeOk_of_implCodeOk c req hreq h
  case isFalse =>
    split
    case isTrue h => exact hcal.resolve_left h
    case isFalse => rfl

/-- An instruction leaves `CAL_SEL` as it was, or is a CAL_WRITE of a legal code that found it 0 (R133). -/
theorem calAfter_cases (c : Cfg) (cal : Byte) (i : Instr) :
    calAfter c cal i = cal ∨
    (∃ tag code, i = .calWrite tag code ∧ cal = 0#8 ∧ calCodeOk c code = true ∧ calAfter c cal i = code) := by
  cases i
  case calWrite tag code =>
    simp only [calAfter]
    split
    case isTrue h =>
      simp only [Bool.and_eq_true, beq_iff_eq] at h
      exact .inr ⟨tag, code, rfl, h.2, h.1, rfl⟩
    case isFalse => exact .inl rfl
  all_goals exact .inl rfl

theorem step_calSelLegal (s t : State) (hs : s.CalSelLegal Config.cfg) (h : step s = .next t) :
    t.CalSelLegal Config.cfg := by
  unfold State.CalSelLegal at hs ⊢
  rcases step_calSel s t h with e | ⟨i, e⟩
  · rw [e]; exact hs
  · rcases calAfter_cases Config.cfg s.calSel i with e' | ⟨tag, code, -, -, hok, e'⟩
    · rw [e, e']; exact hs
    · rw [e, e']; exact .inr hok

theorem Quiet.codesLegal {c : Cfg} {ch ch' : Channel} (h : Quiet c ch ch') (hl : ch.CodesLegal c) :
    ch'.CodesLegal c := by
  obtain ⟨cmd, msg, r, f, hreq, -⟩ := h
  exact ⟨hreq.elim (fun e => e ▸ hl.1) id, hl.2⟩

theorem runBlock_codesLegal (c : Cfg) (cid ts : Word) (i q : List F) (ch : Channel) (h : ch.CodesLegal c) :
    (runBlock c cid ts i q ch).CodesLegal c := by
  obtain ⟨th, e⟩ := squelchStage_regs c (demodulated c ch i q) (frontEnd c ch i q).2
  rw [Channel.CodesLegal, runBlock_config, runBlock_regs, e]
  exact h

/-- Settles O58, by what a step does to `CAL_SEL` and the four things a command can do to a channel. -/
theorem selectionCodesStayLegal : Obligations.SelectionCodesStayLegal := by
  intro s t hcal hs h
  refine ⟨step_calSelLegal s t hcal h, ?_⟩
  refine step_each_of_effects _ (fun cal => cal = 0#8 ∨ calCodeOk Config.cfg cal = true)
    ?quiet ?rate ?block ?reset s t hcal hs h
  case quiet => exact fun _ _ _ hq => hq.codesLegal
  case rate => exact fun _ _ _ _ _ hcal _ hl => ⟨hl.1, resolveImpl_ok _ _ _ hl.1 hcal⟩
  case block => exact fun _ _ _ _ _ _ => runBlock_codesLegal _ _ _ _ _ _
  case reset => exact fun _ _ hl => hl

end Sys2Proof.Machine
end

section
/-! O11, O19, O25, O50: what a command reads, and what it and a run of commands leave alone. -/

namespace Sys2Proof.Machine

/-- Settles O11: a command's effect is a function of its channel, the channel's number and `CAL_SEL`, and only the
acting channel and `CAL_SEL` are written. -/
theorem channelsAreIsolated : Obligations.ChannelsAreIsolated := by
  intro i s₁ s₂ t₁ t₂ hact hnum hcal h₁ h₂
  rw [exec_eq] at h₁ h₂
  cases h₁
  cases h₂
  refine ⟨?_, ?_, rfl, rfl, rfl⟩
  · simp only [hact, hnum, hcal]
  · simp only [hcal]

/-! ### `CAL_SEL` -/

theorem calCodeOk_cfg_iff (code : Byte) :
    calCodeOk Config.cfg code = true ↔ code = 1#8 ∨ (2 ≤ code.toNat ∧ code.toNat ∈ Config.lanes) := by
  simp [calCodeOk, isLane, Config.cfg]

theorem step_keeps_calSel (s t : State) (h : step s = .next t) (h0 : s.calSel ≠ 0#8) : t.calSel = s.calSel := by
  rcases step_calSel s t h with e | ⟨i, e⟩
  · exact e
  · rw [e, calAfter_keeps _ _ _ h0]

/-- Settles O19: an instruction's write of `CAL_SEL`, and a run by what every step keeps. -/
theorem calSelIsWrittenOnce : Obligations.CalSelIsWrittenOnce := by
  constructor
  · intro i s t h hne
    rw [exec_eq] at h
    cases h
    rcases calAfter_cases Config.cfg s.calSel i with e | ⟨tag, code, rfl, h0, hok, e⟩
    · exact absurd e hne
    · exact ⟨h0, tag, code, rfl, e, (calCodeOk_cfg_iff code).mp hok⟩
  · intro n s t h h0
    refine stepMany_keeps (fun u => u.calSel = s.calSel) ?_ n s t rfl h
    intro u v hu hstep
    rw [step_keeps_calSel u v hstep (hu ▸ h0), hu]

/-! ### The active configuration -/

theorem faultOf_sampleRate_of_accepted (c : Cfg) (s : State) (tag : Byte) (rate : Word) (taps : List F)
    (h : RateAccepted c s.activeNum rate taps) : faultOf c s (.sampleRate tag rate) = none := by
  have hne : rate ≠ 0#32 := fun e => h.positive (by rw [e]; rfl)
  simp [faultOf, sampleRateFault, hne, h.designed, Nat.not_lt.mpr h.bandwidth_le]

/-- Settles O25: of the four things a command can do, only committing an accepted rate writes the configuration. -/
theorem onlySampleRateChangesTheConfiguration : Obligations.OnlySampleRateChangesTheConfiguration := by
  intro i s t h hno
  rw [exec_eq] at h
  cases h
  rcases channelEffect_cases Config.cfg s.activeNum s.calSel i s.active with hq | ⟨tag, rate, taps, rfl, hacc, -⟩ |
    ⟨tag, ts, xi, xq, -, e⟩ | ⟨tag, -, e⟩
  · exact hq.config
  · rcases hno with hno | hno
    · exact absurd rfl (hno tag rate)
    · exact absurd (faultOf_sampleRate_of_accepted Config.cfg s tag rate taps hacc) hno
  · simp only [e, runBlock_config]
  · simp only [e, resetChannel_config]

/-! ### `FSTAT` -/

/-- Bits 6 and 7 of a channel's `FSTAT` are 0, and every bit that channel `num` of `s₀` had set is set. -/
structure FstatKeeps (s₀ : State) (num : Nat) (ch : Channel) : Prop where
  legal : ch.FstatLegal
  sticky : ∀ ch₀, s₀.channels[num]? = some ch₀ → ch₀.fstat &&& ch.fstat = ch₀.fstat

theorem FstatKeeps.of_fstat_eq {s₀ : State} {num : Nat} {ch : Channel} (h : FstatKeeps s₀ num ch) (ch' : Channel)
    (e : ch'.fstat = ch.fstat) : FstatKeeps s₀ num ch' := by
  obtain ⟨hlegal, hsticky⟩ := h
  constructor
  · rw [Channel.FstatLegal, e]; exact hlegal
  · rw [e]; exact hsticky

/-- Setting a bit keeps the bits that are set. -/
theorem and_or_of_and_eq (a b m : Byte) (h : a &&& b = a) : a &&& (b ||| m) = a := by
  rw [BitVec.and_or_distrib_left, h]
  ext i hi
  simp +contextual [BitVec.getElem_or]

theorem Quiet.fstatKeeps {c : Cfg} {s₀ : State} {num : Nat} {ch ch' : Channel} (h : Quiet c ch ch')
    (hk : FstatKeeps s₀ num ch) : FstatKeeps s₀ num ch' := by
  obtain ⟨cmd, msg, r, f, -, rfl | ⟨code, rfl⟩⟩ := h
  · exact hk.of_fstat_eq _ rfl
  · refine ⟨?_, fun ch₀ h₀ => and_or_of_and_eq _ _ _ (hk.sticky ch₀ h₀)⟩
    have hlegal : ch.fstat &&& 0xC0#8 = 0#8 := hk.legal
    simp only [Channel.FstatLegal, BitVec.and_comm _ 0xC0#8, BitVec.and_or_distrib_left]
    rw [BitVec.and_comm, hlegal, BitVec.and_comm, fstatBit_reserved]
    rfl

theorem step_fstatKeeps (s₀ s t : State) (hs : s.Each (FstatKeeps s₀)) (h : step s = .next t) :
    t.Each (FstatKeeps s₀) := by
  refine step_each_of_effects _ (fun _ => True) ?quiet ?rate ?block ?reset s t trivial hs h
  case quiet => exact fun _ _ _ hq => hq.fstatKeeps
  case rate => exact fun _ _ _ _ _ _ _ hk => hk.of_fstat_eq _ rfl
  case block => exact fun _ _ _ _ _ _ hk => hk.of_fstat_eq _ (runBlock_fstat ..)
  case reset => exact fun _ _ hk => hk.of_fstat_eq _ rfl

theorem step_channels_length (s t : State) (h : step s = .next t) : t.channels.length = s.channels.length := by
  obtain ⟨j, ch, ch', rest, -, hset, -⟩ := oneStepIsOneCommandOfOneChannel s t h
  rw [hset, List.length_set]

/-- Settles O50: what one step keeps of the bits set at the start, every run keeps. -/
theorem fstatBitsAreSticky : Obligations.FstatBitsAreSticky := by
  intro n s t hs h
  have hstart : s.Each (FstatKeeps s) := by
    refine fun j ch hj => ⟨hs j ch hj, fun ch₀ h₀ => ?_⟩
    rw [hj, Option.some.injEq] at h₀
    rw [h₀, BitVec.and_self]
  have hkeeps : t.Each (FstatKeeps s) :=
    stepMany_keeps (fun u => u.Each (FstatKeeps s)) (step_fstatKeeps s) n s t hstart h
  have hlen : t.channels.length = s.channels.length :=
    stepMany_keeps (fun u => u.channels.length = s.channels.length)
      (fun u v hu hstep => (step_channels_length u v hstep).trans hu) n s t rfl h
  exact ⟨fun j ch hj => (hkeeps j ch hj).legal, hlen, fun j ch ch' hj hj' => (hkeeps j ch' hj').sticky ch hj⟩

end Sys2Proof.Machine
end

section
/-! O16: the fields of the STATUS word. -/

namespace Sys2Proof.Machine

/-- A field of the STATUS word from the bits it is made of. -/
theorem extractLsb'_eq_of_bits {n : Nat} (w : Word) (start : Nat) (v : BitVec n)
    (h : ∀ i < n, w.getLsbD (start + i) = v.getLsbD i) : w.extractLsb' start n = v := by
  ext i hi
  rw [BitVec.getElem_extractLsb', h i hi, BitVec.getLsbD_eq_getElem]

theorem Channel.log2dField_toNat (ch : Channel) (hc : ch.config.configured = true) (n : Nat) (hn : n ≤ 30)
    (hd : ch.config.decimD = 2 ^ n) : ch.log2dField.toNat = n := by
  simp only [Channel.log2dField, hc, hd, if_true, Nat.log2_two_pow, BitVec.toNat_ofNat]
  omega

/-- The fields of more than one bit, each bit by its number. -/
theorem Channel.statusWord_fields (ch : Channel) :
    ch.statusWord.extractLsb' 6 2 = 0#2 ∧ ch.statusWord.extractLsb' 8 8 = ch.fstat ∧
    ch.statusWord.extractLsb' 16 8 = ch.implField ∧ ch.statusWord.extractLsb' 24 5 = ch.log2dField ∧
    ch.statusWord.extractLsb' 29 3 = 0#3 := by
  refine ⟨?_, ?_, ?_, ?_, ?_⟩ <;>
    (refine extractLsb'_eq_of_bits _ _ _ fun i hi => ?_
     rw [ch.statusWord_bit]
     interval_cases i <;> simp)

/-- Settles O16, by the STATUS word bit by bit. -/
theorem statusWordHasItsFields : Obligations.StatusWordHasItsFields := by
  intro tag s
  obtain ⟨hreserved, hfstat, himpl, hlog2d, htop⟩ := s.active.statusWord_fields
  refine ⟨rfl, s.active.statusWord, rfl, ?_, ?_, ?_, ?_, ?_, ?_, hreserved, hfstat, himpl,
    fun hc => ?unconfigured, fun hc n hn hd => ?configured, htop⟩
  case unconfigured => simp [hlog2d, Channel.log2dField, hc]
  case configured => rw [hlog2d]; exact s.active.log2dField_toNat hc n hn hd
  all_goals (rw [s.active.statusWord_bit]; simp)

end Sys2Proof.Machine
end

section
/-! O52, O53: the state after hardware reset. -/

namespace Sys2Proof.Machine

theorem eq_reset_of_mem_channels (c : Cfg) (ch : Channel) (h : ch ∈ (State.resetWith c).channels) :
    ch = Channel.reset c := by
  simp only [State.channels, State.resetWith, List.mem_append, List.mem_cons, List.mem_replicate] at h
  rcases h with ⟨-, h⟩ | h | ⟨-, h⟩ <;> exact h

theorem resetWith_channels_length (c : Cfg) : (State.resetWith c).channels.length = c.nchan := by
  have hlt : c.pick 0 % c.nchan < c.nchan := Nat.mod_lt _ c.nchan.pos
  simp only [State.channels, State.resetWith, List.length_append, List.length_cons, List.length_replicate]
  omega

/-- After reset every command port is empty, so no channel can move. -/
theorem step_reset : step State.reset = .fault .idle := by
  have hports : ∀ ch ∈ State.reset.channels, ch.cmdPort = [] := fun ch hch => by
    rw [eq_reset_of_mem_channels Config.cfg ch hch]; rfl
  have hsettle : State.reset.settle = none :=
    State.reset.settle_none.mpr fun ch hch => by rw [Channel.enabled, hports ch hch]; rfl
  have hreason : State.reset.stuckReason = .idle := by
    rw [State.stuckReason, if_pos]
    exact List.all_eq_true.mpr fun ch hch => by rw [hports ch hch]; rfl
  simp only [step, fetch, hsettle, hreason]

/-- Settles O52: every channel is the one of `Channel.reset`. -/
theorem hardwareResetState : Obligations.HardwareResetState := by
  refine ⟨rfl, resetWith_channels_length Config.cfg, fun t ht => ?_, fun ch hch => ?_⟩
  · rw [step_reset] at ht
    cases ht
  · rw [eq_reset_of_mem_channels Config.cfg ch hch]
    and_intros <;> rfl

theorem reset_countersBounded (c : Cfg) : (Channel.reset c).CountersBounded c :=
  (Channel.countersBounded_iff c _).mpr ⟨Squelch.reset_countsBelow c,
    ToneDecoder.countsBelow_of_zero c _ _ rfl rfl rfl Nat.zero_lt_one, Nat.zero_lt_one⟩

theorem reset_memoriesSized (c : Cfg) : (Channel.reset c).MemoriesSized c where
  decI := rfl
  decQ := rfl
  firI := rfl
  firQ := rfl
  tone := rfl
  resampler := by simp [Channel.reset, ActiveConfig.reset, ceildiv]
  coeff := List.length_replicate
  q1 := List.length_replicate
  q2 := List.length_replicate

/-- Settles O53: every channel is the one of `Channel.reset`, which is unconfigured and has no tone. -/
theorem resetMeetsEveryInvariant : Obligations.ResetMeetsEveryInvariant := by
  refine ⟨fun j ch hj => ?_, .inl rfl, step_reset⟩
  rw [eq_reset_of_mem_channels Config.cfg ch (List.mem_of_getElem? hj)]
  exact ⟨⟨rfl, Nat.zero_lt_one⟩, by simp [Channel.CallMatchesSquelch, Channel.reset, Squelch.reset],
    reset_countersBounded _, nofun, reset_memoriesSized _, ⟨nofun, nofun⟩, ⟨rfl, rfl⟩, rfl⟩

end Sys2Proof.Machine
end

section
/-! O9: a step runs a command of a channel that can move, and without such a channel it answers why it stops. -/

namespace Sys2Proof.Machine

theorem Channel.cmdPort_ne_nil_of_enabled (ch : Channel) (h : ch.enabled = true) : ch.cmdPort ≠ [] := by
  intro hnil
  simp [Channel.enabled, hnil, decode] at h

/-- The front of an enabled channel's port is a whole command or an illegal header. -/
theorem Channel.enabled_cases (ch : Channel) (h : ch.enabled = true) :
    (∃ i rest, decode ch.cmdPort = .instr i rest) ∨ ∃ w rest, decode ch.cmdPort = .illegal w rest := by
  unfold Channel.enabled at h
  split at h
  case h_1 i rest hd => exact .inl ⟨i, rest, hd⟩
  case h_2 w rest hd => exact .inr ⟨w, rest, hd⟩
  all_goals exact absurd h Bool.false_ne_true

theorem State.stuckReason_of_ports_nil (s : State) (h : ∀ ch ∈ s.channels, ch.cmdPort = []) :
    s.stuckReason = .idle := by
  rw [State.stuckReason, if_pos]
  simpa using h

theorem State.stuckReason_of_port_ne_nil (s : State) (h : ∃ ch ∈ s.channels, ch.cmdPort ≠ []) :
    s.stuckReason = .awaitingWords := by
  rw [State.stuckReason, if_neg]
  simpa using h

theorem step_of_settle_none (s : State) (h : s.settle = none) : step s = .fault s.stuckReason := by
  simp only [step, fetch, h]

theorem step_of_settle_some (s s' : State) (h : s.settle = some s') : ∃ t, step s = .next t := by
  obtain ⟨-, -, hen⟩ := s.settle_some s' h
  rcases s'.active.enabled_cases hen with ⟨i, rest, hd⟩ | ⟨w, rest, hd⟩
  · simp [step, fetch, h, hd, exec_eq, afterCommand]
  · simp [step, fetch, h, hd, afterCommand]

/-- A step moves a channel, or stops because every port is empty, or stops because none holds a whole command though
some port is not empty. -/
theorem step_cases (s : State) :
    ((∃ t, step s = .next t) ∧ ∃ ch ∈ s.channels, ch.enabled = true) ∨
    (step s = .fault .idle ∧ ∀ ch ∈ s.channels, ch.cmdPort = []) ∨
    (step s = .fault .awaitingWords ∧ (∀ ch ∈ s.channels, ch.enabled = false) ∧
      ∃ ch ∈ s.channels, ch.cmdPort ≠ []) := by
  cases hset : s.settle with
  | some s' =>
    obtain ⟨hch, -, hen⟩ := s.settle_some s' hset
    have hmem : s'.active ∈ s.channels := hch ▸ List.mem_of_getElem? s'.channels_active
    exact .inl ⟨step_of_settle_some s s' hset, s'.active, hmem, hen⟩
  | none =>
    rw [step_of_settle_none s hset]
    by_cases hports : ∀ ch ∈ s.channels, ch.cmdPort = []
    · exact .inr (.inl ⟨by rw [s.stuckReason_of_ports_nil hports], hports⟩)
    · have hwait : ∃ ch ∈ s.channels, ch.cmdPort ≠ [] := by simpa using hports
      exact .inr (.inr ⟨by rw [s.stuckReason_of_port_ne_nil hwait], s.settle_none.mp hset, hwait⟩)

/-- Settles O9: the three answers of a step, each under a condition that excludes the other two. -/
theorem stepStopsExactlyWhenNoChannelCanMove : Obligations.StepStopsExactlyWhenNoChannelCanMove := by
  intro s
  rcases step_cases s with ⟨⟨t, ht⟩, ch, hch, hen⟩ | ⟨hstep, hports⟩ | ⟨hstep, hen, ch, hch, hne⟩
  · have hnotIdle : ¬ ∀ ch ∈ s.channels, ch.cmdPort = [] := fun h => ch.cmdPort_ne_nil_of_enabled hen (h ch hch)
    have hnotWaiting : ¬ ∀ ch ∈ s.channels, ch.enabled = false := fun h => by simp [h ch hch] at hen
    rw [ht]
    exact ⟨⟨fun _ => ⟨ch, hch, hen⟩, fun _ => ⟨t, rfl⟩⟩, ⟨nofun, (absurd · hnotIdle)⟩,
      ⟨nofun, fun h => absurd h.1 hnotWaiting⟩, nofun⟩
  · have hnone : ¬ ∃ ch ∈ s.channels, ch.enabled = true := fun ⟨ch, hch, hen⟩ =>
      ch.cmdPort_ne_nil_of_enabled hen (hports ch hch)
    rw [hstep]
    exact ⟨⟨nofun, (absurd · hnone)⟩, ⟨fun _ => hports, fun _ => rfl⟩,
      ⟨nofun, fun ⟨_, ch, hch, hne⟩ => absurd (hports ch hch) hne⟩, nofun⟩
  · have hnone : ¬ ∃ ch ∈ s.channels, ch.enabled = true := fun ⟨ch, hch, h⟩ => by simp [hen ch hch] at h
    rw [hstep]
    exact ⟨⟨nofun, (absurd · hnone)⟩, ⟨nofun, fun h => absurd (h ch hch) hne⟩,
      ⟨fun _ => ⟨hen, ch, hch, hne⟩, fun _ => rfl⟩, nofun⟩

end Sys2Proof.Machine
end

section
/-! A well-formed command's words decode to it: the decoder finds the fields where the encoder put them. -/

namespace Sys2Proof.Laws

theorem headerSelectsRow (i : Instr) : HeaderSelectsRow.Statement i := by
  cases i with
  | sampleRate tag rate => exact HeaderSelectsRow.sampleRate tag rate
  | iqBlock tag ts xi xq => exact HeaderSelectsRow.iqBlock tag ts xi xq
  | reset tag => exact HeaderSelectsRow.reset tag
  | getStatus tag => exact HeaderSelectsRow.getStatus tag
  | getThreshold tag => exact HeaderSelectsRow.getThreshold tag
  | setThreshold tag v => exact HeaderSelectsRow.setThreshold tag v
  | getAutotrack tag => exact HeaderSelectsRow.getAutotrack tag
  | setAutotrack tag b => exact HeaderSelectsRow.setAutotrack tag b
  | getHystOpen tag => exact HeaderSelectsRow.getHystOpen tag
  | setHystOpen tag v => exact HeaderSelectsRow.setHystOpen tag v
  | getHystClose tag => exact HeaderSelectsRow.getHystClose tag
  | setHystClose tag v => exact HeaderSelectsRow.setHystClose tag v
  | setOverride tag b => exact HeaderSelectsRow.setOverride tag b
  | getGain tag => exact HeaderSelectsRow.getGain tag
  | setGain tag v => exact HeaderSelectsRow.setGain tag v
  | calWrite tag code => exact HeaderSelectsRow.calWrite tag code
  | calRead tag => exact HeaderSelectsRow.calRead tag
  | implRequest tag code => exact HeaderSelectsRow.implRequest tag code
  | reply tag st rop => exact HeaderSelectsRow.reply tag st rop
  | lifecycle agc ev => exact HeaderSelectsRow.lifecycle agc ev
  | audio len => exact HeaderSelectsRow.audio len
  | tone rep lost id => exact HeaderSelectsRow.tone rep lost id
  | fault tag code => exact HeaderSelectsRow.fault tag code

end Sys2Proof.Laws

namespace Sys2Proof

theorem bitOf_header_ofBool (a tag : Byte) (b : Bool) : bitOf (header a tag (0#15 ++ BitVec.ofBool b)) = b := by
  rw [bitOf_header]
  cases b <;> rfl

theorem lifecycleTag_fields (agc : Bool) (ev : BitVec 2) :
    (0#5 ++ BitVec.ofBool agc ++ ev : Byte).getLsbD 2 = agc ∧
      (0#5 ++ BitVec.ofBool agc ++ ev : Byte).extractLsb' 0 2 = ev := by
  revert ev; cases agc <;> decide

theorem toneTag_fields (rep lost : Bool) :
    (0#6 ++ BitVec.ofBool rep ++ BitVec.ofBool lost : Byte).getLsbD 1 = rep ∧
      (0#6 ++ BitVec.ofBool rep ++ BitVec.ofBool lost : Byte).getLsbD 0 = lost := by
  cases rep <;> cases lost <;> decide

/-- The encoding of a well-formed instruction is a header and a payload of the length the header announces, and they
stand for that instruction. -/
theorem encode_eq_cons (i : Instr) (hwf : i.WellFormed) :
    ∃ w p, encode i = w :: p ∧ p.length = payloadWords (rowOf i) w ∧ assemble (rowOf i) w p = i := by
  cases i with
  | reset | getStatus | getThreshold | getAutotrack | getHystOpen | getHystClose | getGain | calRead =>
    exact ⟨_, [], rfl, rfl, by simp [rowOf, assemble, commandHeader_eq]⟩
  | sampleRate tag v | setThreshold tag v | setHystOpen tag v | setHystClose tag v | setGain tag v =>
    exact ⟨_, [v], rfl, rfl, by simp [rowOf, assemble, commandHeader_eq, payloadWord]⟩
  | setAutotrack tag b | setOverride tag b =>
    exact ⟨_, [], rfl, rfl, by simp only [rowOf, assemble, commandHeader_eq, tagOf_header, bitOf_header_ofBool]⟩
  | calWrite tag code | implRequest tag code =>
    exact ⟨_, [], rfl, rfl, by simp [rowOf, assemble, commandHeader_eq, twoBytes_low]⟩
  | iqBlock tag ts xi xq =>
    simp only [Instr.WellFormed, Instr.wellFormed, Bool.and_eq_true, decide_eq_true_eq] at hwf
    obtain ⟨hsame, hfits⟩ := hwf
    have hlen : (BitVec.ofNat 16 xi.length).toNat = xi.length := by simpa using Nat.mod_eq_of_lt hfits
    refine ⟨_, ts :: (xi ++ xq), rfl, ?_, ?_⟩
    · simp [rowOf, payloadWords, commandHeader_eq, hlen]
      omega
    · simp [rowOf, assemble, commandHeader_eq, hlen, payloadWord, Nat.add_comm 1, ← hsame]
  | reply tag st rop =>
    exact ⟨_, [], rfl, rfl, by simp [rowOf, assemble, replyHeader_eq, twoBytes_low, twoBytes_high]⟩
  | lifecycle agc ev =>
    obtain ⟨hagc, hev⟩ := lifecycleTag_fields agc ev
    exact ⟨_, [], rfl, rfl, by
      simp only [rowOf, assemble, lifecycleHeader_eq, bit18_header, tagBits_header, hagc, hev]⟩
  | audio => exact ⟨_, [], rfl, rfl, by simp [rowOf, assemble, audioHeader_eq]⟩
  | tone rep lost id =>
    obtain ⟨hrep, hlost⟩ := toneTag_fields rep lost
    exact ⟨_, [], rfl, rfl, by
      simp only [rowOf, assemble, toneHeader_eq, bit17_header, bit16_header, argOf_header, hrep, hlost]⟩
  | fault => exact ⟨_, [], rfl, rfl, by simp [rowOf, assemble, faultHeader_eq]⟩

/-- A well-formed instruction's words, with any words after them, decode to it. -/
theorem decode_encode (i : Instr) (rest : List Word) (hwf : i.WellFormed) :
    decode (encode i ++ rest) = .instr i rest := by
  obtain ⟨w, p, henc, hlen, hasm⟩ := encode_eq_cons i hwf
  have hrow : opcodeOf w = some (rowOf i) := by
    simpa [Laws.HeaderSelectsRow.Statement, henc] using Laws.headerSelectsRow i
  rw [henc, List.cons_append, decode_cons w (rowOf i) p rest hrow hlen, hasm]

end Sys2Proof
end

section
/-! O12: no command reads the command port, every command only adds to the message port, and a channel alone keeps its
turn; so its port is executed in order. -/

namespace Sys2Proof.Machine

/-! ### No command reads the command port -/

/-- The channel with other words in its command port. -/
def Channel.withPort (ch : Channel) (ws : List Word) : Channel := { ch with cmdPort := ws }

theorem State.consume_eq_withPort (s : State) (ws : List Word) :
    s.consume ws = s.onActive (fun ch => ch.withPort ws) := rfl

theorem Channel.withPort_ite (p : Prop) [Decidable p] (a b : Channel) (ws : List Word) :
    (if p then a else b).withPort ws = if p then a.withPort ws else b.withPort ws :=
  apply_ite (fun ch => ch.withPort ws) p a b

section WithPort

variable (c : Cfg) (ch : Channel) (ws : List Word)

theorem trackFloor_withPort (p : F) : trackFloor c p (ch.withPort ws) = (trackFloor c p ch).withPort ws := by
  simp only [trackFloor, Channel.withPort_ite]
  rfl

theorem squelchEval_withPort (a : List F) : squelchEval c a (ch.withPort ws) = (squelchEval c a ch).withPort ws := by
  simp only [squelchEval, trackFloor_withPort]
  rfl

theorem squelchStage_withPort (a : List F) : squelchStage c a (ch.withPort ws) = (squelchStage c a ch).withPort ws := by
  by_cases h : a = []
  · subst h; rfl
  · rw [squelchStage_eval c a _ h, squelchStage_eval c a _ h]
    exact squelchEval_withPort c { ch with squelch := ch.squelch.clearChanged } ws a

theorem audioStage_withPort (a : List F) (ts : Word) :
    audioStage c a ts (ch.withPort ws) = (audioStage c a ts ch).withPort ws := by
  simp only [audioStage, Channel.withPort]
  split <;> rfl

theorem runBlock_withPort (cid ts : Word) (i q : List F) :
    runBlock c cid ts i q (ch.withPort ws) = (runBlock c cid ts i q ch).withPort ws := by
  have hfront : frontEnd c (ch.withPort ws) i q = ((frontEnd c ch i q).1, (frontEnd c ch i q).2.withPort ws) := rfl
  have hlife (ch' : Channel) : lifecycleStage cid ts (ch'.withPort ws) = (lifecycleStage cid ts ch').withPort ws := rfl
  have htone (a : List F) (ch' : Channel) :
      toneProcess c a ts (ch'.withPort ws) = (toneProcess c a ts ch').withPort ws := rfl
  simp only [runBlock, hfront, squelchStage_withPort, hlife, audioStage_withPort, htone]

theorem channelEffect_withPort (num : Nat) (cal : Byte) (i : Instr) :
    channelEffect c num cal i (ch.withPort ws) = (channelEffect c num cal i ch).withPort ws := by
  cases i with
  | sampleRate tag rate =>
    simp only [channelEffect, sampleRate]
    split
    · rfl
    · split
      · rfl
      · split <;> rfl
  | iqBlock tag ts xi xq =>
    simp only [channelEffect, iqBlock, runBlock_withPort, Channel.withPort_ite]
    rfl
  | implRequest tag code =>
    simp only [channelEffect, implRequest]
    split <;> rfl
  | calWrite tag code =>
    simp only [channelEffect]
    split
    · rfl
    · split <;> rfl
  | _ => rfl

end WithPort

/-- A command runs the same whatever stands in the acting channel's command port. -/
theorem exec_consume (i : Instr) (s t : State) (ws : List Word) (h : exec i s = .next t) :
    exec i (s.consume ws) = .next (t.consume ws) := by
  rw [exec_eq] at h
  cases h
  rw [exec_eq]
  simp only [State.consume_eq_withPort, State.onActive, State.activeNum, channelEffect_withPort]

/-! ### Every command only adds to the message port -/

theorem channelEffect_msgPort_prefix (c : Cfg) (num : Nat) (cal : Byte) (i : Instr) (ch : Channel) :
    ch.msgPort <+: (channelEffect c num cal i ch).msgPort := by
  cases i with
  | sampleRate tag rate =>
    rcases sampleRate_cases c num cal tag rate ch with ⟨code, info, h⟩ | ⟨taps, -, -, -, h⟩
    · simp [channelEffect, h]
    · simp [channelEffect, h]
  | iqBlock tag ts xi xq =>
    rcases iqBlock_cases c num tag ts xi xq ch with ⟨-, h⟩ | ⟨-, -, h⟩ | ⟨-, -, -, h⟩ | ⟨-, -, -, h⟩
    · simp [channelEffect, h]
    · simp [channelEffect, h]
    · simp [channelEffect, h]
    · simp [channelEffect, h, runBlock_msgPort]
  | reset tag => exact List.prefix_rfl
  | implRequest tag code =>
    simp only [channelEffect, implRequest]
    split <;> exact List.prefix_append _ _
  | calWrite tag code =>
    simp only [channelEffect]
    split
    · exact List.prefix_append _ _
    · split <;> exact List.prefix_append _ _
  | _ => exact List.prefix_append _ _

/-- A list of commands runs to its end, and only adds to the message port. -/
theorem execAll_next (is : List Instr) (s : State) :
    ∃ t, execAll is s = .next t ∧ s.active.msgPort <+: t.active.msgPort := by
  induction is generalizing s with
  | nil => exact ⟨s, rfl, List.prefix_rfl⟩
  | cons i is ih =>
    rw [execAll, exec_eq]
    obtain ⟨t, ht, hmsg⟩ := ih { s with active := channelEffect Config.cfg s.activeNum s.calSel i s.active,
                                        calSel := calAfter Config.cfg s.calSel i }
    exact ⟨t, ht, (channelEffect_msgPort_prefix Config.cfg s.activeNum s.calSel i s.active).trans hmsg⟩

/-! ### The port in order -/

/-- A channel alone, with a well-formed command at the front of its port, executes it and leaves the rest of the
port. -/
theorem step_of_single (i : Instr) (rest : List Word) (s : State) (hwf : i.WellFormed) (hl : s.left = [])
    (hr : s.right = []) (hport : s.active.cmdPort = encode i ++ rest) :
    ∃ t, step s = .next t ∧ exec i (s.consume rest) = .next t ∧ t.left = [] ∧ t.right = [] ∧
      t.active.cmdPort = rest := by
  have hdec : decode s.active.cmdPort = .instr i rest := by rw [hport, decode_encode i rest hwf]
  refine ⟨_, ?_, exec_eq i (s.consume rest), hl, hr, channelEffect_cmdPort _ _ _ _ _⟩
  rw [step_of_decode_instr s i rest hdec, exec_eq, afterCommand, State.reschedule_single]
  · exact hl
  · exact hr

/-- As many steps of a channel alone as its port has commands are those commands one after the other. -/
theorem stepMany_eq_execAll (is : List Instr) (rest : List Word) (s : State) (hwf : ∀ i ∈ is, i.WellFormed)
    (hl : s.left = []) (hr : s.right = []) (hport : s.active.cmdPort = is.flatMap encode ++ rest) :
    stepMany is.length s = execAll is (s.consume rest) := by
  induction is generalizing s with
  | nil =>
    have hrest : rest = s.active.cmdPort := hport.symm
    rw [hrest]
    rfl
  | cons i is ih =>
    have hfront : s.active.cmdPort = encode i ++ (is.flatMap encode ++ rest) := by
      rw [hport, List.flatMap_cons, List.append_assoc]
    obtain ⟨t, hstep, hexec, htl, htr, htport⟩ :=
      step_of_single i (is.flatMap encode ++ rest) s (hwf i List.mem_cons_self) hl hr hfront
    have hrest : exec i (s.consume rest) = .next (t.consume rest) :=
      exec_consume i (s.consume (is.flatMap encode ++ rest)) t rest hexec
    calc stepMany (i :: is).length s = stepMany is.length t := by simp only [List.length_cons, stepMany, hstep]
      _ = execAll is (t.consume rest) := ih t (fun j hj => hwf j (List.mem_cons_of_mem i hj)) htl htr htport
      _ = execAll (i :: is) (s.consume rest) := by simp only [execAll, hrest]

/-- Settles O12: the steps are the commands' execution, which runs to its end and only adds messages. -/
theorem portOrderIsExecutionOrder : Obligations.PortOrderIsExecutionOrder := by
  intro is rest s hwf hl hr hport
  obtain ⟨t, hexec, new, hnew⟩ := execAll_next is (s.consume rest)
  exact ⟨t, (stepMany_eq_execAll is rest s hwf hl hr hport).trans hexec, hexec, new, hnew.symm⟩

end Sys2Proof.Machine
end

section
/-! O2, O3, O4: the decoder and the encoder agree, and later words do not change what a stream holds. -/

namespace Sys2Proof

/-- Settles O2: every header selects its own row, and every field stands where the decoder reads it. -/
theorem decodeOfEncodeIsTheInstruction : Obligations.DecodeOfEncodeIsTheInstruction :=
  fun i rest hwf => decode_encode i rest hwf

/-- Settles O3: the row's mask fixes every bit that no operand holds. -/
theorem decodedWordsAreTheEncoding : Obligations.DecodedWordsAreTheEncoding :=
  fun ws rest i h => ⟨Machine.decode_wellFormed ws rest i h, decode_instr_encode ws rest i h⟩

theorem rowOf_assemble (o : Opcode) (w : Word) (p : List Word) : rowOf (assemble o w p) = o := by
  cases o <;> rfl

theorem decode_append_of_instr (ws more rest : List Word) (i : Instr) (h : decode ws = .instr i rest) :
    decode (ws ++ more) = .instr i (rest ++ more) := by
  obtain ⟨w, o, p, rfl, ho, hp, rfl⟩ := decode_instr ws rest i h
  rw [List.cons_append, List.append_assoc, decode_cons w o p (rest ++ more) ho hp]

theorem decode_append_of_illegal (ws more rest : List Word) (w : Word) (h : decode ws = .illegal w rest) :
    decode (ws ++ more) = .illegal w (rest ++ more) := by
  obtain ⟨rfl, ho⟩ := (decode_illegal ws rest w).mp h
  exact (decode_illegal _ _ w).mpr ⟨rfl, ho⟩

/-- A channel that waits for `n` words waits for the others when fewer have come. -/
theorem decode_append_of_incomplete (ws more : List Word) (o : Opcode) (n : Nat) (h : decode ws = .incomplete o n)
    (hmore : more.length < n) : decode (ws ++ more) = .incomplete o (n - more.length) := by
  obtain ⟨w, tail, rfl, ho, -, rfl⟩ := (decode_incomplete ws o n).mp h
  exact (decode_incomplete _ o _).mpr ⟨w, tail ++ more, rfl, ho, by simp; omega, by simp; omega⟩

/-- A channel that waits for `n` words has a whole command of its row when they have come. -/
theorem decode_append_completes (ws more : List Word) (o : Opcode) (n : Nat) (h : decode ws = .incomplete o n)
    (hmore : more.length = n) : ∃ i, decode (ws ++ more) = .instr i [] ∧ rowOf i = o := by
  obtain ⟨w, tail, rfl, ho, hshort, rfl⟩ := (decode_incomplete ws o n).mp h
  have hwhole : (tail ++ more).length = payloadWords o w := by simp; omega
  exact ⟨_, by simpa using decode_cons w o (tail ++ more) [] ho hwhole, rowOf_assemble o w _⟩

/-- Settles O4, one kind of front of a stream after the other. -/
theorem framingIsStableUnderLaterWords : Obligations.FramingIsStableUnderLaterWords := by
  refine ⟨decode_append_of_instr, decode_append_of_illegal, fun ws more o n h => ⟨?waits, ?_, ?_⟩⟩
  case waits =>
    obtain ⟨w, tail, -, -, hshort, rfl⟩ := (decode_incomplete ws o n).mp h
    omega
  · exact decode_append_of_incomplete ws more o n h
  · exact decode_append_completes ws more o n h

end Sys2Proof
end

section
/-! O5, O47: every header that is no command takes ILLEGAL_COMMAND, whether it has a constructor of its own or not. -/

namespace Sys2Proof.Machine

/-- What ILLEGAL_COMMAND writes: bit 4 of `FSTAT` and one FAULT. -/
theorem State.takeIllegal_eq (s : State) (w : Word) :
    s.takeIllegal w = { s with
      active :=
        { s.active with
          fstat := s.active.fstat ||| 0x10#8
          msgPort := s.active.msgPort ++ [0x8F#8 ++ tagOf w ++ 5#16, w] } } := rfl

theorem payloadWords_of_messageRow (o : Opcode) (w : Word) (hmsg : 0x80 ≤ o.code.toNat) : payloadWords o w = 0 := by
  cases o with
  | reply | lifecycle | audio | tone | fault => rfl
  | _ => exact absurd hmsg (by decide)

/-- A word that selects a message row takes ILLEGAL_COMMAND itself: no bit of it is lost in the constructor. -/
theorem exec_assemble_of_messageRow (o : Opcode) (w : Word) (s : State) (ho : opcodeOf w = some o)
    (hmsg : 0x80 ≤ o.code.toNat) : exec (assemble o w []) s = .next (s.takeIllegal w) := by
  have henc := encode_assemble o w [] ho (payloadWords_of_messageRow o w hmsg).symm
  cases o with
  | reply | lifecycle | audio | tone | fault =>
    have hheader := List.head_eq_of_cons_eq henc
    exact congrArg (fun v => Host.Outcome.next (s.takeIllegal v)) hheader
  | _ => exact absurd hmsg (by decide)

theorem step_of_decode_illegal (s : State) (w : Word) (rest : List Word)
    (h : decode s.active.cmdPort = .illegal w rest) :
    step s = .next (((s.consume rest).takeIllegal w).reschedule Config.cfg) := by
  have hturn : s.settle = some s := s.settle_enabled (by simp [Channel.enabled, h])
  simp only [step, fetch, hturn, h, afterCommand]

/-- A header at the front of the acting channel's port that satisfies no command row is consumed alone and takes
ILLEGAL_COMMAND. -/
theorem step_of_noCommandRow (s : State) (w : Word) (rest : List Word) (hport : s.active.cmdPort = w :: rest)
    (hno : ∀ o : Opcode, o.code.toNat < 0x80 → w &&& o.mask ≠ o.pattern) :
    step s = .next (((s.consume rest).takeIllegal w).reschedule Config.cfg) := by
  cases ho : opcodeOf w with
  | none => exact step_of_decode_illegal s w rest ((decode_illegal _ _ w).mpr ⟨hport, ho⟩)
  | some o =>
    have hmsg : 0x80 ≤ o.code.toNat := by
      refine Nat.le_of_not_lt fun hlt => hno o hlt ?_
      simpa [Opcode.matchesWord] using (opcodeOf_eq_some o w).mp ho
    have hdec : decode s.active.cmdPort = .instr (assemble o w []) rest := by
      rw [hport]
      exact decode_cons w o [] rest ho (payloadWords_of_messageRow o w hmsg).symm
    rw [step_of_decode_instr s _ rest hdec, exec_assemble_of_messageRow o w _ ho hmsg, afterCommand]

/-- Settles O5, by the header's row: none, or a message row. -/
theorem otherHeadersTakeIllegalCommand : Obligations.OtherHeadersTakeIllegalCommand :=
  fun s w rest hport hno => step_of_noCommandRow s w rest hport hno

theorem tagOf_lifecycleHeader (agc : Bool) (ev : BitVec 2) :
    tagOf (lifecycleHeader agc ev) = 0#5 ++ BitVec.ofBool agc ++ ev := by
  rw [lifecycleHeader_eq, tagOf_header]

theorem tagOf_audioHeader (len : BitVec 16) : tagOf (audioHeader len) = 0#8 := by
  rw [audioHeader_eq, tagOf_header]

theorem tagOf_toneHeader (rep lost : Bool) (id : BitVec 16) :
    tagOf (toneHeader rep lost id) = 0#6 ++ BitVec.ofBool rep ++ BitVec.ofBool lost := by
  rw [toneHeader_eq, tagOf_header]

theorem ofBool_eq_ite (b : Bool) : BitVec.ofBool b = if b then 1#1 else 0#1 := by cases b <;> rfl

/-- Settles O47: each of the five takes ILLEGAL_COMMAND with its own header, whose tag field is known. -/
theorem messageHeadersAreIllegalCommands : Obligations.MessageHeadersAreIllegalCommands := by
  intro tag st rop agc rep lost ev w16 s illegal agcBit repBit lostBit
  have htake (w : Word) (t : Byte) (ht : tagOf w = t) : s.takeIllegal w = illegal t w := ht ▸ s.takeIllegal_eq w
  have hagc : BitVec.ofBool agc = agcBit := ofBool_eq_ite agc
  have hrep : BitVec.ofBool rep = repBit := ofBool_eq_ite rep
  have hlost : BitVec.ofBool lost = lostBit := ofBool_eq_ite lost
  rw [← hagc, ← hrep, ← hlost]
  exact ⟨congrArg Host.Outcome.next (htake _ _ (tagOf_replyHeader tag st rop)),
    congrArg Host.Outcome.next (htake _ _ (tagOf_lifecycleHeader agc ev)),
    congrArg Host.Outcome.next (htake _ _ (tagOf_audioHeader w16)),
    congrArg Host.Outcome.next (htake _ _ (tagOf_toneHeader rep lost w16)),
    congrArg Host.Outcome.next (htake _ _ (tagOf_faultHeader tag w16))⟩

end Sys2Proof.Machine
end

section
/-! O1, O6, O7: the words of messages. -/

namespace Sys2Proof.Machine

theorem LcEvent.ofBits_bits (ev : LcEvent) : LcEvent.ofBits ev.bits = ev := by cases ev <;> rfl

theorem FaultCode.ofNumber_number (code : FaultCode) : FaultCode.ofNumber code.number = some code := by
  cases code <;> rfl

theorem FaultCode.toNat_ofNat_number (code : FaultCode) : (BitVec.ofNat 16 code.number).toNat = code.number := by
  cases code <;> rfl

section Parse

variable (tag : Byte) (rest : List Word)

theorem parseMessage_reply (st : ReplyStatus) (rop : Byte) (value : Word) :
    parseMessage ((Message.reply tag st rop value).words ++ rest) = some (.reply tag st rop value, rest) := by
  have hrow : opcodeOf (replyHeader tag st.bits rop) = some .reply := Laws.HeaderSelectsRow.reply tag st.bits rop
  simp only [Message.words, List.cons_append, List.nil_append, parseMessage, hrow]
  cases st <;> simp [replyHeader_eq, twoBytes_high, twoBytes_low, ReplyStatus.bits]

theorem parseMessage_lifecycle (ev : LcEvent) (agc : Bool) (channelId ts : Word) :
    parseMessage ((Message.lifecycle ev agc channelId ts).words ++ rest)
      = some (.lifecycle ev agc channelId ts, rest) := by
  have hrow : opcodeOf (lifecycleHeader agc ev.bits) = some .lifecycle := Laws.HeaderSelectsRow.lifecycle agc ev.bits
  obtain ⟨hagc, hev⟩ := lifecycleTag_fields agc ev.bits
  simp only [Message.words, List.cons_append, List.nil_append, parseMessage, hrow]
  simp only [lifecycleHeader_eq, bit18_header, tagBits_header, hagc, hev, ev.ofBits_bits]

theorem parseMessage_audio (ts : Word) (samples : List F) (hfits : samples.length ≤ 65535) :
    parseMessage ((Message.audio ts samples).words ++ rest) = some (.audio ts samples, rest) := by
  have hrow : opcodeOf (audioHeader (BitVec.ofNat 16 samples.length)) = some .audio := Laws.HeaderSelectsRow.audio _
  have hlen : (BitVec.ofNat 16 samples.length).toNat = samples.length := by
    simpa using Nat.mod_eq_of_lt (Nat.lt_succ_of_le hfits)
  simp only [Message.words, List.cons_append, parseMessage, hrow]
  simp [audioHeader_eq, hlen]

theorem parseMessage_tone (id : BitVec 16) (lost rep : Bool) (ts : Word) :
    parseMessage ((Message.tone id lost rep ts).words ++ rest) = some (.tone id lost rep ts, rest) := by
  have hrow : opcodeOf (toneHeader rep lost id) = some .tone := Laws.HeaderSelectsRow.tone rep lost id
  obtain ⟨hrep, hlost⟩ := toneTag_fields rep lost
  simp only [Message.words, List.cons_append, List.nil_append, parseMessage, hrow]
  simp only [toneHeader_eq, argOf_header, bit16_header, bit17_header, hrep, hlost]

theorem parseMessage_fault (code : FaultCode) (info : Word) :
    parseMessage ((Message.fault tag code info).words ++ rest) = some (.fault tag code info, rest) := by
  have hrow : opcodeOf (faultHeader tag (BitVec.ofNat 16 code.number)) = some .fault :=
    Laws.HeaderSelectsRow.fault tag _
  simp only [Message.words, List.cons_append, List.nil_append, parseMessage, hrow]
  simp only [faultHeader_eq, argOf_header, tagOf_header, code.toNat_ofNat_number, code.ofNumber_number]

end Parse

/-- Settles O6, one kind of message after the other. -/
theorem messageWordsParseBack : Obligations.MessageWordsParseBack := by
  intro m rest hfits
  cases m with
  | reply tag st rop value => exact parseMessage_reply tag rest st rop value
  | lifecycle ev agc channelId ts => exact parseMessage_lifecycle rest ev agc channelId ts
  | audio ts samples => exact parseMessage_audio rest ts samples (hfits ts samples rfl)
  | tone id lost rep ts => exact parseMessage_tone rest id lost rep ts
  | fault tag code info => exact parseMessage_fault tag rest code info

/-! ### The pieces of a block's samples -/

/-- The pieces are the whole list in order, none is empty or longer than `n`, and all but the last have `n` samples. -/
structure PiecesOf (n : Nat) (l : List F) (pieces : List (List F)) : Prop where
  flatten : pieces.flatten = l
  bounds : ∀ p ∈ pieces, 1 ≤ p.length ∧ p.length ≤ n
  full : ∀ p ∈ pieces.dropLast, p.length = n

theorem PiecesOf.nil (n : Nat) : PiecesOf n [] [] := ⟨rfl, by simp, by simp⟩

/-- A first piece of `n` samples, or of fewer when nothing is left behind it. -/
theorem PiecesOf.cons {n : Nat} {l : List F} {pieces : List (List F)} (hn : 0 < n) (hl : l ≠ [])
    (h : PiecesOf n (l.drop n) pieces) : PiecesOf n l (l.take n :: pieces) := by
  have hpos : 0 < l.length := List.length_pos_iff.mpr hl
  obtain ⟨hflat, hbounds, hfull⟩ := h
  refine ⟨by rw [List.flatten_cons, hflat, List.take_append_drop], ?bounds, ?full⟩
  case bounds =>
    rintro p (_ | ⟨_, hp⟩)
    · simp only [List.length_take]; omega
    · exact hbounds p hp
  case full =>
    cases pieces with
    | nil => simp
    | cons q qs =>
      have hmore : n < l.length := by
        have hq : 1 ≤ q.length := (hbounds q List.mem_cons_self).1
        have hrest := congrArg List.length hflat
        simp only [List.flatten_cons, List.length_append, List.length_drop] at hrest
        omega
      rintro p (_ | ⟨_, hp⟩)
      · simp only [List.length_take]; omega
      · exact hfull p hp

/-- As many turns as there are samples are enough, because every piece takes one at least. -/
theorem piecesOf_spec (fuel n : Nat) (l : List F) (hn : 0 < n) (hfuel : l.length ≤ fuel) :
    PiecesOf n l (piecesOf fuel n l) := by
  induction fuel generalizing l with
  | zero =>
    obtain rfl := List.length_eq_zero_iff.mp (Nat.le_zero.mp hfuel)
    exact .nil n
  | succ fuel ih =>
    rw [piecesOf]
    split
    case isTrue h => exact h ▸ .nil n
    case isFalse h => exact .cons hn h (ih (l.drop n) (by simp; omega))

/-- Settles O7, with the pieces the model cuts. -/
theorem audioIsSentInPieces : Obligations.AudioIsSentInPieces := by
  intro ts y
  obtain ⟨hflat, hbounds, hfull⟩ := piecesOf_spec y.length Config.maxLen y (by decide) le_rfl
  exact ⟨_, rfl, hflat, hbounds, hfull⟩

/-- Settles O1: the command rows are encodings, which decode back; the message rows are `Message.words` evaluated. -/
theorem workedEncodingsAgree : Obligations.WorkedEncodingsAgree :=
  ⟨decode_encode (.sampleRate 0#8 50000#32) [] rfl,
    decode_encode (.iqBlock 0#8 1000#32 [0x40400000#32, 0x00000000#32] [0x40800000#32, 0x3F800000#32]) [] rfl,
    decode_encode (.reset 0#8) [] rfl,
    decode_encode (.getStatus 7#8) [] rfl,
    decode_encode (.setThreshold 1#8 0x41200000#32) [] rfl,
    decode_encode (.setHystClose 2#8 0x40C00000#32) [] rfl,
    decode_encode (.setAutotrack 3#8 true) [] rfl,
    decode_encode (.setOverride 0#8 true) [] rfl,
    decode_encode (.setGain 4#8 0x40000000#32) [] rfl,
    decode_encode (.calWrite 5#8 4#8) [] rfl,
    decode_encode (.implRequest 0#8 1#8) [] rfl,
    (decode_illegal _ _ _).mpr ⟨rfl, by decide⟩,
    rfl, rfl, rfl, rfl, rfl, rfl⟩

end Sys2Proof.Machine
end

section
/-! O49: the messages a command sends, by whether it faults and whether it is a request. -/

namespace Sys2Proof.Machine

/-! ### The fault table and the commands -/

/-- SAMPLE_RATE takes the fault of the table, or commits the configuration of a rate for which the table has none. -/
theorem sampleRate_fault_cases (c : Cfg) (num : Nat) (cal tag : Byte) (rate : Word) (ch : Channel) :
    (∃ code info, sampleRateFault c (c.channelBw num) rate = some (code, info) ∧
      sampleRate c num cal tag rate ch = ch.takeFault code tag info) ∨
    (sampleRateFault c (c.channelBw num) rate = none ∧ ∃ cf, sampleRate c num cal tag rate ch = ch.rebuild c cf) := by
  have hzero : rate.toNat = 0 ↔ rate = 0#32 := BitVec.toNat_inj (y := 0#32)
  unfold sampleRate sampleRateFault
  simp only [feasible, Bool.not_eq_true', decide_eq_false_iff_not, Nat.not_le, hzero]
  split
  · exact .inl ⟨_, _, rfl, rfl⟩
  · split
    · exact .inl ⟨_, _, rfl, rfl⟩
    · split
      case isTrue hdes => exact .inl ⟨_, _, rfl, by rw [hdes]⟩
      case isFalse hdes =>
        obtain ⟨taps, htaps⟩ := Option.ne_none_iff_exists'.mp hdes
        exact .inr ⟨rfl, _, by rw [htaps]⟩

theorem laneOk_eq_false_iff (impl : Byte) (k : Nat) :
    laneOk impl k = false ↔ impl ≠ 1#8 ∧ k % impl.toNat ≠ 0 := by
  simp [laneOk]

/-- IQ_BLOCK takes the fault of the table, or runs its block when the table has none. -/
theorem iqBlock_fault_cases (c : Cfg) (num : Nat) (tag : Byte) (ts : Word) (xi xq : List F) (ch : Channel) :
    (∃ code info, iqBlockFault ch xi.length = some (code, info) ∧
      iqBlock c num tag ts xi xq ch = ch.takeFault code tag info) ∨
    (iqBlockFault ch xi.length = none ∧ iqBlock c num tag ts xi xq ch = runBlock c (c.channelId num) ts xi xq ch) := by
  unfold iqBlockFault
  simp only [← laneOk_eq_false_iff]
  rcases iqBlock_cases c num tag ts xi xq ch with ⟨h0, h⟩ | ⟨h0, hconf, h⟩ | ⟨h0, hconf, hlane, h⟩ |
    ⟨h0, hconf, hlane, h⟩
  · exact .inl ⟨_, _, by rw [if_pos h0], h⟩
  · exact .inl ⟨_, _, by rw [if_neg h0, if_pos hconf], h⟩
  · exact .inl ⟨_, _, by rw [if_neg h0, if_neg (by simp [hconf]), if_pos hlane], h⟩
  · exact .inr ⟨by rw [if_neg h0, if_neg (by simp [hconf]), if_neg (by simp [hlane])], h⟩

/-- A command for which the fault table has a fault takes that fault, and does nothing else to its channel. -/
theorem channelEffect_of_faultOf (c : Cfg) (s : State) (i : Instr) (code : FaultCode) (info : Word)
    (h : faultOf c s i = some (code, info)) :
    channelEffect c s.activeNum s.calSel i s.active = s.active.takeFault code (commandTag i) info := by
  cases i with
  | sampleRate tag rate =>
    rcases sampleRate_fault_cases c s.activeNum s.calSel tag rate s.active with ⟨code', info', hf, he⟩ | ⟨hf, -⟩
    · cases hf.symm.trans h
      exact he
    · cases hf.symm.trans h
  | iqBlock tag ts xi xq =>
    rcases iqBlock_fault_cases c s.activeNum tag ts xi xq s.active with ⟨code', info', hf, he⟩ | ⟨hf, -⟩
    · cases hf.symm.trans h
      exact he
    · cases hf.symm.trans h
  | calWrite tag code' =>
    cases hok : calCodeOk c code' with
    | true => simp [faultOf, hok] at h
    | false =>
      simp only [faultOf, hok, Bool.false_eq_true, if_false] at h
      cases h
      simp [channelEffect, hok, commandTag]
  | implRequest tag code' =>
    cases hok : implCodeOk c code' with
    | true => simp [faultOf, hok] at h
    | false =>
      simp only [faultOf, hok, Bool.false_eq_true, if_false] at h
      cases h
      simp [channelEffect, implRequest, hok, commandTag]
  | reply | lifecycle | audio | tone | fault => cases h; rfl
  | _ => cases h

/-! ### Commands that do not fault -/

/-- A request that does not fault sends one REPLY with its tag and opcode. -/
theorem channelEffect_msgPort_of_request (c : Cfg) (s : State) (i : Instr) (h : faultOf c s i = none)
    (hreq : isRequest i = true) :
    ∃ st value, (channelEffect c s.activeNum s.calSel i s.active).msgPort
      = s.active.msgPort ++ (Message.reply (commandTag i) st (rowOf i).code value).words := by
  cases i with
  | calWrite tag code =>
    have hok : calCodeOk c code = true := by simpa [faultOf] using h
    by_cases h0 : s.calSel = 0#8
    · refine ⟨.ok, byteWord code, ?_⟩
      simp [channelEffect, hok, h0, Message.words, commandTag, rowOf, ReplyStatus.bits]
    · refine ⟨.lost, byteWord s.calSel, ?_⟩
      simp [channelEffect, hok, h0, Message.words, commandTag, rowOf]
  | implRequest tag code =>
    have hok : implCodeOk c code = true := by simpa [faultOf] using h
    refine ⟨.ok, byteWord code, ?_⟩
    simp [channelEffect, implRequest, hok, Message.words, commandTag, rowOf, ReplyStatus.bits]
  | sampleRate | iqBlock | reset | reply | lifecycle | audio | tone | fault => cases hreq
  | _ => exact ⟨.ok, _, rfl⟩

/-- A message that is neither a REPLY nor a FAULT. -/
def Message.Unasked (m : Message) : Prop := m.isReply = false ∧ m.isFault = false

theorem audioOf_unasked (c : Cfg) (cf : ActiveConfig) (a : List F) (ts : Word) (r : Resampler) (sq : SqState) :
    ∀ m ∈ audioOf c cf a ts r sq, m.Unasked := by
  intro m hm
  cases sq with
  | muted => cases hm
  | unmuted =>
    obtain ⟨p, -, rfl⟩ := List.mem_map.mp hm
    exact ⟨rfl, rfl⟩

theorem promotionMessages_unasked (old : Option Nat) (t : Nat) (ts : Word) :
    ∀ m ∈ promotionMessages old t ts, m.Unasked := by
  cases old <;> simp [promotionMessages, Message.Unasked, Message.isReply, Message.isFault]

theorem toneFsm_unasked (c : Cfg) (cand : Option Nat) (ts : Word) (d : ToneDecoder) :
    ∀ m ∈ (toneFsm c cand ts d).2, m.Unasked := by
  intro m hm
  rw [toneFsm] at hm
  rcases toneAct_cases c ts (toneCount cand d) with ⟨t, -, -, e⟩ | ⟨-, a, -, -, e⟩ | ⟨-, -, e⟩ <;> rw [e] at hm
  · exact promotionMessages_unasked _ t ts m hm
  · exact List.mem_singleton.mp hm ▸ ⟨rfl, rfl⟩
  · cases hm

theorem toneTurn_unasked (c : Cfg) (cf : ActiveConfig) (ts : Word) (x : F) (d : ToneDecoder) :
    ∀ m ∈ (toneTurn c cf ts x d).2, m.Unasked := by
  intro m hm
  simp only [toneTurn] at hm
  split at hm
  · exact toneFsm_unasked _ _ _ _ m hm
  · cases hm

theorem toneSamples_unasked (c : Cfg) (cf : ActiveConfig) (ts : Word) (a : List F) (d : ToneDecoder) :
    ∀ m ∈ (toneSamples c cf ts a d).2, m.Unasked := by
  induction a generalizing d with
  | nil => exact fun m hm => nomatch hm
  | cons x xs ih =>
    intro m hm
    rcases List.mem_append.mp hm with hm | hm
    · exact toneTurn_unasked c cf ts x d m hm
    · exact ih _ m hm

theorem toneRun_unasked (c : Cfg) (cf : ActiveConfig) (ts : Word) (a : List F) (d : ToneDecoder) :
    ∀ m ∈ (toneRun c cf ts a d).2, m.Unasked := by
  intro m hm
  rcases List.mem_append.mp hm with hm | hm
  · exact toneSamples_unasked c cf ts a d m hm
  · rcases toneRebroadcast_cases c ts (toneSamples c cf ts a d).1 with ⟨t, -, -, e⟩ | ⟨-, e⟩ <;> rw [e] at hm
    · exact List.mem_singleton.mp hm ▸ ⟨rfl, rfl⟩
    · cases hm

/-- A block sends its LIFECYCLE, AUDIO and TONE messages only. -/
theorem runBlock_msgPort_unasked (c : Cfg) (cid ts : Word) (xi xq : List F) (ch : Channel) :
    ∃ ms, (runBlock c cid ts xi xq ch).msgPort = ch.msgPort ++ messageWords ms ∧ ∀ m ∈ ms, m.Unasked := by
  refine ⟨_, runBlock_msgPort c cid ts xi xq ch, fun m hm => ?_⟩
  rcases List.mem_cons.mp hm with rfl | hm
  · exact ⟨rfl, rfl⟩
  · rcases List.mem_append.mp hm with hm | hm
    · exact audioOf_unasked _ _ _ _ _ _ m hm
    · exact toneRun_unasked _ _ _ _ _ m hm

/-- A command that neither faults nor is a request sends no REPLY and no FAULT. -/
theorem channelEffect_msgPort_unasked (c : Cfg) (s : State) (i : Instr) (h : faultOf c s i = none)
    (hreq : isRequest i = false) :
    ∃ ms, (channelEffect c s.activeNum s.calSel i s.active).msgPort = s.active.msgPort ++ messageWords ms ∧
      ∀ m ∈ ms, m.Unasked := by
  cases i with
  | sampleRate tag rate =>
    rcases sampleRate_fault_cases c s.activeNum s.calSel tag rate s.active with ⟨_, _, hf, -⟩ | ⟨-, cf, he⟩
    · cases hf.symm.trans h
    · exact ⟨[], by simp [channelEffect, he], nofun⟩
  | iqBlock tag ts xi xq =>
    rcases iqBlock_fault_cases c s.activeNum tag ts xi xq s.active with ⟨code, info, hf, -⟩ | ⟨-, he⟩
    · cases hf.symm.trans h
    · simpa only [channelEffect, he] using runBlock_msgPort_unasked c (c.channelId s.activeNum) ts xi xq s.active
  | reset tag => exact ⟨[], by simp [channelEffect], nofun⟩
  | reply | lifecycle | audio | tone | fault => cases h
  | _ => cases hreq

/-- Settles O49: a command faults, or answers a request, or does neither. -/
theorem everyRequestIsAnsweredOnce : Obligations.EveryRequestIsAnsweredOnce := by
  intro i s t h
  rw [exec_eq] at h
  cases h
  cases hf : faultOf Config.cfg s i with
  | some f =>
    obtain ⟨code, info⟩ := f
    refine ⟨[.fault (commandTag i) code info], ?_, fun code' info' e => by cases e; rfl, nofun, nofun⟩
    simp only [channelEffect_of_faultOf _ s i code info hf, Channel.takeFault_msgPort, messageWords_singleton]
    rfl
  | none =>
    cases hreq : isRequest i with
    | true =>
      obtain ⟨st, value, hmsg⟩ := channelEffect_msgPort_of_request _ s i hf hreq
      exact ⟨[.reply (commandTag i) st (rowOf i).code value], by simpa using hmsg, nofun,
        fun _ _ => ⟨st, value, rfl⟩, nofun⟩
    | false =>
      obtain ⟨ms, hmsg, hunasked⟩ := channelEffect_msgPort_unasked _ s i hf hreq
      exact ⟨ms, hmsg, nofun, nofun, fun _ _ => hunasked⟩

end Sys2Proof.Machine
end

section
/-! O22, O24: the decimation factor and the resampling ratio, as numbers (40_configuration.md R125, R128). -/

namespace Sys2Proof.Machine

/-! ### The decimation factor -/

/-- Every doubling was guarded, so a factor that was doubled keeps the decimated rate at twice the bandwidth. -/
theorem decimLoop_eq_or_le (fuel fs bw d : Nat) :
    decimLoop fuel fs bw d = d ∨ 2 * bw * decimLoop fuel fs bw d ≤ fs := by
  induction fuel generalizing d with
  | zero => exact .inl rfl
  | succ fuel ih =>
    rw [decimLoop_succ]
    split
    case isTrue hguard =>
      refine .inr ?_
      rcases ih (2 * d) with h | h
      · rw [h]
        calc 2 * bw * (2 * d) = 4 * bw * d := by ring
          _ ≤ fs := hguard
      · exact h
    case isFalse => exact .inl rfl

theorem decimFactor_eq_one_or_le (fs bw : Nat) : decimFactor fs bw = 1 ∨ 2 * bw * decimFactor fs bw ≤ fs :=
  decimLoop_eq_or_le 32 fs bw 1

/-- The guard of R125 fails at the factor, for a rate given as a number. -/
theorem lt_four_mul_decimFactor (fs bw : Nat) (hfs : fs < 2 ^ 32) (hbw : 0 < bw) :
    fs < 4 * bw * decimFactor fs bw := by
  have h := lt_decimFactor (BitVec.ofNat 32 fs) ⟨bw, hbw⟩
  rwa [BitVec.toNat_ofNat, Nat.mod_eq_of_lt hfs] at h

/-- R126: a rate is feasible exactly from twice the bandwidth on. -/
theorem bandwidth_mul_decimFactor_le_iff (fs bw : Nat) : 2 * bw * decimFactor fs bw ≤ fs ↔ 2 * bw ≤ fs := by
  constructor
  · exact fun h => (Nat.le_mul_of_pos_right _ (decimFactor_pos fs bw)).trans h
  · intro h
    rcases decimFactor_eq_one_or_le fs bw with hone | hle
    · rwa [hone, Nat.mul_one]
    · exact hle

/-- Settles O22: the factor is 1 or passed the guard of the turn before, and its own guard fails. -/
theorem decimationFactorIsTheLargestPowerOfTwo : Obligations.DecimationFactorIsTheLargestPowerOfTwo := by
  intro fs bw hfs hbw
  have hguard := lt_four_mul_decimFactor fs bw hfs hbw
  have hkeeps := decimFactor_eq_one_or_le fs bw
  obtain ⟨n, hn⟩ := decimFactor_powerOfTwo fs bw
  refine ⟨⟨n, ?_, hn⟩, hguard, hkeeps, fun m hm => ?_⟩
  · rw [hn] at hkeeps
    rcases hkeeps with hone | hle
    · exact (Nat.pow_eq_one.mp hone).resolve_left (by omega) ▸ Nat.zero_le 30
    · have hpow : 2 ^ n < 2 ^ 31 := by
        have : 2 * 2 ^ n ≤ 2 * bw * 2 ^ n := Nat.mul_le_mul_right _ (by omega)
        omega
      exact Nat.le_of_lt_succ ((Nat.pow_lt_pow_iff_right one_lt_two).mp hpow)
  · rw [hn] at hguard ⊢
    have hlt : 2 * bw * 2 ^ m < 2 * bw * 2 ^ (n + 1) :=
      calc 2 * bw * 2 ^ m ≤ fs := hm
        _ < 4 * bw * 2 ^ n := hguard
        _ = 2 * bw * 2 ^ (n + 1) := by ring
    have hexp : m < n + 1 := (Nat.pow_lt_pow_iff_right one_lt_two).mp (Nat.lt_of_mul_lt_mul_left hlt)
    exact Nat.pow_le_pow_right two_pos (Nat.le_of_lt_succ hexp)

/-! ### The resampling ratio -/

/-- Settles O24: both numbers are divided by their greatest common divisor. -/
theorem resamplingRatioIsInLowestTerms : Obligations.ResamplingRatioIsInLowestTerms := by
  intro fs d hfs hd
  have hnum : 0 < 8000 * d := by omega
  have hgcd : 0 < Nat.gcd (8000 * d) fs := Nat.gcd_pos_of_pos_right _ hfs
  have hL : resampL fs d = 8000 * d / Nat.gcd (8000 * d) fs := rfl
  have hM : resampM fs d = fs / Nat.gcd (8000 * d) fs := rfl
  refine ⟨hL, hM, ?exact, ?coprime, ?posL, ?posM⟩
  case exact =>
    rw [hL, hM, ← Nat.mul_div_assoc _ (Nat.gcd_dvd_right ..), Nat.div_mul_right_comm (Nat.gcd_dvd_left ..)]
  case coprime => exact hL ▸ hM ▸ Nat.coprime_div_gcd_div_gcd hgcd
  case posL => exact hL ▸ Nat.div_pos (Nat.gcd_le_left _ hnum) hgcd
  case posM => exact hM ▸ Nat.div_pos (Nat.gcd_le_right _ hfs) hgcd

end Sys2Proof.Machine
end

section
/-! O21, O23: SAMPLE_RATE, one equation per branch of R130. -/

namespace Sys2Proof.Machine

section Branches

variable (c : Cfg) (num : Nat) (cal tag : Byte) (rate : Word) (ch : Channel)

theorem sampleRate_of_zero (h : rate.toNat = 0) :
    sampleRate c num cal tag rate ch = ch.takeFault .badArgument tag 0#32 := by
  simp [sampleRate, h]

theorem sampleRate_of_infeasible (h0 : rate.toNat ≠ 0)
    (h : rate.toNat < 2 * (c.channelBw num : Nat) * decimFactor rate.toNat (c.channelBw num)) :
    sampleRate c num cal tag rate ch = ch.takeFault .configRateInsufficient tag rate := by
  simp [sampleRate, feasible, h0, Nat.not_le.mpr h]

theorem sampleRate_of_undesigned (h0 : rate.toNat ≠ 0)
    (h : 2 * (c.channelBw num : Nat) * decimFactor rate.toNat (c.channelBw num) ≤ rate.toNat)
    (hd : design c (channelSpec c (c.channelBw num) rate.toNat (decimFactor rate.toNat (c.channelBw num))) = none) :
    sampleRate c num cal tag rate ch = ch.takeFault .configDesignFailed tag rate := by
  simp [sampleRate, feasible, h0, h, hd]

theorem sampleRate_of_accepted {taps : List F} (h : RateAccepted c num rate taps) :
    sampleRate c num cal tag rate ch =
      ch.rebuild c (committedConfig c num rate taps (resolveImpl ch.regs.implReq cal)) := by
  simp [sampleRate, committedConfig, h.positive, h.feasible, h.designed]

end Branches

/-- The design of R121 as a choice between its two paths. -/
theorem design_eq_ite (c : Cfg) (spec : FilterSpec) :
    design c spec =
      if c.equiripple spec ≠ none ∧ c.equiripple spec ≠ some [] then c.equiripple spec
      else if c.fallback (fallbackSpec spec) ≠ none ∧ c.fallback (fallbackSpec spec) ≠ some [] then
        c.fallback (fallbackSpec spec)
      else none := by
  rcases design_cases c spec with ⟨h, he⟩ | ⟨h, he, hf⟩ | ⟨h, he, hf⟩
  · rw [h, if_pos he]
  · rw [h, if_neg (by tauto), if_pos hf]
  · rw [h, if_neg (by tauto), if_neg (by tauto)]

/-- Settles O23: from twice the bandwidth on the rate is feasible, and below it is not. -/
theorem rateIsAcceptedFromTwiceTheBandwidth : Obligations.RateIsAcceptedFromTwiceTheBandwidth := by
  intro c num cal tag rate ch hrate
  have h0 : rate.toNat ≠ 0 := fun h => hrate (BitVec.eq_of_toNat_eq h)
  have hiff := bandwidth_mul_decimFactor_le_iff rate.toNat (c.channelBw num)
  constructor
  · intro hle hdesign
    obtain ⟨taps, htaps⟩ := Option.ne_none_iff_exists'.mp (hdesign (channelSpec c (c.channelBw num) rate.toNat
      (decimFactor rate.toNat (c.channelBw num))))
    have hacc : RateAccepted c num rate taps := ⟨h0, decide_eq_true (hiff.mpr hle), htaps⟩
    simp only [sampleRate_of_accepted c num cal tag rate ch hacc]
    exact ⟨rfl, rfl, decimFactor_powerOfTwo _ _, hacc.bandwidth_le, rfl⟩
  · intro hlt
    exact sampleRate_of_infeasible c num cal tag rate ch h0 (Nat.lt_of_not_le (fun h => absurd (hiff.mp h) (by omega)))

/-- Settles O21: each test of R130 has its equation, and the design is a choice between its two paths. -/
theorem sampleRateTestsThenCommits : Obligations.SampleRateTestsThenCommits := by
  intro tag rate s c ch fs bw d g rsTaps decTaps toneTaps equiripple fallback designed
  have hdesigned : design c (channelSpec c bw fs d) = designed := design_eq_ite c _
  refine ⟨rfl, ?_⟩
  have hexec : exec (.sampleRate tag rate) s =
      .next { s with active := sampleRate c s.activeNum s.calSel tag rate ch } := rfl
  rw [hexec]
  congr 2
  by_cases h0 : fs = 0
  · rw [if_pos h0, sampleRate_of_zero c _ _ tag rate ch h0]
    rfl
  rw [if_neg h0]
  by_cases hlt : fs < 2 * bw * d
  · rw [if_pos hlt, sampleRate_of_infeasible c _ _ tag rate ch h0 hlt]
    rfl
  rw [if_neg hlt]
  have hle : 2 * bw * d ≤ fs := Nat.le_of_not_lt hlt
  cases hd : designed with
  | none =>
    rw [sampleRate_of_undesigned c _ _ tag rate ch h0 hle (hdesigned.trans hd)]
    rfl
  | some taps =>
    have hacc : RateAccepted c s.activeNum rate taps := ⟨h0, decide_eq_true hle, hdesigned.trans hd⟩
    rw [sampleRate_of_accepted c _ _ tag rate ch hacc]
    rfl

end Sys2Proof.Machine
end

section
/-! O17, O18, O20: the implementation selection (40_configuration.md R133 to R135). -/

namespace Sys2Proof.Machine

/-- Settles O17: the reply is the one of R134, field for field. -/
theorem calReadRepliesWithCalSel : Obligations.CalReadRepliesWithCalSel := fun _ _ => ⟨rfl, rfl⟩

/-- A header whose argument is a code behind a zero byte, byte by byte (R94). -/
theorem commandHeader_code (o : Opcode) (tag code : Byte) :
    commandHeader o tag (0#8 ++ code) = o.code ++ tag ++ 0#8 ++ code :=
  (fourBytes_eq o.code tag 0#8 code).symm

/-- Settles O18, by the three branches of R133. -/
theorem calWriteComparesAndSets : Obligations.CalWriteComparesAndSets := by
  intro tag code s
  refine ⟨congrArg (· :: []) (commandHeader_code .calWrite tag code), ?_⟩
  have hexec : exec (.calWrite tag code) s = .next (calWrite Config.cfg tag code s) := rfl
  have hiff := calCodeOk_cfg_iff code
  rw [hexec, calWrite]
  cases hok : calCodeOk Config.cfg code with
  | false =>
    rw [if_pos (mt hiff.mpr (by simp [hok]))]
    rfl
  | true =>
    rw [if_neg (not_not.mpr (hiff.mp hok))]
    by_cases h0 : s.calSel = 0#8
    · rw [if_pos h0, if_pos h0]; rfl
    · rw [if_neg h0, if_neg h0]; rfl

theorem implCodeOk_cfg_iff (code : Byte) :
    implCodeOk Config.cfg code = true ↔ code = 0#8 ∨ code = 1#8 ∨ (2 ≤ code.toNat ∧ code.toNat ∈ Config.lanes) := by
  rw [← calCodeOk_cfg_iff]
  simp [implCodeOk, calCodeOk, or_assoc]

/-- Settles O20, by the two branches of R135. -/
theorem implRequestStoresTheCode : Obligations.ImplRequestStoresTheCode := by
  intro tag code s
  refine ⟨congrArg (· :: []) (commandHeader_code .implRequest tag code), ?_⟩
  have hexec : exec (.implRequest tag code) s =
      .next { s with active := implRequest Config.cfg tag code s.active } := rfl
  have hiff := implCodeOk_cfg_iff code
  rw [hexec, implRequest]
  cases hok : implCodeOk Config.cfg code with
  | false =>
    rw [if_neg (mt hiff.mpr (by simp [hok]))]
    rfl
  | true =>
    rw [if_pos (hiff.mp hok)]
    rfl

end Sys2Proof.Machine
end

section
/-! O26: the worked values of R137, R169, R244 and R265. -/

namespace Sys2Proof.Machine

/-- R265: 25 inputs at the ratio 4/25 give 4 outputs and bring the accumulator back to 0, whatever the samples are: the
balance `acc + 25 * 4 = 25 * n` with `acc < 25` has no other solution. -/
theorem resample_four_of_25_inputs (c : Cfg) (taps a dl : List F) (h : a.length = 25) :
    (resample c 4 25 taps a { dl := dl, acc := 0 }).1.length = 4 ∧
      (resample c 4 25 taps a { dl := dl, acc := 0 }).2.acc = 0 := by
  have hbalance := resample_balance c 4 25 taps (by omega) a { dl := dl, acc := 0 }
  have hlt := resample_acc_lt c 4 25 taps (by omega) a { dl := dl, acc := 0 } (by simp)
  simp only [h] at hbalance
  omega

/-- R137: just below twice the bandwidth no factor is feasible. -/
theorem sampleRate_insufficient_at_29999 (c : Cfg) (num : Nat) (cal tag : Byte) (ch : Channel) (hbw : c.channelBw num = 15000) :
    sampleRate c num cal tag 29999#32 ch = ch.takeFault .configRateInsufficient tag 29999#32 := by
  refine sampleRate_of_infeasible c num cal tag 29999#32 ch (by decide) ?_
  rw [hbw]
  decide

/-- Settles O26. An operation on finite operands answers the same in every configuration, and every operand of a row is
finite, so the rows that compute samples are carried over to one closed configuration and computed there. -/
theorem workedValuesAgree : Obligations.WorkedValuesAgree := by
  intro c
  refine ⟨?rates, by decide, ?decimateFirst, ?decimateNext, ?decimateByFour, fun _ _ _ => rfl, ?firOne, ?firThree,
    ?demodBlock, ?demodRoot, ?resampleOne, ?resampleTwoThirds, ?resampleTwo, ?resampleTwoNext, ?resampleHalf,
    resample_four_of_25_inputs c, ?goertzel, ?powers⟩
  case rates =>
    exact fun num cal tag ch hbw =>
      ⟨by decide, sampleRate_insufficient_at_29999 c num cal tag ch hbw, sampleRate_of_zero c num cal tag 0#32 ch rfl⟩
  case demodBlock | demodRoot =>
    simp (disch := decide +kernel) only [demod, magSquared, List.zipWith, fadd_finite c default,
      fmul_finite c default, fsqrt_finite c default]
    decide +kernel
  case decimateFirst | decimateNext | decimateByFour =>
    simp (disch := decide +kernel) only [decimate, decimateLoop, dot, push, List.replicate, List.length, List.take,
      List.zip, List.zipWith, List.foldl, Nat.reduceAdd, Nat.reduceEqDiff, ↓reduceIte, fadd_finite c default,
      fmul_finite c default]
    decide +kernel
  case firOne | firThree =>
    simp (disch := decide +kernel) only [fir, dot, push, List.length, List.take, List.zip, List.zipWith, List.foldl,
      fadd_finite c default, fmul_finite c default]
    decide +kernel
  case resampleOne | resampleTwoThirds | resampleTwo | resampleTwoNext | resampleHalf =>
    simp (disch := decide +kernel) only [resample, resampleTurns, phaseOutput, phaseLoop, push, List.length, List.take,
      Nat.reduceAdd, Nat.reduceMul, Nat.reduceSub, Nat.reduceLT, ↓reduceIte, fadd_finite c default,
      fmul_finite c default]
    decide +kernel
  case goertzel | powers =>
    simp (disch := decide +kernel) only [goertzelStep, goertzelNext, tonePowers, tonePower, List.foldl, List.zip,
      List.zipWith, fadd_finite c default, fsub_finite c default, fmul_finite c default]
    decide +kernel

end Sys2Proof.Machine
end

section
/-! O32: the decimator over a stream. Cutting the stream changes nothing, because the loop carries the delay line and
the remainder; each output is the dot product after the input that completes its group of `D`. -/

namespace Sys2Proof.Machine

/-! ### Equations of one call -/

theorem decimate_one (c : Cfg) (taps xs dl : List F) (r : Nat) : decimate c 1 taps xs dl r = (xs, dl, r) := if_pos rfl

theorem decimate_of_ne_one (c : Cfg) (d : Nat) (taps xs dl : List F) (r : Nat) (hd : d ≠ 1) :
    decimate c d taps xs dl r = decimateLoop c d taps xs dl r := if_neg hd

@[simp] theorem decimate_nil (c : Cfg) (d : Nat) (taps dl : List F) (r : Nat) :
    decimate c d taps [] dl r = ([], dl, r) := ite_self _

/-- The number of samples a call returns (R162). -/
theorem decimate_length (c : Cfg) (d : Nat) (taps xs dl : List F) (r : Nat) (hr : r < d) :
    (decimate c d taps xs dl r).1.length = (r + xs.length) / d := by
  by_cases hd : d = 1
  · subst hd
    simp [decimate_one, Nat.lt_one_iff.mp hr]
  · rw [decimate_of_ne_one c d taps xs dl r hd, decimateLoop_length c d taps xs dl r hr]

/-- The remainder a call leaves (R162). -/
theorem decimate_remainder (c : Cfg) (d : Nat) (taps xs dl : List F) (r : Nat) (hr : r < d) :
    (decimate c d taps xs dl r).2.2 = (r + xs.length) % d := by
  by_cases hd : d = 1
  · subst hd
    simp [decimate_one, Nat.lt_one_iff.mp hr, Nat.mod_one]
  · rw [decimate_of_ne_one c d taps xs dl r hd, decimateLoop_remainder c d taps xs dl r hr]

/-! ### The outputs -/

/-- Output `j` of a call that begins at remainder `r` is computed when `(j + 1) * d - r` samples have been pushed. -/
theorem decimateLoop_output (c : Cfg) (d : Nat) (taps xs dl : List F) (r j : Nat) (hr : r < d)
    (hj : (j + 1) * d ≤ r + xs.length) :
    (decimateLoop c d taps xs dl r).1[j]? = some (dot c taps (pushAll dl (xs.take ((j + 1) * d - r)))) := by
  induction xs generalizing dl r j with
  | nil =>
    have hgroup : d ≤ (j + 1) * d := Nat.le_mul_of_pos_left d j.succ_pos
    simp only [List.length_nil] at hj
    omega
  | cons x xs ih =>
    rw [List.length_cons] at hj
    rw [decimateLoop_cons]
    by_cases hfull : r + 1 = d
    · rw [if_pos hfull]
      cases j with
      | zero =>
        have hone : (0 + 1) * d - r = 0 + 1 := by omega
        rw [hone]
        simp
      | succ j =>
        have hgroups : (j + 1 + 1) * d = (j + 1) * d + d := Nat.succ_mul _ _
        have hcount : (j + 1 + 1) * d - r = (j + 1) * d - 0 + 1 := by omega
        rw [List.getElem?_cons_succ, ih _ 0 j (by omega) (by omega), hcount, List.take_succ_cons, pushAll_cons]
    · have hgroup : d ≤ (j + 1) * d := Nat.le_mul_of_pos_left d j.succ_pos
      have hcount : (j + 1) * d - r = (j + 1) * d - (r + 1) + 1 := by omega
      rw [if_neg hfull, ih _ (r + 1) j (by omega) (by omega), hcount, List.take_succ_cons, pushAll_cons]

/-! ### Cutting the stream -/

theorem decimateLoop_append (c : Cfg) (d : Nat) (taps xs ys dl : List F) (r : Nat) :
    decimateLoop c d taps (xs ++ ys) dl r =
      let one := decimateLoop c d taps xs dl r
      let rest := decimateLoop c d taps ys one.2.1 one.2.2
      (one.1 ++ rest.1, rest.2) := by
  induction xs generalizing dl r with
  | nil => rfl
  | cons x xs ih =>
    rw [List.cons_append, decimateLoop_cons, decimateLoop_cons, ih, ih]
    split <;> rfl

theorem decimate_append (c : Cfg) (d : Nat) (taps xs ys dl : List F) (r : Nat) :
    decimate c d taps (xs ++ ys) dl r =
      let one := decimate c d taps xs dl r
      let rest := decimate c d taps ys one.2.1 one.2.2
      (one.1 ++ rest.1, rest.2) := by
  by_cases hd : d = 1
  · subst hd
    simp only [decimate_one]
  · simp only [decimate_of_ne_one c d taps _ _ _ hd, decimateLoop_append]

/-- Block by block or all at once: the same outputs, delay line and remainder. -/
theorem decimateBlocks_eq_decimate_flatten (c : Cfg) (d : Nat) (taps : List F) (blocks : List (List F)) (dl : List F)
    (r : Nat) : decimateBlocks c d taps blocks dl r = decimate c d taps blocks.flatten dl r := by
  induction blocks generalizing dl r with
  | nil => rw [List.flatten_nil, decimate_nil]; rfl
  | cons b bs ih =>
    rw [List.flatten_cons, decimate_append]
    simp only [decimateBlocks, ih]

/-- Settles O32: the counts of a call, its outputs by the samples pushed before each, and the cut by appending. -/
theorem decimatorOutputsDoNotDependOnBlocks : Obligations.DecimatorOutputsDoNotDependOnBlocks := by
  intro c d taps xs dl r hr
  refine ⟨decimate_length c d taps xs dl r hr, decimate_remainder c d taps xs dl r hr, ?pass, ?output, ?cut⟩
  case pass =>
    rintro rfl
    exact decimate_one c taps xs dl r
  case output =>
    rintro hd rfl j hj
    have hin : (j + 1) * d ≤ xs.length := (Nat.le_div_iff_mul_le hr).mp hj
    rw [decimate_of_ne_one c d taps xs dl 0 hd, decimateLoop_output c d taps xs dl 0 j hr (by omega), Nat.sub_zero,
      pushAll_eq]
  case cut =>
    rintro blocks rfl
    exact decimateBlocks_eq_decimate_flatten c d taps blocks dl r

end Sys2Proof.Machine
end

section
/-! O33: the channel filter as a convolution. Each output is a dot product with the delay line, and word `j` of the line
is the sample `j` before the newest. -/

namespace Sys2Proof.Machine

/-- The dot product of two memories of one length, read word by word (R73). -/
theorem dot_eq_foldl_range (c : Cfg) (t m : List F) (h : m.length = t.length) :
    dot c t m =
      (List.range t.length).foldl (fun acc j => fadd c acc (fmul c (memRead t j) (memRead m j))) 0#32 := by
  have hzip : t.zip m = (List.range t.length).map fun j => (memRead t j, memRead m j) := by
    refine List.ext_getElem (by simp [h]) fun j hj _ => ?_
    have ht : j < t.length := by simp [h] at hj; exact hj
    simp [memRead, ht, h]
  rw [dot, hzip, List.foldl_map]

/-- Output `n` is computed when `n + 1` samples have been pushed. -/
theorem fir_output (c : Cfg) (taps xs dl : List F) (n : Nat) (hn : n < xs.length) :
    (fir c taps xs dl).1[n]? = some (dot c taps (pushAll dl (xs.take (n + 1)))) := by
  induction xs generalizing dl n with
  | nil => simp at hn
  | cons x xs ih =>
    rw [fir_cons]
    cases n with
    | zero => simp
    | succ n => rw [List.getElem?_cons_succ, ih _ n (by simpa using hn), List.take_succ_cons, pushAll_cons]

/-- The delay line after `n + 1` samples: the samples newest first, then what it held before. -/
theorem memRead_pushAll_take (dl xs : List F) (n j : Nat) (hn : n < xs.length) (hj : j < dl.length) :
    memRead (pushAll dl (xs.take (n + 1))) j = if j ≤ n then memRead xs (n - j) else memRead dl (j - n - 1) := by
  have hlen : (xs.take (n + 1)).reverse.length = n + 1 := by simp; omega
  rw [pushAll_eq]
  simp only [memRead, List.getD_eq_getElem?_getD]
  rw [List.getElem?_take_of_lt hj]
  by_cases hjn : j ≤ n
  · have hpos : n + 1 - 1 - j < n + 1 := by omega
    rw [if_pos hjn, List.getElem?_append_left (by omega), List.getElem?_reverse (by simp; omega), List.length_take,
      Nat.min_eq_left hn, List.getElem?_take_of_lt hpos, Nat.add_sub_cancel]
  · rw [if_neg hjn, List.getElem?_append_right (by omega), hlen, Nat.sub_sub]

/-- Settles O33: the dot product of each output, its delay line read word by word. -/
theorem channelFilterIsAConvolution : Obligations.ChannelFilterIsAConvolution := by
  intro c taps xs dl hlen
  refine ⟨fir_length c taps xs dl, fun n hn => ?_, (fir_delay c taps xs dl).trans (pushAll_eq dl xs)⟩
  rw [fir_output c taps xs dl n hn, dot_eq_foldl_range c taps _ ((pushAll_length _ _).trans hlen)]
  refine congrArg some (List.foldl_ext _ _ _ fun acc j hj => ?_)
  rw [memRead_pushAll_take dl xs n j hn (hlen ▸ List.mem_range.mp hj)]

end Sys2Proof.Machine
end

section
/-! O29 and O34: a completed block as one record, each unit what its stage leaves; the variant is in none of the
stages. -/

namespace Sys2Proof.Machine

/-! ### What the squelch stage reads -/

/-- All that the squelch stage reads of a channel, and all that it writes, is the same in both. -/
structure SameSquelch (ch ch' : Channel) : Prop where
  regs : ch.regs = ch'.regs
  squelch : ch.squelch = ch'.squelch

theorem trackFloor_sameSquelch (c : Cfg) (p : F) {ch ch' : Channel} (h : SameSquelch ch ch') :
    SameSquelch (trackFloor c p ch) (trackFloor c p ch') := by
  unfold trackFloor
  rw [h.regs, h.squelch]
  split
  · exact ⟨rfl, rfl⟩
  · exact h

theorem squelchEval_sameSquelch (c : Cfg) (a : List F) {ch ch' : Channel} (h : SameSquelch ch ch') :
    SameSquelch (squelchEval c a ch) (squelchEval c a ch') := by
  obtain ⟨hregs, hsquelch⟩ := trackFloor_sameSquelch c (blockPower c a) h
  exact ⟨hregs, congrArg₂ (fun r q => squelchDecide c r (blockPower c a) q) hregs hsquelch⟩

theorem squelchStage_sameSquelch (c : Cfg) (a : List F) {ch ch' : Channel} (h : SameSquelch ch ch') :
    SameSquelch (squelchStage c a ch) (squelchStage c a ch') := by
  have hclear : SameSquelch { ch with squelch := ch.squelch.clearChanged }
      { ch' with squelch := ch'.squelch.clearChanged } := ⟨h.regs, congrArg Squelch.clearChanged h.squelch⟩
  by_cases ha : a = []
  · subst ha
    exact hclear
  · rw [squelchStage_eval c a ch ha, squelchStage_eval c a ch' ha]
    exact squelchEval_sameSquelch c a hclear

/-! ### The block as one record -/

theorem audioOf_eq_ite (c : Cfg) (cf : ActiveConfig) (a : List F) (ts : Word) (r : Resampler) (sq : SqState) :
    audioOf c cf a ts r sq =
      if sq = .unmuted then audioMessages ts (resample c cf.rsL cf.rsM cf.rsTaps a r).1 else [] := by
  cases sq <;> rfl

theorem resamplerAfter_eq_ite (c : Cfg) (cf : ActiveConfig) (a : List F) (r : Resampler) (sq : SqState) :
    resamplerAfter c cf a r sq = if sq = .unmuted then (resample c cf.rsL cf.rsM cf.rsTaps a r).2 else r := by
  cases sq <;> rfl

theorem lifecycleNext_eq_ite (sq : SqState) : lifecycleNext sq = if sq = .unmuted then .call else .idle := by
  cases sq <;> rfl

/-- Two channel records with the same fields are the same. -/
theorem Channel.eq_of_fields {ch ch' : Channel} (cmdPort : ch.cmdPort = ch'.cmdPort)
    (msgPort : ch.msgPort = ch'.msgPort) (regs : ch.regs = ch'.regs) (config : ch.config = ch'.config)
    (dec : ch.dec = ch'.dec) (fir : ch.fir = ch'.fir) (squelch : ch.squelch = ch'.squelch)
    (tone : ch.tone = ch'.tone) (resampler : ch.resampler = ch'.resampler) (lc : ch.lc = ch'.lc)
    (fstat : ch.fstat = ch'.fstat) : ch = ch' := by
  cases ch; cases ch'
  congr

/-- The channel after a block, field by field, `sq` being what its squelch stage leaves (R160, R271). -/
def blockResult (c : Cfg) (cid ts : Word) (i q : List F) (ch sq : Channel) : Channel :=
  let a := demodulated c ch i q
  { cmdPort := ch.cmdPort
    msgPort := ch.msgPort ++ messageWords (lifecycleMessage cid ts ch.lc sq.squelch.state ::
      (audioOf c ch.config a ts ch.resampler sq.squelch.state ++ (toneRun c ch.config ts a ch.tone).2))
    regs := sq.regs
    config := ch.config
    dec := (frontEnd c ch i q).2.dec
    fir := (frontEnd c ch i q).2.fir
    squelch := sq.squelch
    tone := (toneRun c ch.config ts a ch.tone).1
    resampler := resamplerAfter c ch.config a ch.resampler sq.squelch.state
    lc := lifecycleNext sq.squelch.state
    fstat := ch.fstat }

/-- A block leaves its result. The squelch stage reads neither the filters nor the configuration, so it may be run on
any channel with the registers and the squelch of the one before the block. -/
theorem runBlock_eq_blockResult (c : Cfg) (cid ts : Word) (i q : List F) (ch ch₀ : Channel) (h : SameSquelch ch ch₀) :
    runBlock c cid ts i q ch = blockResult c cid ts i q ch (squelchStage c (demodulated c ch i q) ch₀) := by
  have hfront : SameSquelch (frontEnd c ch i q).2 ch₀ := ⟨h.regs, h.squelch⟩
  obtain ⟨hregs, hsquelch⟩ := squelchStage_sameSquelch c (demodulated c ch i q) hfront
  have hstate := congrArg Squelch.state hsquelch
  apply Channel.eq_of_fields
  case cmdPort => exact runBlock_cmdPort c cid ts i q ch
  case msgPort => rw [runBlock_msgPort, hstate]; rfl
  case regs => exact (runBlock_regs c cid ts i q ch).trans hregs
  case config => exact runBlock_config c cid ts i q ch
  case dec => exact runBlock_dec c cid ts i q ch
  case fir => exact runBlock_fir c cid ts i q ch
  case squelch => exact (runBlock_squelch c cid ts i q ch).trans hsquelch
  case tone => exact runBlock_tone c cid ts i q ch
  case resampler => rw [runBlock_resampler, hstate]; rfl
  case lc => rw [runBlock_lc, hstate]; rfl
  case fstat => exact runBlock_fstat c cid ts i q ch

/-! ### The block under its preconditions -/

theorem laneOk_of_divides (impl : Byte) (k : Nat) (h : impl = 1#8 ∨ k % impl.toNat = 0) : laneOk impl k = true := by
  simpa [laneOk] using h

/-- A block that passes the three tests of IQ_BLOCK is run (R270). -/
theorem iqBlock_eq_runBlock (c : Cfg) (num : Nat) (tag : Byte) (ts : Word) (i q : List F) (ch : Channel)
    (hlen : i.length ≠ 0) (hconf : ch.config.configured = true)
    (hlane : laneOk ch.config.implActive (decimatedLength ch i.length) = true) :
    iqBlock c num tag ts i q ch = runBlock c (c.channelId num) ts i q ch := by
  simp [iqBlock, hlen, hconf, hlane]

/-- Settles O29: the block is run, and its result is the record of the statement. -/
theorem iqBlockRunsItsStagesInOrder : Obligations.IqBlockRunsItsStagesInOrder := by
  intro tag ts i q s c ch cf k di dq fi fq a start sq y tones ev _ hlen hconf hlane
  have hstage : squelchStage c a ch = sq := rfl
  have hblock : channelEffect c s.activeNum s.calSel (.iqBlock tag ts i q) ch =
      blockResult c (c.channelId s.activeNum) ts i q ch sq := by
    rw [← hstage]
    exact (iqBlock_eq_runBlock c _ tag ts i q ch hlen hconf (laneOk_of_divides _ _ hlane)).trans
      (runBlock_eq_blockResult c _ ts i q ch ch ⟨rfl, rfl⟩)
  rw [exec_eq, hblock, blockResult, audioOf_eq_ite, resamplerAfter_eq_ite, lifecycleNext_eq_ite]
  rfl

/-! ### The variant -/

/-- The configuration with another variant. -/
def ActiveConfig.withVariant (cf : ActiveConfig) (v : Byte) : ActiveConfig := { cf with implActive := v }

theorem toneSamples_withVariant (c : Cfg) (cf : ActiveConfig) (v : Byte) (ts : Word) (a : List F) (d : ToneDecoder) :
    toneSamples c (cf.withVariant v) ts a d = toneSamples c cf ts a d := by
  induction a generalizing d with
  | nil => rfl
  | cons x xs ih =>
    have hturn : toneTurn c (cf.withVariant v) ts x d = toneTurn c cf ts x d := rfl
    simp only [toneSamples, hturn, ih]

theorem toneRun_withVariant (c : Cfg) (cf : ActiveConfig) (v : Byte) (ts : Word) (a : List F) (d : ToneDecoder) :
    toneRun c (cf.withVariant v) ts a d = toneRun c cf ts a d := by
  simp only [toneRun, toneSamples_withVariant]

/-- A block writes no variant and reads none (R166). -/
theorem runBlock_withVariant (c : Cfg) (cid ts : Word) (i q : List F) (ch : Channel) (v : Byte) :
    runBlock c cid ts i q { ch with config := ch.config.withVariant v } =
      { runBlock c cid ts i q ch with config := ch.config.withVariant v } := by
  rw [runBlock_eq_blockResult c cid ts i q { ch with config := ch.config.withVariant v } ch ⟨rfl, rfl⟩,
    runBlock_eq_blockResult c cid ts i q ch ch ⟨rfl, rfl⟩]
  simp only [blockResult, toneRun_withVariant]
  rfl

/-! ### The demodulator -/

theorem demod_length (c : Cfg) (gain : F) (fi fq : List F) (h : fi.length = fq.length) :
    (demod c gain fi fq).length = fi.length := by
  simp [demod, h]

theorem memRead_demod (c : Cfg) (gain : F) (fi fq : List F) (n : Nat) (h : fi.length = fq.length)
    (hn : n < fi.length) :
    memRead (demod c gain fi fq) n = fmul c (fsqrt c (magSquared c (memRead fi n) (memRead fq n))) gain := by
  have hq : n < fq.length := h ▸ hn
  simp [demod, memRead, hn, hq]

/-- Both branches return the same number of samples, the one the lane test predicts (R162, R167). -/
theorem frontEnd_length (c : Cfg) (i q : List F) (ch : Channel) (hb : ch.BranchesInStep) (h : i.length = q.length) :
    (frontEnd c ch i q).1.length = decimatedLength ch i.length := by
  have hi := decimate_length c _ ch.config.decTaps i ch.dec.iDl ch.dec.iR hb.belowFactor
  have hq := decimate_length c _ ch.config.decTaps q ch.dec.qDl ch.dec.qR (hb.sameRemainder ▸ hb.belowFactor)
  rw [← hb.sameRemainder, ← h, ← hi] at hq
  refine (demod_length c ch.regs.gain _ _ ?_).trans ((fir_length ..).trans hi)
  rw [fir_length, fir_length, ← hb.sameRemainder, hq]

/-- Settles O34: the demodulator word by word, the block with another variant, and the two branches' lengths. -/
theorem demodulatorIsElementwiseForEveryVariant : Obligations.DemodulatorIsElementwiseForEveryVariant :=
  ⟨fun c gain fi fq h => ⟨demod_length c gain fi fq h, fun n hn => memRead_demod c gain fi fq n h hn⟩,
   fun c cid ts i q ch v => runBlock_withVariant c cid ts i q ch v,
   fun c i q ch hb h => frontEnd_length c i q ch hb h⟩

end Sys2Proof.Machine
end

section
/-! O13, O14, O15: the requests that read or write one control register (42_squelch.md R200 to R210). -/

namespace Sys2Proof.Machine

theorem bitWord_eq_ite (b : Bool) : bitWord b = if b then 1#32 else 0#32 := by cases b <;> rfl

theorem bitArgument_eq_ite (b : Bool) : (0#15 ++ BitVec.ofBool b : BitVec 16) = if b then 1#16 else 0#16 := by
  cases b <;> rfl

/-- A request that reads: its REPLY word by word (30_encoding.md R98), and nothing else changed. -/
theorem next_answer_eq (s : State) (o : Opcode) (tag : Byte) (value : Channel → Word) :
    (.next (s.onActive (fun ch => ch.answer o tag (value ch))) : StepResult) = .next { s with
      active :=
      { s.active with
        msgPort := s.active.msgPort ++ [0x81#8 ++ tag ++ 0#8 ++ o.code, value s.active] } } := rfl

/-- A request that writes: the registers written, the REPLY of the value, and nothing else changed. -/
theorem next_withRegs_answer_eq (s : State) (o : Opcode) (tag : Byte) (value : Word) (write : Regs → Regs) :
    (.next (s.onActive (fun ch => (ch.withRegs write).answer o tag value)) : StepResult) = .next { s with
      active :=
      { s.active with
        regs := write s.active.regs
        msgPort := s.active.msgPort ++ [0x81#8 ++ tag ++ 0#8 ++ o.code, value] } } := rfl

/-- Settles O13: each GET is the request that reads its register. -/
theorem getCommandsReplyWithTheRegister : Obligations.GetCommandsReplyWithTheRegister := by
  intro tag s
  rw [← bitWord_eq_ite]
  exact ⟨⟨rfl, next_answer_eq s .getThreshold tag (fun ch => ch.regs.threshold)⟩,
    ⟨rfl, next_answer_eq s .getAutotrack tag (fun ch => bitWord ch.regs.autoTrack)⟩,
    ⟨rfl, next_answer_eq s .getHystOpen tag (fun ch => ch.regs.hystOpen)⟩,
    ⟨rfl, next_answer_eq s .getHystClose tag (fun ch => ch.regs.hystClose)⟩,
    ⟨rfl, next_answer_eq s .getGain tag (fun ch => ch.regs.gain)⟩⟩

/-- Settles O14: each SET of a value is the request that writes its register. -/
theorem setValueCommandsStoreAndReply : Obligations.SetValueCommandsStoreAndReply := fun tag v s =>
  ⟨⟨rfl, next_withRegs_answer_eq s .setThreshold tag v (fun r => { r with threshold := v })⟩,
    ⟨rfl, next_withRegs_answer_eq s .setHystOpen tag v (fun r => { r with hystOpen := v })⟩,
    ⟨rfl, next_withRegs_answer_eq s .setHystClose tag v (fun r => { r with hystClose := v })⟩,
    ⟨rfl, next_withRegs_answer_eq s .setGain tag v (fun r => { r with gain := v })⟩⟩

/-- Settles O15: both are requests that write one flag register; the bit stands alone in the argument and in the
reply. -/
theorem setBitCommandsStoreAndReply : Obligations.SetBitCommandsStoreAndReply := by
  intro tag b s
  rw [← bitWord_eq_ite, ← bitArgument_eq_ite]
  exact ⟨⟨rfl, next_withRegs_answer_eq s .setAutotrack tag (bitWord b) (fun r => { r with autoTrack := b })⟩,
    ⟨rfl, next_withRegs_answer_eq s .setOverride tag (bitWord b) (fun r => { r with override := b })⟩⟩

end Sys2Proof.Machine
end

section
/-! One evaluation of the squelch as one debounce rule for both states (42_squelch.md R193, R195), and what a run of
blocks makes of it. -/

namespace Sys2Proof.Machine

/-! ### One decision -/

/-- The state on the other side of the mute flag. -/
def SqState.opposite : SqState → SqState
  | .muted => .unmuted
  | .unmuted => .muted

/-- The number of qualifying blocks in a row after which a state is left (R193). -/
def SqState.debounce (c : Cfg) : SqState → ℕ+
  | .muted => c.openDebounce
  | .unmuted => c.closeDebounce

/-- The counter of the qualifying blocks in the present state. -/
def Squelch.count (q : Squelch) : Nat :=
  match q.state with
  | .muted => q.openCnt
  | .unmuted => q.closeCnt

/-- The counter, written. -/
def Squelch.setCount (q : Squelch) (n : Nat) : Squelch :=
  match q.state with
  | .muted => { q with openCnt := n }
  | .unmuted => { q with closeCnt := n }

/-- The squelch once the state was left. -/
def Squelch.flip (q : Squelch) : Squelch :=
  { q with openCnt := 0, closeCnt := 0, state := q.state.opposite, changed := true }

/-- A block of power `p` qualifies for leaving a state (R192). -/
def SqState.qualifies (c : Cfg) (r : Regs) (p : F) : SqState → Bool
  | .muted => opens c r p
  | .unmuted => closes c r p

theorem Squelch.count_muted {q : Squelch} (h : q.state = .muted) : q.count = q.openCnt := by rw [count, h]

theorem Squelch.count_unmuted {q : Squelch} (h : q.state = .unmuted) : q.count = q.closeCnt := by rw [count, h]

@[simp] theorem Squelch.setCount_state (q : Squelch) (n : Nat) : (q.setCount n).state = q.state := by
  unfold setCount; split <;> rfl

@[simp] theorem Squelch.count_setCount (q : Squelch) (n : Nat) : (q.setCount n).count = n := by
  obtain ⟨st, _⟩ := q
  cases st <;> rfl

theorem SqState.opposite_ne (st : SqState) : st.opposite ≠ st := by cases st <;> decide

/-- Without override the decision counts qualifying blocks, and leaves the state at the last of the debounce. -/
theorem squelchDecide_eq (c : Cfg) (r : Regs) (p : F) (q : Squelch) (hov : r.override = false) :
    squelchDecide c r p q =
      if (if q.state.qualifies c r p then q.count + 1 else 0) = q.state.debounce c then q.flip
      else q.setCount (if q.state.qualifies c r p then q.count + 1 else 0) := by
  obtain ⟨st, _⟩ := q
  cases st <;> simp only [squelchDecide, hov] <;> rfl

/-! ### One evaluation -/

/-- The block qualifies for leaving the channel's state: its power against the level of the threshold in force, which is
the tracked one where the tracker runs (R192, R194). -/
def qualifies (c : Cfg) (ch : Channel) (a : List F) : Bool :=
  ch.squelch.state.qualifies c (trackFloor c (blockPower c a) ch).regs (blockPower c a)

/-- The counter once the block has been counted. -/
def countWith (c : Cfg) (ch : Channel) (a : List F) : Nat := if qualifies c ch a then ch.squelch.count + 1 else 0

theorem countWith_of_qualifies {c : Cfg} {ch : Channel} {a : List F} (h : qualifies c ch a = true) :
    countWith c ch a = ch.squelch.count + 1 := if_pos h

theorem countWith_of_not_qualifies {c : Cfg} {ch : Channel} {a : List F} (h : qualifies c ch a = false) :
    countWith c ch a = 0 := by rw [countWith, h]; rfl

/-- While muted and tracking, the tracker writes the estimate and the threshold (R194). -/
theorem trackFloor_tracks (c : Cfg) (p : F) (ch : Channel) (ht : ch.regs.autoTrack = true)
    (hst : ch.squelch.state = .muted) :
    trackFloor c p ch =
      { ch with
        squelch := { ch.squelch with nf := some (c.track ch.squelch.nf p) }
        regs := { ch.regs with threshold := fadd c (c.track ch.squelch.nf p) c.autoOffset } } := by
  simp [trackFloor, ht, hst]

theorem trackFloor_override (c : Cfg) (p : F) (ch : Channel) :
    (trackFloor c p ch).regs.override = ch.regs.override := by
  obtain ⟨th, h⟩ := trackFloor_regs c p ch
  rw [h]

theorem squelchEval_override (c : Cfg) (a : List F) (ch : Channel) :
    (squelchEval c a ch).regs.override = ch.regs.override := trackFloor_override c (blockPower c a) ch

/-- Where the tracker is idle an evaluation is the decision alone. -/
theorem squelchEval_idle (c : Cfg) (a : List F) (ch : Channel)
    (h : ch.regs.autoTrack = false ∨ ch.squelch.state = .unmuted) :
    squelchEval c a ch = { ch with squelch := squelchDecide c ch.regs (blockPower c a) ch.squelch } := by
  unfold squelchEval
  simp only [trackFloor_idle c _ ch h]

/-- Without override an evaluation counts the block, and leaves the state at the last of the debounce. -/
theorem squelchEval_squelch (c : Cfg) (a : List F) (ch : Channel) (hov : ch.regs.override = false) :
    (squelchEval c a ch).squelch =
      if countWith c ch a = ch.squelch.state.debounce c then (trackFloor c (blockPower c a) ch).squelch.flip
      else (trackFloor c (blockPower c a) ch).squelch.setCount (countWith c ch a) := by
  refine (squelchDecide_eq c _ (blockPower c a) _ ((trackFloor_override c _ ch).trans hov)).trans ?_
  obtain ⟨nf, h⟩ := trackFloor_squelch c (blockPower c a) ch
  rw [h]
  rfl

section Eval

variable (c : Cfg) (a : List F) {ch : Channel} (hov : ch.regs.override = false)
include hov

theorem squelchEval_leaves (h : countWith c ch a = ch.squelch.state.debounce c) :
    (squelchEval c a ch).squelch.state = ch.squelch.state.opposite ∧ (squelchEval c a ch).squelch.changed = true := by
  obtain ⟨nf, e⟩ := trackFloor_squelch c (blockPower c a) ch
  rw [squelchEval_squelch c a ch hov, if_pos h, e]
  exact ⟨rfl, rfl⟩

theorem squelchEval_stays (h : countWith c ch a ≠ ch.squelch.state.debounce c) :
    (squelchEval c a ch).squelch.state = ch.squelch.state ∧ (squelchEval c a ch).squelch.count = countWith c ch a := by
  obtain ⟨nf, e⟩ := trackFloor_squelch c (blockPower c a) ch
  rw [squelchEval_squelch c a ch hov, if_neg h, e]
  exact ⟨Squelch.setCount_state _ _, Squelch.count_setCount _ _⟩

theorem squelchEval_state_iff :
    (squelchEval c a ch).squelch.state = ch.squelch.state ↔ countWith c ch a ≠ ch.squelch.state.debounce c :=
  ⟨fun h hcount => SqState.opposite_ne _ ((squelchEval_leaves c a hov hcount).1.symm.trans h),
    fun h => (squelchEval_stays c a hov h).1⟩

/-- With a debounce of two or more, a block that qualifies and one that does not end in the same state, nothing
counted. -/
theorem squelchEval_dip (b : List F) (hcount : ch.squelch.count = 0)
    (hbound : 2 ≤ (ch.squelch.state.debounce c : Nat)) (hqual : qualifies c ch a = true)
    (hnot : (squelchEval c a ch).squelch.state = ch.squelch.state → qualifies c (squelchEval c a ch) b = false) :
    (squelchBlocks c [a, b] ch).squelch.state = ch.squelch.state ∧ (squelchBlocks c [a, b] ch).squelch.count = 0 := by
  have hfirst : countWith c ch a = 1 := by rw [countWith_of_qualifies hqual, hcount]
  have hmid := (squelchEval_stays c a hov (by omega)).1
  have hsecond : countWith c (squelchEval c a ch) b = 0 := countWith_of_not_qualifies (hnot hmid)
  have hend := squelchEval_stays c b ((squelchEval_override c a ch).trans hov)
    (by rw [hsecond]; exact (SqState.debounce c _).pos.ne)
  exact ⟨hend.1.trans hmid, hend.2.trans hsecond⟩

end Eval

/-! ### A run of blocks -/

section Run

variable (c : Cfg) (blocks : List (List F)) (ch : Channel)

/-- The channel before block `n` of a list. -/
def beforeBlock (n : Nat) : Channel := squelchBlocks c (blocks.take n) ch

theorem beforeBlock_succ {n : Nat} {a : List F} (h : blocks[n]? = some a) :
    beforeBlock c blocks ch (n + 1) = squelchEval c a (beforeBlock c blocks ch n) := by
  simp [beforeBlock, squelchBlocks, List.take_add_one, h]

theorem beforeBlock_length : beforeBlock c blocks ch blocks.length = squelchBlocks c blocks ch := by
  simp [beforeBlock]

theorem squelchBlocks_override : (squelchBlocks c blocks ch).regs.override = ch.regs.override := by
  induction blocks generalizing ch with
  | nil => rfl
  | cons a blocks ih => exact (ih _).trans (squelchEval_override c a ch)

theorem beforeBlock_override (n : Nat) : (beforeBlock c blocks ch n).regs.override = ch.regs.override :=
  squelchBlocks_override c (blocks.take n) ch

/-- Each block from number `lo` to before number `n` qualifies where it stands. -/
def QualifyBetween (lo n : Nat) : Prop :=
  ∀ j a, lo ≤ j → j < n → blocks[j]? = some a → qualifies c (beforeBlock c blocks ch j) a = true

/-- The state has not changed before block `n` or earlier. -/
def HeldTo (n : Nat) : Prop := ∀ m ≤ n, (beforeBlock c blocks ch m).squelch.state = ch.squelch.state

variable {c blocks ch}

theorem HeldTo.succ {n : Nat} (h : HeldTo c blocks ch n)
    (hstay : (beforeBlock c blocks ch (n + 1)).squelch.state = (beforeBlock c blocks ch n).squelch.state) :
    HeldTo c blocks ch (n + 1) := by
  intro m hm
  rcases Nat.le_succ_iff.mp hm with hm | rfl
  · exact h m hm
  · exact hstay.trans (h n le_rfl)

theorem QualifyBetween.succ {lo n : Nat} {b : List F} (h : QualifyBetween c blocks ch lo n)
    (hget : blocks[n]? = some b) (hq : qualifies c (beforeBlock c blocks ch n) b = true) :
    QualifyBetween c blocks ch lo (n + 1) := by
  intro j a hlo hj ha
  rcases Nat.lt_succ_iff_lt_or_eq.mp hj with hj | rfl
  · exact h j a hlo hj ha
  · rw [hget] at ha
    exact Option.some.inj ha ▸ hq

variable (hov : ch.regs.override = false) (hcount : ch.squelch.count = 0)
include hov hcount

/-- While the state has not changed, the counter is a number of last blocks that all qualified. -/
theorem count_beforeBlock (n : Nat) (hn : n ≤ blocks.length)
    (hst : HeldTo c blocks ch n) :
    (beforeBlock c blocks ch n).squelch.count ≤ n ∧
      QualifyBetween c blocks ch (n - (beforeBlock c blocks ch n).squelch.count) n := by
  induction n with
  | zero => exact ⟨hcount.le, fun j a _ hj => absurd hj (Nat.not_lt_zero j)⟩
  | succ n ih =>
    obtain ⟨hle, hrun⟩ := ih (by omega) (fun m hm => hst m (by omega))
    have hget : blocks[n]? = some blocks[n] := List.getElem?_eq_getElem (by omega)
    have hsucc := beforeBlock_succ c blocks ch hget
    have hov' := (beforeBlock_override c blocks ch n).trans hov
    have hstay : (squelchEval c blocks[n] (beforeBlock c blocks ch n)).squelch.state =
        (beforeBlock c blocks ch n).squelch.state := by
      rw [← hsucc, hst _ le_rfl, hst n (by omega)]
    have hnew := (squelchEval_stays c _ hov' ((squelchEval_state_iff c _ hov').mp hstay)).2
    rw [hsucc, hnew]
    cases hq : qualifies c (beforeBlock c blocks ch n) blocks[n] with
    | false =>
      rw [countWith_of_not_qualifies hq]
      exact ⟨Nat.zero_le _, fun j a h1 h2 => by omega⟩
    | true =>
      rw [countWith_of_qualifies hq, Nat.add_sub_add_right]
      exact ⟨by omega, hrun.succ hget hq⟩

/-- The state is left only at the last of a full debounce of qualifying blocks (R193). -/
theorem fullDebounce_of_left
    (hst : ∀ n < blocks.length, (beforeBlock c blocks ch n).squelch.state = ch.squelch.state)
    (hleft : (squelchBlocks c blocks ch).squelch.state ≠ ch.squelch.state) :
    (ch.squelch.state.debounce c : Nat) ≤ blocks.length ∧
      ∀ n a, blocks.length - ch.squelch.state.debounce c ≤ n → blocks[n]? = some a →
        qualifies c (beforeBlock c blocks ch n) a = true := by
  obtain ⟨k, hk⟩ : ∃ k, blocks.length = k + 1 := by
    refine Nat.exists_eq_succ_of_ne_zero (fun h => hleft ?_)
    rw [List.length_eq_zero_iff.mp h]
    rfl
  obtain ⟨hle, hrun⟩ := count_beforeBlock hov hcount k (by omega) (fun m hm => hst m (by omega))
  have hget : blocks[k]? = some blocks[k] := List.getElem?_eq_getElem (by omega)
  have hov' := (beforeBlock_override c blocks ch k).trans hov
  have hstk := hst k (by omega)
  rw [← beforeBlock_length, hk, beforeBlock_succ c blocks ch hget, ← hstk, Ne, squelchEval_state_iff c _ hov',
    not_not, hstk] at hleft
  have hpos := (ch.squelch.state.debounce c).pos
  cases hq : qualifies c (beforeBlock c blocks ch k) blocks[k] with
  | false => rw [countWith_of_not_qualifies hq] at hleft; omega
  | true =>
    rw [countWith_of_qualifies hq] at hleft
    refine ⟨by omega, fun n a hn ha => ?_⟩
    have hlt := (List.getElem?_eq_some_iff.mp ha).1
    exact hrun.succ hget hq n a (by omega) (by omega) ha

/-- Short of the debounce, qualifying blocks are all counted and change no state. -/
theorem held_of_qualifying (hqual : ∀ n a, blocks[n]? = some a → HeldTo c blocks ch n →
      qualifies c (beforeBlock c blocks ch n) a = true) (n : Nat) (hn : n < blocks.length)
    (hbound : n < ch.squelch.state.debounce c) :
    HeldTo c blocks ch n ∧ (beforeBlock c blocks ch n).squelch.count = n := by
  induction n with
  | zero => exact ⟨fun m hm => by rw [Nat.le_zero.mp hm]; rfl, hcount⟩
  | succ n ih =>
    obtain ⟨hst, hn'⟩ := ih (by omega) (by omega)
    have hget : blocks[n]? = some blocks[n] := List.getElem?_eq_getElem (by omega)
    have hcnt : countWith c (beforeBlock c blocks ch n) blocks[n] = n + 1 := by
      rw [countWith_of_qualifies (hqual n _ hget hst), hn']
    obtain ⟨hst', hcnt'⟩ := squelchEval_stays c blocks[n] ((beforeBlock_override c blocks ch n).trans hov)
      (by rw [hcnt, hst n le_rfl]; exact hbound.ne)
    rw [← beforeBlock_succ c blocks ch hget] at hst' hcnt'
    exact ⟨hst.succ hst', hcnt'.trans hcnt⟩

/-- A full debounce of qualifying blocks leaves the state, at its last block (R193). -/
theorem left_of_fullDebounce (hlen : blocks.length = ch.squelch.state.debounce c)
    (hqual : ∀ n a, blocks[n]? = some a → HeldTo c blocks ch n →
      qualifies c (beforeBlock c blocks ch n) a = true) :
    (squelchBlocks c blocks ch).squelch.state = ch.squelch.state.opposite ∧
      (squelchBlocks c blocks ch).squelch.changed = true := by
  obtain ⟨k, hk⟩ := Nat.exists_eq_succ_of_ne_zero (hlen.trans_ne (ch.squelch.state.debounce c).pos.ne')
  obtain ⟨hst, hcnt⟩ := held_of_qualifying hov hcount hqual k (by omega) (by omega)
  have hget : blocks[k]? = some blocks[k] := List.getElem?_eq_getElem (by omega)
  have hleaves := squelchEval_leaves c blocks[k] ((beforeBlock_override c blocks ch k).trans hov)
    (by rw [countWith_of_qualifies (hqual k _ hget hst), hcnt, hst k le_rfl]; omega)
  rwa [← beforeBlock_succ c blocks ch hget, ← Nat.succ_eq_add_one, ← hk, beforeBlock_length, hst k le_rfl] at hleaves

end Run

end Sys2Proof.Machine
end

section
/-! O36, O37, O39: hysteresis, debounce and the tracker (42_squelch.md R192 to R196), from the rule of one
evaluation. -/

namespace Sys2Proof.Machine

/-! ### What qualifies in either state -/

/-- The threshold a block is held against while muted (R194). -/
def thresholdInForce (c : Cfg) (ch : Channel) (a : List F) : F :=
  if ch.regs.autoTrack then fadd c (c.track ch.squelch.nf (blockPower c a)) c.autoOffset else ch.regs.threshold

theorem qualifies_muted (c : Cfg) (ch : Channel) (a : List F) (h : ch.squelch.state = .muted) :
    qualifies c ch a = fgt (blockPower c a) (fadd c (thresholdInForce c ch a) ch.regs.hystOpen) := by
  rw [qualifies, h, SqState.qualifies, opens, thresholdInForce]
  cases ht : ch.regs.autoTrack with
  | false => rw [trackFloor_idle c _ ch (.inl ht)]; rfl
  | true => rw [trackFloor_tracks c _ ch ht h]; rfl

theorem qualifies_unmuted (c : Cfg) (ch : Channel) (a : List F) (h : ch.squelch.state = .unmuted) :
    qualifies c ch a = flt (blockPower c a) (fsub c ch.regs.threshold ch.regs.hystClose) := by
  rw [qualifies, h, SqState.qualifies, closes, trackFloor_idle c _ ch (.inr h)]

/-- While unmuted an evaluation writes no register (R194). -/
theorem squelchEval_regs_unmuted (c : Cfg) (a : List F) (ch : Channel) (h : ch.squelch.state = .unmuted) :
    (squelchEval c a ch).regs = ch.regs := by
  rw [squelchEval_idle c a ch (.inr h)]

theorem beforeBlock_regs_unmuted (c : Cfg) (blocks : List (List F)) (ch : Channel) (n : Nat) (hn : n ≤ blocks.length)
    (hst : ∀ m < n, (beforeBlock c blocks ch m).squelch.state = .unmuted) :
    (beforeBlock c blocks ch n).regs = ch.regs := by
  induction n with
  | zero => rfl
  | succ n ih =>
    have hget : blocks[n]? = some blocks[n] := List.getElem?_eq_getElem (by omega)
    rw [beforeBlock_succ c blocks ch hget, squelchEval_regs_unmuted c _ _ (hst n (by omega))]
    exact ih (by omega) (fun m hm => hst m (by omega))

/-- Before any block of a run that stays unmuted, a block qualifies against the close level of the channel as it was
at first. -/
theorem qualifies_beforeBlock_unmuted (c : Cfg) (blocks : List (List F)) (ch : Channel) {n : Nat} {a : List F}
    (hn : n < blocks.length) (hst : ∀ m ≤ n, (beforeBlock c blocks ch m).squelch.state = .unmuted) :
    qualifies c (beforeBlock c blocks ch n) a =
      flt (blockPower c a) (fsub c ch.regs.threshold ch.regs.hystClose) := by
  rw [qualifies_unmuted c _ a (hst n le_rfl),
    beforeBlock_regs_unmuted c blocks ch n hn.le (fun m hm => hst m hm.le)]

/-! ### The statements -/

/-- Settles O36: the debounce of the state UNMUTED, whose close level stays the same because the tracker is idle. -/
theorem mutingTakesTheFullCloseDebounce : Obligations.MutingTakesTheFullCloseDebounce := by
  intro c ch hov hst hcnt low
  have hcount : ch.squelch.count = 0 := (Squelch.count_unmuted hst).trans hcnt
  have hdebounce : ch.squelch.state.debounce c = c.closeDebounce := by rw [hst]; rfl
  refine ⟨?onlyThere, ?there, ?dip⟩
  case onlyThere =>
    intro blocks hun hend
    obtain ⟨hle, hrun⟩ := fullDebounce_of_left hov hcount (fun n hn => (hun n hn).trans hst.symm)
      (by rw [hend, hst]; decide)
    rw [hdebounce] at hle hrun
    refine ⟨hle, fun a ha => ?_⟩
    obtain ⟨j, hj⟩ := List.mem_iff_getElem?.mp ha
    rw [List.getElem?_drop] at hj
    have hlt := (List.getElem?_eq_some_iff.mp hj).1
    exact (qualifies_beforeBlock_unmuted c blocks ch hlt (fun m hm => hun m (by omega))).symm.trans
      (hrun _ a (Nat.le_add_right _ j) hj)
  case there =>
    intro blocks hlen hall
    have hleft := left_of_fullDebounce hov hcount (by rw [hdebounce]; exact hlen) (fun n a ha hheld => by
      have hlt := (List.getElem?_eq_some_iff.mp ha).1
      rw [qualifies_beforeBlock_unmuted c blocks ch hlt (fun m hm => (hheld m hm).trans hst)]
      exact hall a (List.mem_of_getElem? ha))
    rwa [hst] at hleft
  case dip =>
    intro a b hbound ha hb
    obtain ⟨hstate, hzero⟩ := squelchEval_dip c a hov b hcount (by rw [hdebounce]; exact hbound)
      ((qualifies_unmuted c ch a hst).trans ha) (fun hstay => by
        rw [qualifies_unmuted c _ b (hstay.trans hst), squelchEval_regs_unmuted c a ch hst]
        exact hb)
    rw [hst] at hstate
    exact ⟨hstate, (Squelch.count_unmuted hstate).symm.trans hzero⟩

/-- Settles O37: the debounce of the state MUTED, each block held against the threshold in force at its comparison. -/
theorem unmutingTakesTheFullOpenDebounce : Obligations.UnmutingTakesTheFullOpenDebounce := by
  intro c ch hov hst hcnt threshold high
  have hcount : ch.squelch.count = 0 := (Squelch.count_muted hst).trans hcnt
  have hdebounce : ch.squelch.state.debounce c = c.openDebounce := by rw [hst]; rfl
  have hhigh (ch' : Channel) (a : List F) (h : ch'.squelch.state = .muted) : qualifies c ch' a = high ch' a :=
    qualifies_muted c ch' a h
  refine ⟨?onlyThere, ?there, ?dip⟩
  case onlyThere =>
    intro blocks before hmuted hend
    obtain ⟨hle, hrun⟩ := fullDebounce_of_left hov hcount (fun n hn => (hmuted n hn).trans hst.symm)
      (by rw [hend, hst]; decide)
    rw [hdebounce] at hle hrun
    refine ⟨hle, fun n a hn ha => ?_⟩
    rw [← hhigh _ a (hmuted n (List.getElem?_eq_some_iff.mp ha).1)]
    exact hrun n a hn ha
  case there =>
    intro blocks before hlen hall
    have hleft := left_of_fullDebounce hov hcount (by rw [hdebounce]; exact hlen) (fun n a ha hheld =>
      (hhigh _ a ((hheld n le_rfl).trans hst)).trans (hall n a ha))
    rwa [hst] at hleft
  case dip =>
    intro a b hbound ha hb
    obtain ⟨hstate, hzero⟩ := squelchEval_dip c a hov b hcount (by rw [hdebounce]; exact hbound)
      ((hhigh ch a hst).trans ha) (fun hstay => (hhigh _ b (hstay.trans hst)).trans hb)
    rw [hst] at hstate
    exact ⟨hstate, (Squelch.count_muted hstate).symm.trans hzero⟩

/-- The decision does not write the estimate. -/
theorem squelchDecide_nf (c : Cfg) (r : Regs) (p : F) (q : Squelch) : (squelchDecide c r p q).nf = q.nf := by
  rcases squelchDecide_cases c r p q with ⟨-, -, e⟩ | ⟨-, -, e⟩ | ⟨-, -, -, e⟩ | ⟨-, -, -, e⟩ | ⟨-, -, -, e⟩ |
    ⟨-, -, -, e⟩ <;> rw [e]

/-- Settles O39: the tracker runs exactly while muted and tracking, and the decision that follows it reads what it has
written. -/
theorem trackerMovesTheThresholdOnlyWhileMuted : Obligations.TrackerMovesTheThresholdOnlyWhileMuted := by
  intro c a ch
  refine ⟨fun htrack hst => ?tracked, fun hidle => ?idle⟩
  case idle =>
    rw [squelchEval_idle c a ch hidle]
    exact ⟨squelchDecide_nf .., rfl⟩
  case tracked =>
    have htf := trackFloor_tracks c (blockPower c a) ch htrack hst
    refine ⟨(squelchDecide_nf ..).trans (by rw [htf]), by rw [squelchEval, htf], ?_⟩
    intro hov high count
    have hthreshold : thresholdInForce c ch a = fadd c (c.track ch.squelch.nf (blockPower c a)) c.autoOffset :=
      if_pos htrack
    have hcount : countWith c ch a = count := by
      rw [countWith, qualifies_muted c ch a hst, hthreshold, Squelch.count_muted hst]
    have hdebounce : ch.squelch.state.debounce c = c.openDebounce := by rw [hst]; rfl
    rw [squelchEval_squelch c a ch hov, hcount, hdebounce, htf]
    by_cases h : count = c.openDebounce
    · rw [if_pos h, if_pos h]
      exact ⟨rfl, by simp [h, Squelch.flip, hst, SqState.opposite]⟩
    · rw [if_neg h, if_neg h]
      simp [h, Squelch.setCount, hst]

end Sys2Proof.Machine
end

section
/-! O38: the override at the next block with a demodulated sample (42_squelch.md R197). -/

namespace Sys2Proof.Machine

/-- With override the decision opens the squelch whatever the power, and notes a change if it was closed. -/
theorem squelchDecide_of_override (c : Cfg) (r : Regs) (p : F) (q : Squelch) (hov : r.override = true) :
    squelchDecide c r p q =
      { state := .unmuted, changed := q.state == .muted || q.changed, openCnt := 0, closeCnt := 0, nf := q.nf } := by
  obtain ⟨st, _⟩ := q
  cases st <;> simp only [squelchDecide, hov] <;> rfl

theorem squelchEval_of_override (c : Cfg) (a : List F) (ch : Channel) (hov : ch.regs.override = true) :
    ∃ nf, (squelchEval c a ch).squelch =
      { state := .unmuted, changed := ch.squelch.state == .muted || ch.squelch.changed, openCnt := 0, closeCnt := 0,
        nf := nf } := by
  obtain ⟨nf, hsq⟩ := trackFloor_squelch c (blockPower c a) ch
  refine ⟨nf, (squelchDecide_of_override c _ _ _ ((trackFloor_override c _ ch).trans hov)).trans ?_⟩
  rw [hsq]

/-- The stage has cleared the changed flag first, so the flag says whether the block began muted. -/
theorem squelchStage_of_override (c : Cfg) (a : List F) (ch : Channel) (ha : a ≠ []) (hov : ch.regs.override = true) :
    ∃ nf, (squelchStage c a ch).squelch =
      { state := .unmuted, changed := ch.squelch.state == .muted, openCnt := 0, closeCnt := 0, nf := nf } := by
  obtain ⟨nf, hsq⟩ := squelchEval_of_override c a { ch with squelch := ch.squelch.clearChanged } hov
  refine ⟨nf, ?_⟩
  rw [squelchStage_eval c a ch ha, hsq]
  simp [Squelch.clearChanged]

theorem squelchStage_override (c : Cfg) (a : List F) (ch : Channel) :
    (squelchStage c a ch).regs.override = ch.regs.override := by
  obtain ⟨th, h⟩ := squelchStage_regs c a ch
  rw [h]

/-- The message of a block that ends unmuted, where the lifecycle state was in step with the mute flag. -/
theorem lifecycleMessage_unmuted (cid ts : Word) (ch : Channel) (h : ch.CallMatchesSquelch) :
    lifecycleMessage cid ts ch.lc .unmuted =
      .lifecycle (if ch.squelch.state = .muted then .start else .continuation) (ch.squelch.state == .muted) cid ts := by
  unfold Channel.CallMatchesSquelch at h
  cases hlc : ch.lc <;> cases hst : ch.squelch.state
  case idle.muted | call.unmuted => rfl
  case idle.unmuted => simp [hlc, hst] at h
  case call.muted => simp [hlc, hst] at h

theorem runBlock_msgPort_unmuted (c : Cfg) (cid ts : Word) (i q : List F) (ch : Channel)
    (hcall : ch.CallMatchesSquelch) (hst : (squelched c ch i q).squelch.state = .unmuted) :
    ∃ more, (runBlock c cid ts i q ch).msgPort = ch.msgPort ++ messageWords
      (.lifecycle (if ch.squelch.state = .muted then .start else .continuation) (ch.squelch.state == .muted) cid ts ::
        more) := by
  rw [← lifecycleMessage_unmuted cid ts ch hcall, ← hst]
  exact ⟨_, runBlock_msgPort c cid ts i q ch⟩

/-- Settles O38: the block passes its tests, its demodulated block is not empty, and the override opens the squelch. -/
theorem overrideUnmutesAtTheNextBlock : Obligations.OverrideUnmutesAtTheNextBlock := by
  intro tag ts i q s ch k hlen hconf hstep hcall hlane hk hov
  let c := Config.cfg
  let cid := c.channelId s.activeNum
  have hlength : (demodulated c ch i q).length = k := frontEnd_length c i q ch hstep hlen
  have hne : demodulated c ch i q ≠ [] := List.ne_nil_of_length_pos (hlength ▸ hk)
  have hsamples : i.length ≠ 0 := fun h0 => by
    have hzero : k = 0 := Nat.div_eq_of_lt (by rw [h0]; exact hstep.belowFactor)
    exact hk.ne' hzero
  have hexec : exec (.iqBlock tag ts i q) s = .next { s with active := runBlock c cid ts i q ch } :=
    congrArg (fun block => (.next { s with active := block } : StepResult))
      (iqBlock_eq_runBlock c _ tag ts i q ch hsamples hconf (laneOk_of_divides _ _ hlane))
  obtain ⟨nf, hsq⟩ : ∃ nf, (squelched c ch i q).squelch =
      { state := .unmuted, changed := ch.squelch.state == .muted, openCnt := 0, closeCnt := 0, nf := nf } :=
    squelchStage_of_override c _ (frontEnd c ch i q).2 hne hov
  have hregs : (runBlock c cid ts i q ch).regs.override = true := by
    rw [runBlock_regs, squelchStage_override]
    exact hov
  obtain ⟨more, hport⟩ := runBlock_msgPort_unmuted c cid ts i q ch hcall (congrArg Squelch.state hsq)
  refine ⟨_, more, hexec, ?_⟩
  rw [runBlock_squelch, hsq]
  exact ⟨rfl, rfl, rfl, beq_iff_eq, hregs, hport⟩

end Sys2Proof.Machine
end

section
/-! O41: the worked squelch trace of R211 (42_squelch.md). -/

namespace Sys2Proof.Machine

/-- R211: the power of four equal samples of amplitude 10, 1 and 0. -/
theorem blockPower_replicate_four (c : Cfg) :
    blockPower c (List.replicate 4 0x41200000#32) = 0x41A00000#32 ∧
      blockPower c (List.replicate 4 0x3F800000#32) = 0#32 ∧
      blockPower c (List.replicate 4 0#32) = 0xFF800000#32 := by
  refine ⟨?_, ?_, ?_⟩ <;>
  · simp (disch := decide +kernel) only [blockPower, sumSquares, List.replicate, List.foldl, List.length,
      Nat.reduceAdd, fadd_finite c default, fmul_finite c default, fdiv_finite c default, db_stated c default]
    decide +kernel

/-- The decision reads of a configuration and of the registers the two debounces, the override and the two levels. -/
theorem squelchDecide_congr (c c' : Cfg) (r r' : Regs) (p : F) (q : Squelch)
    (hopen : c.openDebounce = c'.openDebounce) (hclose : c.closeDebounce = c'.closeDebounce)
    (hov : r.override = r'.override) (hopens : opens c r p = opens c' r' p) (hcloses : closes c r p = closes c' r' p) :
    squelchDecide c r p q = squelchDecide c' r' p q := by
  simp only [squelchDecide, hopen, hclose, hov, hopens, hcloses]

/-- Without the tracker the stage is the decision alone. -/
theorem squelchStage_untracked (c : Cfg) (a : List F) (ch : Channel) (ha : a ≠ []) (ht : ch.regs.autoTrack = false) :
    squelchStage c a ch =
      { ch with squelch := squelchDecide c ch.regs (blockPower c a) ch.squelch.clearChanged } := by
  rw [squelchStage_eval c a ch ha]
  exact squelchEval_idle c a _ (.inl ht)

/-- Without the tracker, blocks one after the other are decisions on their powers, one after the other. -/
theorem foldl_squelchStage_untracked (c : Cfg) (blocks : List (List F)) (ch : Channel) (hne : ∀ a ∈ blocks, a ≠ [])
    (ht : ch.regs.autoTrack = false) :
    (blocks.foldl (fun ch a => squelchStage c a ch) ch).squelch =
      (blocks.map (blockPower c)).foldl (fun q p => squelchDecide c ch.regs p q.clearChanged) ch.squelch := by
  induction blocks generalizing ch with
  | nil => rfl
  | cons a blocks ih =>
    rw [List.foldl_cons, squelchStage_untracked c a ch (hne a List.mem_cons_self) ht]
    exact ih _ (fun b hb => hne b (List.mem_cons_of_mem a hb)) ht

/-- A configuration with the debounces of R211. -/
def workedCfg : Cfg := { (default : Cfg) with openDebounce := 2, closeDebounce := 3 }

/-- The registers of R211. -/
def workedRegs : Regs :=
  { (default : Regs) with
    threshold := 0x41200000#32
    hystOpen := 0x40400000#32
    hystClose := 0x40C00000#32
    autoTrack := false
    override := false }

/-- With the debounces and the registers of R211 every configuration decides alike: the levels are finite sums. -/
theorem squelchDecide_worked (c : Cfg) (r : Regs) (p : F) (q : Squelch) (hopen : (c.openDebounce : Nat) = 2)
    (hclose : (c.closeDebounce : Nat) = 3) (hth : r.threshold = 0x41200000#32) (hho : r.hystOpen = 0x40400000#32)
    (hhc : r.hystClose = 0x40C00000#32) (hov : r.override = false) :
    squelchDecide c r p q = squelchDecide workedCfg workedRegs p q := by
  refine squelchDecide_congr c workedCfg r workedRegs p q (PNat.eq hopen) (PNat.eq hclose) hov ?_ ?_
  · rw [opens, hth, hho, fadd_finite c workedCfg _ _ (by decide) (by decide)]
    rfl
  · rw [closes, hth, hhc, fsub_finite c workedCfg _ _ (by decide) (by decide) (by decide)]
    rfl

/-- Settles O41: the powers are stated values of `db`, and the decisions on them are those of one closed
configuration, where the table is computed. -/
theorem workedSquelchTraceAgrees : Obligations.WorkedSquelchTraceAgrees := by
  intro c ch hopen hclose hth hho hhc ht hov hreset amplitudes after
  obtain ⟨hten, hone, hzero⟩ := blockPower_replicate_four c
  have hpowers : amplitudes.map (fun x => blockPower c (List.replicate 4 x)) =
      [0x41A00000#32, 0#32, 0x41A00000#32, 0x41A00000#32, 0#32, 0x41A00000#32, 0xFF800000#32, 0#32, 0#32] := by
    simp only [amplitudes, List.map, hten, hone, hzero]
  have hdecide : (fun (q : Squelch) p => squelchDecide c ch.regs p q.clearChanged) =
      fun q p => squelchDecide workedCfg workedRegs p q.clearChanged :=
    funext₂ fun q p => squelchDecide_worked c ch.regs p _ hopen hclose hth hho hhc hov
  have hafter (n : Nat) : after n =
      (List.take n [0x41A00000#32, 0#32, 0x41A00000#32, 0x41A00000#32, 0#32, 0x41A00000#32, 0xFF800000#32, 0#32,
        0#32]).foldl (fun q p => squelchDecide workedCfg workedRegs p q.clearChanged) Squelch.reset := by
    have hfold := foldl_squelchStage_untracked c ((amplitudes.take n).map (List.replicate 4)) ch
      (fun a ha => by
        obtain ⟨x, -, rfl⟩ := List.mem_map.mp ha
        exact List.cons_ne_nil _ _) ht
    rw [List.foldl_map, List.map_map, List.map_take, hdecide, hreset] at hfold
    rw [← hpowers]
    exact hfold
  refine ⟨hpowers, ?_⟩
  simp only [hafter]
  decide +kernel

end Sys2Proof.Machine
end

section
/-! O51: what a reader of the message stream knows (44_resampler_orchestrator.md R274, 43_ctcss.md R240, R241). The
messages of one command take a reader from the channel's call and tone before it to those after it; a list of commands
follows by appending. -/

namespace Sys2Proof.Machine

/-! ### Reading a stream cut in two -/

theorem followCall_nil (lc : LcState) : followCall lc [] = some lc := by cases lc <;> rfl

theorem followCall_append (lc : LcState) (es fs : List LcEvent) :
    followCall lc (es ++ fs) = (followCall lc es).bind fun lc' => followCall lc' fs := by
  induction es generalizing lc with
  | nil => rw [followCall_nil]; rfl
  | cons e es ih => cases lc <;> cases e <;> simp [followCall, ih]

theorem followTone_append (cur : Option (BitVec 16)) (ms ns : List Message) :
    followTone cur (ms ++ ns) = followTone (followTone cur ms) ns := by
  induction ms generalizing cur with
  | nil => rfl
  | cons m ms ih => cases m <;> exact ih _

/-! ### The tone decoder's messages -/

/-- The messages of a result are TONE messages, and they take a reader from the tone `cur` to the current tone of the
result's decoder. -/
structure TellsTone (cur : Option Nat) (r : ToneDecoder × List Message) : Prop where
  noEvent : r.2.filterMap Message.event = []
  tone : followTone (cur.map toneId) r.2 = r.1.cur.map toneId

theorem TellsTone.silent (d : ToneDecoder) : TellsTone d.cur (d, []) := ⟨rfl, rfl⟩

theorem TellsTone.append {cur : Option Nat} {r r' : ToneDecoder × List Message} (h : TellsTone cur r)
    (h' : TellsTone r.1.cur r') : TellsTone cur (r'.1, r.2 ++ r'.2) where
  noEvent := by rw [List.filterMap_append, h.noEvent, h'.noEvent, List.nil_append]
  tone := by rw [followTone_append, h.tone, h'.tone]

theorem toneCount_cur (cand : Option Nat) (d : ToneDecoder) : (toneCount cand d).cur = d.cur := by
  cases cand with
  | none => rfl
  | some t =>
    by_cases h : d.cur = some t
    · rw [toneCount_same d t h]
    · rw [toneCount_other d t h]

/-- A promotion announces the new tone last; a drop announces the loss of the only tone. -/
theorem toneAct_tellsTone (c : Cfg) (ts : Word) (d : ToneDecoder) : TellsTone d.cur (toneAct c ts d) := by
  rcases toneAct_cases c ts d with ⟨t, -, -, h⟩ | ⟨-, a, -, -, h⟩ | ⟨-, -, h⟩ <;> rw [h]
  · cases d.cur <;> exact ⟨rfl, rfl⟩
  · exact ⟨rfl, rfl⟩
  · exact .silent d

theorem toneFsm_tellsTone (c : Cfg) (cand : Option Nat) (ts : Word) (d : ToneDecoder) :
    TellsTone d.cur (toneFsm c cand ts d) :=
  toneCount_cur cand d ▸ toneAct_tellsTone c ts (toneCount cand d)

theorem toneTurn_tellsTone (c : Cfg) (cf : ActiveConfig) (ts : Word) (x : F) (d : ToneDecoder) :
    TellsTone d.cur (toneTurn c cf ts x d) := by
  rcases toneTurn_cases c cf ts x d with ⟨-, h⟩ | ⟨-, h⟩ <;> rw [h]
  · exact toneFsm_tellsTone c _ ts { toneSample c cf x d with q1 := _, q2 := _, n := 0 }
  · exact .silent (toneSample c cf x d)

theorem toneSamples_tellsTone (c : Cfg) (cf : ActiveConfig) (ts : Word) (a : List F) (d : ToneDecoder) :
    TellsTone d.cur (toneSamples c cf ts a d) := by
  induction a generalizing d with
  | nil => exact .silent d
  | cons x xs ih => exact (toneTurn_tellsTone c cf ts x d).append (ih _)

theorem toneRebroadcast_tellsTone (c : Cfg) (ts : Word) (d : ToneDecoder) :
    TellsTone d.cur (toneRebroadcast c ts d) := by
  rcases toneRebroadcast_cases c ts d with ⟨t, hcur, -, h⟩ | ⟨-, h⟩ <;> rw [h]
  · exact ⟨rfl, by rw [hcur]; rfl⟩
  · exact .silent d

theorem toneRun_tellsTone (c : Cfg) (cf : ActiveConfig) (ts : Word) (a : List F) (d : ToneDecoder) :
    TellsTone d.cur (toneRun c cf ts a d) :=
  (toneSamples_tellsTone c cf ts a d).append (toneRebroadcast_tellsTone c ts _)

/-! ### The messages of one command -/

/-- The messages `ms` are those sent between the two records, and they take a reader from the call and the tone of the
first to those of the second. -/
structure Tells (ms : List Message) (ch ch' : Channel) : Prop where
  sent : ch'.msgPort = ch.msgPort ++ messageWords ms
  call : followCall ch.lc (ms.filterMap Message.event) = some ch'.lc
  tone : followTone (ch.tone.cur.map toneId) ms = ch'.tone.cur.map toneId

theorem Tells.append {ms ns : List Message} {ch ch' ch'' : Channel} (h : Tells ms ch ch') (h' : Tells ns ch' ch'') :
    Tells (ms ++ ns) ch ch'' where
  sent := by rw [h'.sent, h.sent, messageWords_append, List.append_assoc]
  call := by rw [List.filterMap_append, followCall_append, h.call]; exact h'.call
  tone := by rw [followTone_append, h.tone, h'.tone]

theorem Tells.nothing {ch ch' : Channel} (hsent : ch'.msgPort = ch.msgPort) (hlc : ch'.lc = ch.lc)
    (hcur : ch'.tone.cur = ch.tone.cur) : Tells [] ch ch' where
  sent := by simp [hsent]
  call := by rw [hlc]; exact followCall_nil ch.lc
  tone := by rw [hcur]; rfl

/-- A FAULT tells a reader neither of the call nor of the tone. -/
theorem Tells.takeFault (ch : Channel) (code : FaultCode) (tag : Byte) (info : Word) :
    Tells [.fault tag code info] ch (ch.takeFault code tag info) where
  sent := by rw [messageWords_singleton]; rfl
  call := followCall_nil ch.lc
  tone := rfl

/-- A request that does not fault leaves the working state alone, and its REPLY tells of neither either. -/
theorem Tells.request (c : Cfg) (s : State) (i : Instr) (h : faultOf c s i = none) (hreq : isRequest i = true) :
    ∃ ms, Tells ms s.active (channelEffect c s.activeNum s.calSel i s.active) := by
  obtain ⟨st, value, hsent⟩ := channelEffect_msgPort_of_request c s i h hreq
  obtain ⟨hlc, htone⟩ : (channelEffect c s.activeNum s.calSel i s.active).lc = s.active.lc ∧
      (channelEffect c s.activeNum s.calSel i s.active).tone = s.active.tone := by
    rcases channelEffect_cases c s.activeNum s.calSel i s.active with hq | ⟨_, _, _, rfl, -⟩ | ⟨_, _, _, _, rfl, -⟩ |
      ⟨_, rfl, -⟩
    · generalize channelEffect c s.activeNum s.calSel i s.active = ch' at hq
      cases hq
      exact ⟨rfl, rfl⟩
    all_goals cases hreq
  refine ⟨[.reply (commandTag i) st (rowOf i).code value], by simpa using hsent, ?_, ?_⟩
  · rw [hlc]; exact followCall_nil s.active.lc
  · rw [htone]; rfl

theorem followTone_audioOf (c : Cfg) (cf : ActiveConfig) (a : List F) (ts : Word) (r : Resampler) (sq : SqState)
    (cur : Option (BitVec 16)) : followTone cur (audioOf c cf a ts r sq) = cur := by
  cases sq with
  | muted => rfl
  | unmuted =>
    simp only [audioOf, audioMessages]
    generalize piecesOf _ _ _ = pieces
    induction pieces with
    | nil => rfl
    | cons p ps ih => exact ih

theorem filterMap_event_audioOf (c : Cfg) (cf : ActiveConfig) (a : List F) (ts : Word) (r : Resampler) (sq : SqState) :
    (audioOf c cf a ts r sq).filterMap Message.event = [] := by
  refine List.filterMap_eq_nil_iff.mpr fun m hm => ?_
  cases sq with
  | muted => cases hm
  | unmuted =>
    obtain ⟨p, -, rfl⟩ := List.mem_map.mp hm
    rfl

/-- The event of a block fits the lifecycle state it is keyed on, and leads to the one after the block (R273). -/
theorem followCall_lifecycleEvent (lc : LcState) (sq : SqState) :
    followCall lc [lifecycleEvent lc sq] = some (lifecycleNext sq) := by cases lc <;> cases sq <;> rfl

/-- A block tells of the call by its one LIFECYCLE message and of the tone by its TONE messages. -/
theorem Tells.runBlock (c : Cfg) (cid ts : Word) (i q : List F) (ch : Channel) :
    ∃ ms, Tells ms ch (runBlock c cid ts i q ch) := by
  have htones := toneRun_tellsTone c ch.config ts (demodulated c ch i q) ch.tone
  refine ⟨_, runBlock_msgPort c cid ts i q ch, ?_, ?_⟩
  · rw [runBlock_lc, ← followCall_lifecycleEvent ch.lc]
    simp [lifecycleMessage, Message.event, filterMap_event_audioOf, htones.noEvent]
  · rw [runBlock_tone, ← htones.tone]
    simp [lifecycleMessage, followTone, followTone_append, followTone_audioOf]

/-- Every command but RESET tells a reader of the call and the tone after it. -/
theorem Tells.command (c : Cfg) (s : State) (i : Instr) (hi : notReset i = true) :
    ∃ ms, Tells ms s.active (channelEffect c s.activeNum s.calSel i s.active) := by
  cases hf : faultOf c s i with
  | some f =>
    rw [channelEffect_of_faultOf c s i f.1 f.2 hf]
    exact ⟨_, .takeFault s.active f.1 (commandTag i) f.2⟩
  | none =>
    cases i with
    | sampleRate tag rate =>
      rcases sampleRate_fault_cases c s.activeNum s.calSel tag rate s.active with ⟨_, _, h, -⟩ | ⟨-, cf, he⟩
      · cases h.symm.trans hf
      · exact ⟨[], .nothing (by simp [channelEffect, he]) (by simp [channelEffect, he]) (by simp [channelEffect, he])⟩
    | iqBlock tag ts xi xq =>
      rcases iqBlock_fault_cases c s.activeNum tag ts xi xq s.active with ⟨_, _, h, -⟩ | ⟨-, he⟩
      · cases h.symm.trans hf
      · simpa only [channelEffect, he] using Tells.runBlock c (c.channelId s.activeNum) ts xi xq s.active
    | reset => cases hi
    | reply | lifecycle | audio | tone | fault => cases hf
    | _ => exact Tells.request c s _ hf rfl

/-- Settles O51, by induction on the list of commands. -/
theorem messageStreamTracksTheChannel : Obligations.MessageStreamTracksTheChannel := by
  intro is s t hreset h
  suffices ∃ ms, Tells ms s.active t.active by
    obtain ⟨ms, hms⟩ := this
    exact ⟨ms, hms.sent, hms.call, hms.tone⟩
  induction is generalizing s with
  | nil =>
    cases h
    exact ⟨[], .nothing rfl rfl rfl⟩
  | cons i is ih =>
    rw [execAll, exec_eq] at h
    obtain ⟨ms, hms⟩ := Tells.command Config.cfg s i (hreset i List.mem_cons_self)
    obtain ⟨ns, hns⟩ := ih _ (fun j hj => hreset j (List.mem_cons_of_mem i hj)) h
    exact ⟨ms ++ ns, hms.append hns⟩

end Sys2Proof.Machine
end

section
/-! O43: the candidate of R238 (43_ctcss.md). -/

namespace Sys2Proof.Machine

theorem candidate_eq_some_iff (c : Cfg) (pw : List F) (m : Nat) :
    candidate c pw = some m ↔ m < pw.length ∧ m = strongest pw ∧
      fgt (memRead pw m) (fmul c c.toneMult (othersSum c pw m)) = true ∧ fgt (memRead pw m) c.toneFloor = true := by
  refine ⟨candidate_some c pw m, ?_⟩
  rintro ⟨hm, rfl, hratio, hfloor⟩
  simp [candidate, Nat.ne_zero_of_lt hm, hratio, hfloor]

/-- A power above the multiple of the others' sum rules a NaN out everywhere: its own, and any other would be in the
sum. -/
theorem isNaN_eq_false_of_above_others (c : Cfg) (pw : List F) (m : Nat)
    (h : fgt (memRead pw m) (fmul c c.toneMult (othersSum c pw m)) = true) (t : Nat) (ht : t < pw.length) :
    isNaN (memRead pw t) = false := by
  by_contra hn
  rw [Bool.not_eq_false] at hn
  by_cases htm : t = m
  · rw [← htm, fgt_nan_left _ _ hn] at h
    cases h
  · rw [fgt_nan_right _ _ (isNaN_fmul c _ _ (.inr (isNaN_othersSum c pw m t ht htm hn)))] at h
    cases h

/-- Only one tone is greatest and above every lower index. -/
theorem eq_strongest (pw : List F) (m : Nat) (hm : m < pw.length)
    (hn : ∀ t < pw.length, isNaN (memRead pw t) = false)
    (hmax : ∀ t < pw.length, fgt (memRead pw t) (memRead pw m) = false)
    (hfirst : ∀ t < m, fgt (memRead pw m) (memRead pw t) = true) : m = strongest pw := by
  have hpos : 0 < pw.length := Nat.zero_lt_of_lt hm
  obtain ⟨hmax', hfirst'⟩ := strongest_first pw hpos hn
  rcases Nat.lt_trichotomy m (strongest pw) with hlt | heq | hgt
  · exact absurd (hfirst' m hlt) (by simp [hmax _ (strongest_lt pw hpos)])
  · exact heq
  · exact absurd (hfirst _ hgt) (by simp [hmax' m hm])

theorem othersSum_eq_foldl_filter (c : Cfg) (pw : List F) (m : Nat) :
    othersSum c pw m =
      ((List.range pw.length).filter (fun t => t ≠ m)).foldl (fun s t => fadd c s (memRead pw t)) 0#32 := by
  rw [List.foldl_filter, othersSum]
  refine List.foldl_ext _ _ _ fun s t _ => ?_
  by_cases h : t = m <;> simp [h]

/-- Settles O43: where the power passes the first test no power is a NaN, so `strongest` is the one tone that is
greatest and above every lower index. -/
theorem candidateIsTheFirstStrongestTone : Obligations.CandidateIsTheFirstStrongestTone := by
  refine ⟨fun _ => rfl, fun c pw m => ?_⟩
  rw [candidate_eq_some_iff, ← othersSum_eq_foldl_filter]
  constructor
  · rintro ⟨hm, rfl, hratio, hfloor⟩
    obtain ⟨hmax, hfirst⟩ :=
      strongest_first pw (Nat.zero_lt_of_lt hm) (isNaN_eq_false_of_above_others c pw _ hratio)
    exact ⟨hm, hmax, hfirst, hratio, hfloor⟩
  · rintro ⟨hm, hmax, hfirst, hratio, hfloor⟩
    exact ⟨hm, eq_strongest pw m hm (isNaN_eq_false_of_above_others c pw m hratio) hmax hfirst, hratio, hfloor⟩

end Sys2Proof.Machine
end

section
/-! O44: the debounce machine with both counts 2, window by window (43_ctcss.md R240, R243), and the rebroadcast
(R241). -/

namespace Sys2Proof.Machine

/-! ### The action part, one equation per action -/

theorem toneAct_promote (c : Cfg) (ts : Word) (d : ToneDecoder) (t : Nat) (hpend : d.pend = some t)
    (hmatch : (c.matchCount : Nat) ≤ d.matchCnt) :
    toneAct c ts d = ({ d with cur := some t, pend := none, matchCnt := 0, lossCnt := 0, lastTx := ts },
      promotionMessages d.cur t ts) := by
  simp [toneAct, promoted, hmatch, hpend]

theorem toneAct_drop (c : Cfg) (ts : Word) (d : ToneDecoder) (a : Nat) (hmatch : d.matchCnt < c.matchCount)
    (hcur : d.cur = some a) (hloss : (c.lossCount : Nat) ≤ d.lossCnt) :
    toneAct c ts d = ({ d with cur := none, pend := none, matchCnt := 0, lossCnt := 0 },
      [Message.tone (toneId a) true false ts]) := by
  simp [toneAct, promoted, droppedTone, Nat.not_le.mpr hmatch, hloss, hcur]

theorem toneAct_stay (c : Cfg) (ts : Word) (d : ToneDecoder) (hmatch : d.matchCnt < c.matchCount)
    (hloss : d.cur = none ∨ d.lossCnt < c.lossCount) : toneAct c ts d = (d, []) := by
  have hdrop : droppedTone c d = none := by
    rcases hloss with hcur | hlt
    · simp [droppedTone, hcur]
    · simp [droppedTone, Nat.not_le.mpr hlt]
  simp [toneAct, promoted, Nat.not_le.mpr hmatch, hdrop]

/-! ### One window -/

/-- A window that shows the current tone clears what counts against it. -/
theorem toneFsm_current (c : Cfg) (ts : Word) (d : ToneDecoder) (t : Nat) (hcur : d.cur = some t) :
    toneFsm c (some t) ts d = ({ d with lossCnt := 0, pend := none, matchCnt := 0 }, []) := by
  rw [toneFsm, toneCount_same d t hcur]
  exact toneAct_stay c ts _ c.matchCount.pos (.inr c.lossCount.pos)

/-- Any number of windows that show the current tone leave it announced as it was. -/
theorem toneWindows_current (c : Cfg) (t : Nat) (later : List Word) (d : ToneDecoder) (hcur : d.cur = some t) :
    let run := toneWindows c (later.map fun ts => (some t, ts)) d
    run.2 = [] ∧ run.1.cur = some t ∧ run.1.lastTx = d.lastTx := by
  induction later generalizing d with
  | nil => exact ⟨rfl, hcur, rfl⟩
  | cons ts later ih =>
    simp only [List.map_cons, toneWindows, toneFsm_current c ts d t hcur, List.nil_append]
    exact ih _ hcur

/-- A window without a tone, while none is current, ends what was pending. -/
theorem toneFsm_quiet (c : Cfg) (ts : Word) (d : ToneDecoder) (hcur : d.cur = none) :
    toneFsm c none ts d = ({ d with pend := none, matchCnt := 0 }, []) := by
  have hcount : toneCount none d = { d with pend := none, matchCnt := 0 } := by simp [toneCount_none, hcur]
  rw [toneFsm, hcount]
  exact toneAct_stay c ts _ c.matchCount.pos (.inl hcur)

section CountsOfTwo

variable (c : Cfg) (d : ToneDecoder) (t : Nat) (ts : Word)

/-- A tone's first window, while no tone is current, makes it pending. -/
theorem toneFsm_appears (hmatch : (c.matchCount : Nat) = 2) (hcur : d.cur = none) (hpend : d.pend = none) :
    toneFsm c (some t) ts d = ({ d with pend := some t, matchCnt := 1 }, []) := by
  have hcount : toneCount (some t) d = { d with pend := some t, matchCnt := 1 } := by
    rw [toneCount_other d t (by simp [hcur])]
    simp [hcur, hpend]
  rw [toneFsm, hcount]
  exact toneAct_stay c ts _ (by simp [hmatch]) (.inl hcur)

/-- The second window in a row of a tone that is not current promotes it. -/
theorem toneFsm_promotes (hmatch : (c.matchCount : Nat) = 2) (hcur : d.cur ≠ some t) (hpend : d.pend = some t)
    (hcnt : d.matchCnt = 1) :
    toneFsm c (some t) ts d = ({ d with cur := some t, pend := none, matchCnt := 0, lossCnt := 0, lastTx := ts },
      promotionMessages d.cur t ts) := by
  rw [toneFsm, toneCount_other d t hcur]
  exact toneAct_promote c ts _ t rfl (by simp [hpend, hcnt, hmatch])

/-- The decoder after a window that misses the current tone once more; the window's own tone, if any, has one match. -/
def ToneDecoder.afterMiss (d : ToneDecoder) (cand : Option Nat) : ToneDecoder :=
  { d with pend := cand, matchCnt := if cand.isSome then 1 else 0, lossCnt := d.lossCnt + 1 }

theorem ToneDecoder.afterMiss_matchCnt_lt (cand : Option Nat) (hmatch : (c.matchCount : Nat) = 2) :
    (d.afterMiss cand).matchCnt < c.matchCount := by
  cases cand <;> simp [afterMiss, hmatch]

section Miss

variable {c d t} {cand : Option Nat} (hcur : d.cur = some t) (hcand : cand ≠ some t)
  (hnew : cand = none ∨ d.pend ≠ cand)

include hcur hcand hnew

theorem toneCount_miss : toneCount cand d = d.afterMiss cand := by
  cases cand with
  | none => simp [toneCount_none, hcur, ToneDecoder.afterMiss]
  | some u =>
    have hpend : d.pend ≠ some u := hnew.resolve_left (by simp)
    rw [toneCount_other d u (hcur ▸ hcand.symm)]
    simp [hcur, hpend, ToneDecoder.afterMiss]

/-- The first window without the current tone keeps it. -/
theorem toneFsm_misses (hmatch : (c.matchCount : Nat) = 2) (hloss : (c.lossCount : Nat) = 2) (hcnt : d.lossCnt = 0) :
    toneFsm c cand ts d = (d.afterMiss cand, []) := by
  rw [toneFsm, toneCount_miss hcur hcand hnew]
  exact toneAct_stay c ts _ (d.afterMiss_matchCnt_lt c cand hmatch)
    (.inr (by simp [ToneDecoder.afterMiss, hcnt, hloss]))

/-- The second window in a row without it loses it, unless both show the same other tone. -/
theorem toneFsm_loses (hmatch : (c.matchCount : Nat) = 2) (hloss : (c.lossCount : Nat) = 2) (hcnt : d.lossCnt = 1) :
    toneFsm c cand ts d = ({ d with cur := none, pend := none, matchCnt := 0, lossCnt := 0 },
      [Message.tone (toneId t) true false ts]) := by
  rw [toneFsm, toneCount_miss hcur hcand hnew]
  exact toneAct_drop c ts _ t (d.afterMiss_matchCnt_lt c cand hmatch) hcur
    (by simp [ToneDecoder.afterMiss, hcnt, hloss])

end Miss

end CountsOfTwo

/-! ### The statement, part by part -/

theorem toneWindows_singleton (c : Cfg) (cand : Option Nat) (ts : Word) (d : ToneDecoder) :
    toneWindows c [(cand, ts)] d = toneFsm c cand ts d := by simp [toneWindows]

/-- After a window that sends nothing the rest runs from the decoder it leaves. -/
theorem toneWindows_cons_silent {c : Cfg} {cand : Option Nat} {ts : Word} {d d' : ToneDecoder}
    (h : toneFsm c cand ts d = (d', [])) (ws : List (Option Nat × Word)) :
    toneWindows c ((cand, ts) :: ws) d = toneWindows c ws d' := by simp [toneWindows, h]

/-- A tone that stays is announced once, at its second window. -/
theorem toneWindows_detect (c : Cfg) (d : ToneDecoder) (t : Nat) (ts₁ ts₂ : Word) (later : List Word)
    (hmatch : (c.matchCount : Nat) = 2) (hcur : d.cur = none) (hpend : d.pend = none) :
    let held := toneWindows c ((some t, ts₁) :: (some t, ts₂) :: later.map (fun ts => (some t, ts))) d
    held.2 = [.tone (toneId t) false false ts₂] ∧ held.1.cur = some t ∧ held.1.lastTx = ts₂ := by
  have hfirst := toneFsm_appears c d t ts₁ hmatch hcur hpend
  have hsecond := toneFsm_promotes c { d with pend := some t, matchCnt := 1 } t ts₂ hmatch (by simp [hcur]) rfl rfl
  obtain ⟨hsilent, hkept, hlast⟩ := toneWindows_current c t later
    { d with cur := some t, pend := none, matchCnt := 0, lossCnt := 0, lastTx := ts₂ } rfl
  rw [toneWindows_cons_silent hfirst]
  simp only [toneWindows, hsecond]
  exact ⟨by simp [hsilent, promotionMessages, hcur], hkept, hlast⟩

/-- The end of a block: the current tone again if it is due, else nothing (R241). -/
theorem toneRun_rebroadcast (c : Cfg) (cf : ActiveConfig) (ts : Word) (a : List F) (d : ToneDecoder) :
    let run := toneSamples c cf ts a d
    (∀ t, run.1.cur = some t → c.rebroadcastMs ≤ ts - run.1.lastTx →
      toneRun c cf ts a d =
        ({ run.1 with lastTx := ts }, run.2 ++ [.tone (toneId t) false true ts])) ∧
    (run.1.cur = none ∨ ts - run.1.lastTx < c.rebroadcastMs → toneRun c cf ts a d = run) := by
  intro run
  have hrun : toneRun c cf ts a d = ((toneRebroadcast c ts run.1).1, run.2 ++ (toneRebroadcast c ts run.1).2) := rfl
  rw [hrun]
  constructor
  · intro t hcur hdue
    simp [toneRebroadcast, hcur, tsdiff, hdue]
  · rintro (hcur | hearly)
    · simp [toneRebroadcast, hcur]
    · cases hcur : run.1.cur with
      | none => simp [toneRebroadcast, hcur]
      | some t => simp [toneRebroadcast, hcur, tsdiff, BitVec.not_le.mpr hearly]

/-- Settles O44: each part is the rule of its first window, then the rule of its second. -/
theorem toneDetectionAndLossTakeTwoWindows : Obligations.ToneDetectionAndLossTakeTwoWindows := by
  intro c hmatch hloss
  refine ⟨?detect, ?loss, ?displace, fun cf ts a d => toneRun_rebroadcast c cf ts a d⟩
  case detect =>
    intro d t ts₁ ts₂ later hcur hpend
    obtain ⟨hmsg, hheld, hlast⟩ := toneWindows_detect c d t ts₁ ts₂ later hmatch hcur hpend
    refine ⟨hmsg, hheld, hlast, ?_⟩
    rw [toneWindows_cons_silent (toneFsm_appears c d t ts₁ hmatch hcur hpend), toneWindows_singleton]
    exact congrArg Prod.snd (toneFsm_quiet c ts₂ { d with pend := some t, matchCnt := 1 } hcur)
  case loss =>
    intro d t ts₁ ts₂ hcur hcnt
    have hfirst : toneFsm c none ts₁ d = (d.afterMiss none, []) :=
      toneFsm_misses ts₁ hcur nofun (.inl rfl) hmatch hloss hcnt
    have hcur' : (d.afterMiss none).cur = some t := hcur
    have hcnt' : (d.afterMiss none).lossCnt = 1 := congrArg (· + 1) hcnt
    simp only [toneWindows_cons_silent hfirst, toneWindows_singleton, toneFsm_current c ts₂ _ t hcur',
      toneFsm_loses (cand := none) ts₂ hcur' nofun (.inl rfl) hmatch hloss hcnt', hcur']
    exact ⟨trivial, trivial, trivial, rfl, trivial⟩
  case displace =>
    intro d t u v ts₁ ts₂ hcur hpend hcnt hut hvt hvu
    have hfirst : toneFsm c (some u) ts₁ d = (d.afterMiss (some u), []) :=
      toneFsm_misses ts₁ hcur (by simpa using hut) (.inr (by simp [hpend])) hmatch hloss hcnt
    have hcur' : (d.afterMiss (some u)).cur = some t := hcur
    have hcnt' : (d.afterMiss (some u)).lossCnt = 1 := congrArg (· + 1) hcnt
    have hpend' : (d.afterMiss (some u)).pend = some u := rfl
    refine ⟨?once, ?back, ?gone, ?other, ?displaced⟩
    all_goals rw [toneWindows_cons_silent hfirst]
    case once => exact ⟨rfl, hcur', hcnt'⟩
    all_goals rw [toneWindows_singleton]
    case back =>
      rw [toneFsm_current c ts₂ _ t hcur']
      exact ⟨rfl, hcur', rfl⟩
    case gone =>
      rw [toneFsm_loses (cand := none) ts₂ hcur' nofun (.inl rfl) hmatch hloss hcnt']
      exact ⟨rfl, rfl⟩
    case other =>
      rw [toneFsm_loses ts₂ hcur' (by simpa using hvt) (.inr (by simpa [hpend'] using hvu.symm)) hmatch hloss hcnt']
      exact ⟨rfl, rfl, rfl, rfl⟩
    case displaced =>
      rw [toneFsm_promotes c _ u ts₂ hmatch (by simpa [hcur'] using hut.symm) hpend' rfl, hcur']
      exact ⟨rfl, rfl, rfl, rfl⟩

end Sys2Proof.Machine
end

section
/-! O42: a tone window over its own samples (43_ctcss.md R234 to R239, R242). Samples that stay short of the window
fill it; the fill is the pre-filter over the samples and each tone's recursion over the pre-filter's output. -/

namespace Sys2Proof.Machine

/-! ### Filling a window -/

/-- The decoder after samples none of which is taken to complete a window. -/
def toneFill (c : Cfg) (cf : ActiveConfig) (a : List F) (d : ToneDecoder) : ToneDecoder :=
  a.foldl (fun d x => toneSample c cf x d) d

theorem toneFill_cons (c : Cfg) (cf : ActiveConfig) (x : F) (xs : List F) (d : ToneDecoder) :
    toneFill c cf (x :: xs) d = toneFill c cf xs (toneSample c cf x d) := rfl

/-- Samples that do not complete the window only fill it. -/
theorem toneSamples_short (c : Cfg) (cf : ActiveConfig) (ts : Word) (a : List F) (d : ToneDecoder)
    (h : d.n + a.length < cf.toneWin) : toneSamples c cf ts a d = (toneFill c cf a d, []) := by
  induction a generalizing d with
  | nil => rfl
  | cons x xs ih =>
    rw [List.length_cons] at h
    rcases toneTurn_cases c cf ts x d with ⟨hfull, -⟩ | ⟨-, hturn⟩
    · omega
    · have hfill : (toneSample c cf x d).n = d.n + 1 := rfl
      simp only [toneSamples, hturn, ih (toneSample c cf x d) (by omega)]
      rfl

/-- Samples that just complete the window fill it and are then evaluated. -/
theorem toneSamples_full (c : Cfg) (cf : ActiveConfig) (ts : Word) (a : List F) (d : ToneDecoder) (ha : a ≠ [])
    (h : d.n + a.length = cf.toneWin) : toneSamples c cf ts a d = toneWindowEnd c cf ts (toneFill c cf a d) := by
  induction a generalizing d with
  | nil => exact absurd rfl ha
  | cons x xs ih =>
    rw [List.length_cons] at h
    rcases toneTurn_cases c cf ts x d with ⟨hfull, hturn⟩ | ⟨hroom, hturn⟩
    · obtain rfl : xs = [] := List.length_eq_zero_iff.mp (by omega)
      simp [toneSamples, hturn, toneFill]
    · have hfill : (toneSample c cf x d).n = d.n + 1 := rfl
      have hxs : xs ≠ [] := by
        rintro rfl
        exact hroom (by simpa using h)
      simp only [toneSamples, hturn, ih (toneSample c cf x d) hxs (by omega), List.nil_append]
      rfl

/-! ### The fill tone by tone -/

/-- The two registers of tone `t` after the pre-filtered samples `y` (R236). -/
def toneRegs (c : Cfg) (coeff q1 q2 y : List F) (t : Nat) : F × F :=
  y.foldl (fun p s => (goertzelNext c (memRead coeff t) p.1 p.2 s, p.1)) (memRead q1 t, memRead q2 t)

theorem map_memRead_range (m : List F) : (List.range m.length).map (memRead m) = m :=
  List.ext_getElem (by simp) fun t ht _ => by
    have hlt : t < m.length := by simpa using ht
    simp [memRead, hlt]

/-- One pre-filtered sample into the whole bank is one into each tone's registers. -/
theorem toneRegs_cons (c : Cfg) (coeff q1 q2 : List F) (s : F) (y : List F) (t : Nat) (hk : t < coeff.length)
    (h1 : q1.length = coeff.length) (h2 : q2.length = coeff.length) :
    toneRegs c coeff q1 q2 (s :: y) t = toneRegs c coeff (goertzelStep c coeff q1 q2 s).1 q1 y t := by
  rw [toneRegs, toneRegs, goertzelStep_get c coeff q1 q2 s t hk (h1 ▸ hk) (h2 ▸ hk)]
  rfl

/-- The fill runs the pre-filter over the samples and every tone's recursion over what it returns. -/
theorem toneFill_eq (c : Cfg) (cf : ActiveConfig) (a : List F) (d : ToneDecoder)
    (h1 : d.q1.length = cf.coeff.length) (h2 : d.q2.length = cf.coeff.length) :
    let x := fir c cf.toneTaps a d.dl
    let reg := toneRegs c cf.coeff d.q1 d.q2 x.1
    let tones := List.range cf.coeff.length
    toneFill c cf a d =
      { d with
        dl := x.2
        q1 := tones.map fun t => (reg t).1
        q2 := tones.map fun t => (reg t).2
        n := d.n + a.length } := by
  induction a generalizing d with
  | nil =>
    have hq1 := map_memRead_range d.q1
    have hq2 := map_memRead_range d.q2
    rw [h1] at hq1
    rw [h2] at hq2
    simp [toneFill, fir, toneRegs, hq1, hq2]
  | cons x xs ih =>
    have hregs : ∀ t ∈ List.range cf.coeff.length,
        toneRegs c cf.coeff d.q1 d.q2 (fir c cf.toneTaps (x :: xs) d.dl).1 t =
          toneRegs c cf.coeff (toneSample c cf x d).q1 (toneSample c cf x d).q2
            (fir c cf.toneTaps xs (toneSample c cf x d).dl).1 t :=
      fun t ht => toneRegs_cons c cf.coeff d.q1 d.q2 _ _ t (List.mem_range.mp ht) h1 h2
    have hsize : (toneSample c cf x d).q1.length = cf.coeff.length := goertzelStep_length c _ _ _ _ _ rfl h1 h2
    rw [toneFill_cons, ih (toneSample c cf x d) hsize h1]
    have hfill : (toneSample c cf x d).n + xs.length = d.n + (x :: xs).length := by
      change d.n + 1 + xs.length = d.n + (xs.length + 1)
      omega
    simp only [hfill, ← List.map_congr_left fun t ht => congrArg Prod.fst (hregs t ht),
      ← List.map_congr_left fun t ht => congrArg Prod.snd (hregs t ht)]
    rfl

/-- The powers of registers given tone by tone (R237). -/
theorem tonePowers_map (c : Cfg) (coeff : List F) (reg : Nat → F × F) :
    let tones := List.range coeff.length
    tonePowers c coeff (tones.map fun t => (reg t).1) (tones.map fun t => (reg t).2) =
      tones.map fun t => tonePower c (memRead coeff t) (reg t).1 (reg t).2 := by
  refine List.ext_getElem (by simp [tonePowers]) fun t ht _ => ?_
  have hlt : t < coeff.length := by simpa [tonePowers] using ht
  simp [tonePowers, memRead, hlt]

/-- Settles O42: short of the window the samples fill it; just completing it they fill it and are evaluated. -/
theorem windowIsEvaluatedFromItsOwnSamples : Obligations.WindowIsEvaluatedFromItsOwnSamples := by
  intro c cf ts a d h1 h2
  refine ⟨fun hshort => ?_, fun ha hfull => ?_⟩
  · rw [toneSamples_short c cf ts a d hshort, toneFill_eq c cf a d h1 h2]
    rfl
  · rw [toneSamples_full c cf ts a d ha hfull, toneFill_eq c cf a d h1 h2]
    simp only [toneWindowEnd, tonePowers_map, clearMem, zeros, List.length_map, List.length_range]
    rfl

end Sys2Proof.Machine
end

section
/-! O45, O46: the resampler by the total phase `RS_ACC + o * RS_M` of output `o`: its quotient by `RS_L` is the input at
which the output is computed, its remainder the phase of the taps (44_resampler_orchestrator.md R262, R263). -/

namespace Sys2Proof.Machine

/-! ### The number of samples -/

/-- The rounded-up quotient is the one number whose multiple lies from `a` on and less than `b` above it. -/
theorem ceildiv_eq_of_bounds {a b n : Nat} (hlow : a ≤ n * b) (hhigh : n * b < a + b) : ceildiv a b = n := by
  refine Nat.div_eq_of_lt_le ?_ ?_
  · omega
  · rw [Nat.succ_mul]; omega

theorem lt_ceildiv_iff {a b j : Nat} (hb : 0 < b) : j < ceildiv a b ↔ j * b < a := by
  rw [ceildiv, Nat.lt_iff_add_one_le, Nat.le_div_iff_mul_le hb, Nat.succ_mul]
  omega

/-- Block by block or all at once: the same samples, the same resampler after. -/
theorem resampleBlocks_eq_resample_flatten (c : Cfg) (l m : Nat) (taps : List F) (blocks : List (List F))
    (r : Resampler) : resampleBlocks c l m taps blocks r = resample c l m taps blocks.flatten r := by
  induction blocks generalizing r with
  | nil => rfl
  | cons b bs ih =>
    rw [List.flatten_cons, resample_append]
    simp only [resampleBlocks, ih]

/-- Settles O45: the balance of the accumulator, with both its values below `RS_M`. -/
theorem resamplerSampleCount : Obligations.ResamplerSampleCount := by
  intro c l m taps a r hm hr
  have hbalance := fun xs => resample_balance c l m taps hm xs r
  have hafter := fun xs => resample_acc_lt c l m taps hm xs r hr
  have hacc := hafter a
  have hb := hbalance a
  refine ⟨?count, by omega, hacc, fun blocks => ?total⟩
  case count =>
    split
    case isTrue hmore => exact (ceildiv_eq_of_bounds (by omega) (by omega)).symm
    case isFalse hfew =>
      refine Nat.eq_zero_of_not_pos fun hpos => ?_
      have hone : m ≤ (resample c l m taps a r).1.length * m := Nat.le_mul_of_pos_left m hpos
      omega
  case total =>
    simp only [resampleBlocks_eq_resample_flatten]
    have htotal := hbalance blocks.flatten
    have hlast := hafter blocks.flatten
    omega

/-! ### One output -/

/-- The loop over a phase's taps is the fold over as many of them as there are from `j` on. -/
theorem phaseLoop_eq_foldl (c : Cfg) (l p : Nat) (taps dl : List F) (fuel j count : Nat) (acc : F)
    (hcount : ∀ i, p + (j + i) * l < taps.length ↔ i < count) (hfuel : count ≤ fuel) :
    phaseLoop c l p taps dl fuel j acc = (List.range' j count).foldl (fun acc j =>
      fadd c acc (fmul c (memRead taps (p + j * l)) (memRead dl j))) acc := by
  induction fuel generalizing j count acc with
  | zero =>
    obtain rfl := Nat.le_zero.mp hfuel
    rfl
  | succ fuel ih =>
    have hfirst : p + j * l < taps.length ↔ 0 < count := hcount 0
    rw [phaseLoop]
    cases count with
    | zero =>
      rw [if_neg fun h => Nat.not_lt_zero 0 (hfirst.mp h)]
      rfl
    | succ count =>
      have hnext : ∀ i, p + (j + 1 + i) * l < taps.length ↔ i < count := fun i => by
        rw [Nat.add_assoc, Nat.add_comm 1 i, hcount (i + 1), Nat.add_lt_add_iff_right]
      rw [if_pos (hfirst.mpr count.succ_pos), ih (j + 1) count _ hnext (Nat.le_of_succ_le_succ hfuel)]
      rfl

/-- One output, word by word: the taps of phase `p`, each with the delay line's word of its place (R262). -/
theorem phaseOutput_eq_foldl_range (c : Cfg) (l p : Nat) (taps dl : List F) (hl : 0 < l) :
    phaseOutput c l p taps dl = (List.range (ceildiv (taps.length - p) l)).foldl (fun acc j =>
      fadd c acc (fmul c (memRead taps (p + j * l)) (memRead dl j))) 0#32 := by
  have hcount : ∀ i, p + (0 + i) * l < taps.length ↔ i < ceildiv (taps.length - p) l := fun i => by
    rw [lt_ceildiv_iff hl, Nat.zero_add]
    omega
  have hfuel : ceildiv (taps.length - p) l ≤ taps.length := Nat.le_of_not_lt fun h => by
    have hlast := (lt_ceildiv_iff hl).mp h
    have hmul : taps.length ≤ taps.length * l := Nat.le_mul_of_pos_right _ hl
    omega
  rw [phaseOutput, phaseLoop_eq_foldl c l p taps dl _ 0 _ _ hcount hfuel, List.range_eq_range']

/-! ### Which output is computed where -/

/-- The turns of one input: output `o` is of the phase the accumulator has then, which is below `RS_L`. -/
theorem resampleTurns_output (c : Cfg) (l m : Nat) (taps dl : List F) (fuel acc o : Nat)
    (ho : o < (resampleTurns c l m taps dl fuel acc).1.length) :
    acc + o * m < l ∧
      (resampleTurns c l m taps dl fuel acc).1[o]? = some (phaseOutput c l (acc + o * m) taps dl) := by
  induction fuel generalizing acc o with
  | zero => exact absurd ho (Nat.not_lt_zero o)
  | succ fuel ih =>
    rw [resampleTurns_succ] at ho ⊢
    split at ho
    case isFalse => exact absurd ho (Nat.not_lt_zero o)
    case isTrue hacc =>
      rw [if_pos hacc]
      cases o with
      | zero => simpa using hacc
      | succ o =>
        have hphase : acc + (o + 1) * m = acc + m + o * m := by rw [Nat.succ_mul]; omega
        rw [hphase]
        exact ih (acc + m) o (Nat.lt_of_succ_lt_succ ho)

/-- Output `o` is computed at the input and of the phase that its total phase gives. -/
theorem resample_output (c : Cfg) (l m : Nat) (taps xs : List F) (r : Resampler) (o : Nat) (hl : 0 < l) (hm : 0 < m)
    (ho : o < (resample c l m taps xs r).1.length) :
    let n := (r.acc + o * m) / l
    n < xs.length ∧ (resample c l m taps xs r).1[o]? =
      some (phaseOutput c l ((r.acc + o * m) % l) taps (pushAll r.dl (xs.take (n + 1)))) := by
  induction xs generalizing r o with
  | nil => exact absurd ho (Nat.not_lt_zero o)
  | cons x xs ih =>
    rw [resample_cons] at ho ⊢
    simp only at ho ⊢
    generalize hturn : resampleTurns c l m taps (push r.dl x) l r.acc = turn at ho ⊢
    by_cases hfirst : o < turn.1.length
    · obtain ⟨hphase, hout⟩ := resampleTurns_output c l m taps (push r.dl x) l r.acc o (hturn ▸ hfirst)
      rw [hturn] at hout
      rw [List.getElem?_append_left hfirst, Nat.div_eq_of_lt hphase, Nat.mod_eq_of_lt hphase]
      exact ⟨Nat.succ_pos _, hout⟩
    · obtain ⟨o', rfl⟩ := Nat.exists_eq_add_of_le (Nat.le_of_not_lt hfirst)
      have hacc : turn.2 = r.acc + turn.1.length * m := hturn ▸ resampleTurns_acc c l m taps _ l r.acc
      have hend : l ≤ turn.2 := hturn ▸ (resampleTurns_bounds c l m taps (push r.dl x) hm l r.acc (by omega)).1
      have hphase : r.acc + (turn.1.length + o') * m = turn.2 - l + o' * m + l := by rw [Nat.add_mul]; omega
      rw [List.length_append] at ho
      obtain ⟨hin, hout⟩ := ih { dl := push r.dl x, acc := turn.2 - l } o' (by omega)
      rw [List.getElem?_append_right (Nat.le_add_right _ _), Nat.add_sub_cancel_left, hphase, Nat.add_div_right _ hl,
        Nat.add_mod_right]
      exact ⟨Nat.succ_lt_succ hin, hout⟩

theorem memRead_replicate_zero (n j : Nat) : memRead (List.replicate n 0#32) j = 0#32 := by
  rw [memRead, List.getD_eq_getElem?_getD, List.getElem?_getD_replicate_default_eq]

/-- Settles O46: the input and the phase of each output, its sum over the delay line read word by word. -/
theorem resamplerOutputsArePolyphaseSums : Obligations.ResamplerOutputsArePolyphaseSums := by
  intro c l m taps xs hl hm y o ho n p
  obtain ⟨hin, hout⟩ := resample_output c l m taps xs _ o hl hm ho
  simp only [Nat.zero_add] at hin hout
  refine ⟨hin, hout.trans (congrArg some ?_)⟩
  rw [phaseOutput_eq_foldl_range c l _ taps _ hl]
  refine List.foldl_ext _ _ _ fun acc j hj => ?_
  have hword : j < (List.replicate (ceildiv taps.length l) 0#32).length := by
    rw [List.length_replicate, lt_ceildiv_iff hl]
    have hphase := (lt_ceildiv_iff hl).mp (List.mem_range.mp hj)
    omega
  rw [memRead_pushAll_take _ xs _ j hin hword, memRead_replicate_zero]

end Sys2Proof.Machine
end

section
/-! O28: the three faults of IQ_BLOCK (44_resampler_orchestrator.md R270), as the fault table has them. -/

namespace Sys2Proof.Machine

/-- A command for which the fault table has a fault leaves `CAL_SEL` as it is: CAL_WRITE faults on the codes it refuses. -/
theorem calAfter_of_faultOf (c : Cfg) (s : State) (i : Instr) (f : FaultCode × Word) (h : faultOf c s i = some f) :
    calAfter c s.calSel i = s.calSel := by
  cases i with
  | calWrite tag code =>
    cases hok : calCodeOk c code with
    | true => simp [faultOf, hok] at h
    | false => simp [calAfter, hok]
  | _ => rfl

/-- A command for which the fault table has a fault changes its channel's `FSTAT` and message port, and nothing else of
the state (60_exceptions.md R291). -/
theorem exec_of_faultOf (i : Instr) (s : State) (code : FaultCode) (info : Word)
    (h : faultOf Config.cfg s i = some (code, info)) :
    exec i s = .next { s with
      active :=
        { s.active with
          fstat := s.active.fstat ||| fstatBit code
          msgPort := s.active.msgPort ++ [faultHeader (commandTag i) (BitVec.ofNat 16 code.number), info] } } := by
  rw [exec_eq, channelEffect_of_faultOf Config.cfg s i code info h,
    calAfter_of_faultOf Config.cfg s i (code, info) h]
  rfl

/-- Settles O28, one row of the fault table after the other. -/
theorem iqBlockFaultsInOrder : Obligations.IqBlockFaultsInOrder := by
  intro tag ts i q s ch k
  have hfaults := exec_of_faultOf (.iqBlock tag ts i q) s
  refine ⟨fun h0 => hfaults .badArgument 0#32 ?empty,
    fun h0 hconf => hfaults .precondNotConfigured 0#32 ?config,
    fun h0 hconf hvar hlane => hfaults .precondLane (BitVec.ofNat 32 k) ?lane⟩
  case empty => exact if_pos h0
  case config => exact (if_neg h0).trans (if_pos hconf)
  case lane => exact (if_neg h0).trans ((if_neg (Bool.ne_false_iff.mpr hconf)).trans (if_pos ⟨hvar, hlane⟩))

end Sys2Proof.Machine
end

section
/-! O30: the messages of a completed block (44_resampler_orchestrator.md R271, R273, R275). -/

namespace Sys2Proof.Machine

/-! ### AUDIO and TONE messages -/

theorem audioOf_isAudio (c : Cfg) (cf : ActiveConfig) (a : List F) (ts : Word) (r : Resampler) (sq : SqState) :
    ∀ m ∈ audioOf c cf a ts r sq, m.isAudio = true ∧ m.timestamp = some ts := by
  intro m hm
  cases sq with
  | muted => cases hm
  | unmuted =>
    obtain ⟨p, -, rfl⟩ := List.mem_map.mp hm
    exact ⟨rfl, rfl⟩

/-- A TONE message with the timestamp `ts` that is no rebroadcast of a loss. -/
def Message.IsToneAt (ts : Word) (m : Message) : Prop := m.isSoundTone = true ∧ m.timestamp = some ts

theorem promotionMessages_isToneAt (old : Option Nat) (t : Nat) (ts : Word) :
    ∀ m ∈ promotionMessages old t ts, m.IsToneAt ts := by
  cases old <;> simp [promotionMessages, Message.IsToneAt, Message.isSoundTone, Message.timestamp]

theorem toneFsm_isToneAt (c : Cfg) (cand : Option Nat) (ts : Word) (d : ToneDecoder) :
    ∀ m ∈ (toneFsm c cand ts d).2, m.IsToneAt ts := by
  intro m hm
  rw [toneFsm] at hm
  rcases toneAct_cases c ts (toneCount cand d) with ⟨t, -, -, e⟩ | ⟨-, a, -, -, e⟩ | ⟨-, -, e⟩ <;> rw [e] at hm
  · exact promotionMessages_isToneAt _ t ts m hm
  · exact List.mem_singleton.mp hm ▸ ⟨rfl, rfl⟩
  · cases hm

theorem toneTurn_isToneAt (c : Cfg) (cf : ActiveConfig) (ts : Word) (x : F) (d : ToneDecoder) :
    ∀ m ∈ (toneTurn c cf ts x d).2, m.IsToneAt ts := by
  rcases toneTurn_cases c cf ts x d with ⟨-, h⟩ | ⟨-, h⟩ <;> rw [h]
  · exact toneFsm_isToneAt c _ ts _
  · exact fun m hm => nomatch hm

theorem toneSamples_isToneAt (c : Cfg) (cf : ActiveConfig) (ts : Word) (a : List F) (d : ToneDecoder) :
    ∀ m ∈ (toneSamples c cf ts a d).2, m.IsToneAt ts := by
  induction a generalizing d with
  | nil => exact fun m hm => nomatch hm
  | cons x xs ih => exact fun m hm => (List.mem_append.mp hm).elim (toneTurn_isToneAt c cf ts x d m) (ih _ m)

theorem toneRebroadcast_isToneAt (c : Cfg) (ts : Word) (d : ToneDecoder) :
    ∀ m ∈ (toneRebroadcast c ts d).2, m.IsToneAt ts := by
  intro m hm
  rcases toneRebroadcast_cases c ts d with ⟨t, -, -, h⟩ | ⟨-, h⟩ <;> rw [h] at hm
  · exact List.mem_singleton.mp hm ▸ ⟨rfl, rfl⟩
  · cases hm

theorem toneRun_isToneAt (c : Cfg) (cf : ActiveConfig) (ts : Word) (a : List F) (d : ToneDecoder) :
    ∀ m ∈ (toneRun c cf ts a d).2, m.IsToneAt ts := fun m hm =>
  (List.mem_append.mp hm).elim (toneSamples_isToneAt c cf ts a d m) (toneRebroadcast_isToneAt c ts _ m)

/-! ### The block -/

/-- IQ_BLOCK with its preconditions met leaves what its block leaves. -/
theorem exec_iqBlock_eq_runBlock (tag : Byte) (ts : Word) (i q : List F) (s : State) (hlen : i.length ≠ 0)
    (hconf : s.active.config.configured = true)
    (hlane : s.active.config.implActive = 1#8 ∨
      decimatedLength s.active i.length % s.active.config.implActive.toNat = 0) :
    exec (.iqBlock tag ts i q) s = .next { s with
      active := runBlock Config.cfg (Config.cfg.channelId s.activeNum) ts i q s.active } :=
  congrArg (fun block => (.next { s with active := block } : StepResult))
    (iqBlock_eq_runBlock Config.cfg s.activeNum tag ts i q s.active hlen hconf (laneOk_of_divides _ _ hlane))

theorem runBlock_gain (c : Cfg) (cid ts : Word) (i q : List F) (ch : Channel) :
    (runBlock c cid ts i q ch).regs.gain = ch.regs.gain := by
  obtain ⟨th, hregs⟩ := squelchStage_regs c (demodulated c ch i q) (frontEnd c ch i q).2
  rw [runBlock_regs, hregs]
  rfl

/-- The table of R273: the event and the state after it, by the state before and the mute flag. -/
structure LifecycleTable (lc : LcState) (sq : SqState) (ev : LcEvent) (next : LcState) : Prop where
  start : lc = .idle → sq = .unmuted → ev = .start ∧ next = .call
  continuation : lc = .call → sq = .unmuted → ev = .continuation ∧ next = .call
  ending : lc = .call → sq = .muted → ev = .ending ∧ next = .idle
  idle : lc = .idle → sq = .muted → ev = .idle ∧ next = .idle

theorem lifecycleEvent_table (lc : LcState) (sq : SqState) :
    LifecycleTable lc sq (lifecycleEvent lc sq) (lifecycleNext sq) := by
  constructor <;> (rintro rfl rfl; exact ⟨rfl, rfl⟩)

/-- Settles O30: the event by the table, the messages of each kind by its stage. -/
theorem blockMessagesFollowTheLifecycleTable : Obligations.BlockMessagesFollowTheLifecycleTable := by
  intro tag ts i q s ch k _ hlen hconf hlane
  let c := Config.cfg
  let cid := c.channelId s.activeNum
  let a := demodulated c ch i q
  let sq := (squelched c ch i q).squelch.state
  obtain ⟨hstart, hcontinuation, hending, hidle⟩ := lifecycleEvent_table ch.lc sq
  refine ⟨_, lifecycleEvent ch.lc sq, lifecycleEvent ch.lc sq == .start, audioOf c ch.config a ts ch.resampler sq,
    (toneRun c ch.config ts a ch.tone).2, exec_iqBlock_eq_runBlock tag ts i q s hlen hconf hlane,
    runBlock_msgPort c cid ts i q ch, ?_⟩
  simp only [runBlock_squelch, runBlock_lc, runBlock_resampler]
  refine ⟨hstart, hcontinuation, hending, hidle, beq_iff_eq, audioOf_isAudio c ch.config a ts ch.resampler sq, ?muted,
    toneRun_isToneAt c ch.config ts a ch.tone, runBlock_gain c cid ts i q ch⟩
  case muted =>
    intro hmuted
    rw [show sq = .muted from hmuted, hmuted]
    exact ⟨rfl, rfl⟩

end Sys2Proof.Machine
end

section
/-! O31: a block too short for a demodulated sample (44_resampler_orchestrator.md R272). -/

namespace Sys2Proof.Machine

/-- A call too short for an output pushes its samples and counts them. -/
theorem decimate_short (c : Cfg) (d : Nat) (taps xs dl : List F) (r : Nat) (hxs : xs.length ≠ 0)
    (hshort : r + xs.length < d) : decimate c d taps xs dl r = ([], pushAll dl xs, r + xs.length) := by
  have hr : r < d := by omega
  have hout : (decimate c d taps xs dl r).1 = [] :=
    List.length_eq_zero_iff.mp ((decimate_length c d taps xs dl r hr).trans (Nat.div_eq_of_lt hshort))
  have hrem : (decimate c d taps xs dl r).2.2 = r + xs.length :=
    (decimate_remainder c d taps xs dl r hr).trans (Nat.mod_eq_of_lt hshort)
  have hdl : (decimate c d taps xs dl r).2.1 = pushAll dl xs := by
    rw [decimate_of_ne_one c d taps xs dl r (by omega), decimateLoop_delay]
  rw [← hout, ← hdl, ← hrem]

/-- The front end absorbs such a block: nothing is demodulated, and the decimators alone move. -/
theorem frontEnd_short (c : Cfg) (i q : List F) (ch : Channel) (hb : ch.BranchesInStep) (hlen : i.length = q.length)
    (hi : i.length ≠ 0) (hshort : ch.dec.iR + i.length < ch.config.decimD) :
    frontEnd c ch i q = ([], { ch with
      dec := { iDl := pushAll ch.dec.iDl i, qDl := pushAll ch.dec.qDl q,
               iR := ch.dec.iR + i.length, qR := ch.dec.qR + q.length } }) := by
  have hdi := decimate_short c _ ch.config.decTaps i ch.dec.iDl ch.dec.iR hi hshort
  have hdq := decimate_short c _ ch.config.decTaps q ch.dec.qDl ch.dec.qR (hlen ▸ hi)
    (by rw [← hb.sameRemainder, ← hlen]; exact hshort)
  rw [frontEnd, hdi, hdq]
  rfl

/-- Without a change of the mute flag, the event is CONTINUATION or IDLE and the lifecycle state stays. -/
theorem lifecycle_unchanged (ch : Channel) (h : ch.CallMatchesSquelch) :
    lifecycleNext ch.squelch.state = ch.lc ∧ ∀ cid ts, lifecycleMessage cid ts ch.lc ch.squelch.state =
      .lifecycle (if ch.squelch.state = .unmuted then .continuation else .idle) false cid ts := by
  unfold Channel.CallMatchesSquelch at h
  cases hlc : ch.lc <;> cases hst : ch.squelch.state
  case idle.muted | call.unmuted => exact ⟨rfl, fun _ _ => rfl⟩
  case idle.unmuted => simp [hlc, hst] at h
  case call.muted => simp [hlc, hst] at h

/-- An empty demodulated block sends no AUDIO and leaves the resampler as it is. -/
theorem audioOf_nil (c : Cfg) (cf : ActiveConfig) (ts : Word) (r : Resampler) (sq : SqState) :
    audioOf c cf [] ts r sq = [] := by cases sq <;> rfl

theorem resamplerAfter_nil (c : Cfg) (cf : ActiveConfig) (r : Resampler) (sq : SqState) :
    resamplerAfter c cf [] r sq = r := by cases sq <;> rfl

/-- Settles O31: the front end absorbs the block, and every later stage has no sample to work on. -/
theorem emptyDecimatedBlockIsAbsorbed : Obligations.EmptyDecimatedBlockIsAbsorbed := by
  intro tag ts i q s c ch tones hlen hi hconf hb hcall hshort
  have hk : decimatedLength ch i.length = 0 := Nat.div_eq_of_lt hshort
  have hlane : decimatedLength ch i.length % ch.config.implActive.toNat = 0 := by rw [hk, Nat.zero_mod]
  have hfront := frontEnd_short c i q ch hb hlen hi hshort
  have hempty : demodulated c ch i q = [] := congrArg Prod.fst hfront
  obtain ⟨hlc, hmessage⟩ := lifecycle_unchanged ch hcall
  have hstate : ({ ch with squelch := ch.squelch.clearChanged } : Channel).squelch.state = ch.squelch.state := rfl
  rw [exec_iqBlock_eq_runBlock tag ts i q s hi hconf (.inr hlane),
    runBlock_eq_blockResult c _ ts i q ch ch ⟨rfl, rfl⟩, blockResult, hempty, squelchStage_nil, hstate, hlc, hmessage,
    audioOf_nil, resamplerAfter_nil, hfront, pushAll_eq, pushAll_eq]
  rfl

end Sys2Proof.Machine
end

section
/-! O48: what faulting and other commands do to the channel (60_exceptions.md R290 to R294). -/

namespace Sys2Proof.Machine

/-- A command for which the fault table has no fault leaves `FSTAT` as it is. -/
theorem channelEffect_fstat_of_faultOf_none (c : Cfg) (s : State) (i : Instr) (h : faultOf c s i = none) :
    (channelEffect c s.activeNum s.calSel i s.active).fstat = s.active.fstat := by
  cases i with
  | sampleRate tag rate =>
    rcases sampleRate_fault_cases c s.activeNum s.calSel tag rate s.active with ⟨_, _, hf, -⟩ | ⟨-, cf, he⟩
    · cases hf.symm.trans h
    · rw [channelEffect, he, Channel.rebuild_fstat]
  | iqBlock tag ts xi xq =>
    rcases iqBlock_fault_cases c s.activeNum tag ts xi xq s.active with ⟨_, _, hf, -⟩ | ⟨-, he⟩
    · cases hf.symm.trans h
    · rw [channelEffect, he, runBlock_fstat]
  | calWrite tag code =>
    have hok : calCodeOk c code = true := by simpa [faultOf] using h
    by_cases h0 : s.calSel = 0#8 <;> simp [channelEffect, hok, h0]
  | implRequest tag code =>
    have hok : implCodeOk c code = true := by simpa [faultOf] using h
    simp [channelEffect, implRequest, hok]
  | reply | lifecycle | audio | tone | fault => cases h
  | _ => rfl

/-- Settles O48: a command takes the fault of the table and nothing else happens, or the table has none and `FSTAT`
stays. -/
theorem faultingCommandsChangeOnlyFstat : Obligations.FaultingCommandsChangeOnlyFstat := by
  refine ⟨exec_of_faultOf, fun i s t hnone hexec => ?_⟩
  rw [exec_eq] at hexec
  cases hexec
  exact channelEffect_fstat_of_faultOf_none Config.cfg s i hnone

end Sys2Proof.Machine
end

section
/-! O27: RESET (70_reset_and_hazards.md R322). -/

namespace Sys2Proof.Machine

theorem exec_reset (tag : Byte) (s : State) : exec (.reset tag) s = .next (s.onActive resetChannel) := rfl

/-- What RESET writes depends on the memories' lengths alone, and clearing a memory keeps its length. -/
@[simp] theorem resetChannel_resetChannel (ch : Channel) : resetChannel (resetChannel ch) = resetChannel ch := by
  rw [resetChannel]
  simp only [resetChannel_dec, resetChannel_fir, resetChannel_tone, resetChannel_resampler, clearMem_clearMem]
  rfl

/-- A second RESET directly after the first answers the state it runs in. -/
theorem exec_reset_of_reset (tag : Byte) (s : State) :
    exec (.reset tag) (s.onActive resetChannel) = .next (s.onActive resetChannel) := by
  rw [exec_reset, State.onActive, State.onActive_active, resetChannel_resetChannel]
  rfl

/-- Settles O27: `resetChannel` field for field, and its idempotence for the second RESET. -/
theorem resetReinitialisesTheDynamicState : Obligations.ResetReinitialisesTheDynamicState := fun tag s =>
  ⟨rfl, exec_reset tag s, exec_reset_of_reset tag s⟩

end Sys2Proof.Machine
end
